-- ==== Sys2Proof/Word.lean ====
section
/-! DEFINITION. The word types of the block and the byte lanes of a word (spec 20_memory.md R50, R55; 00_scope.md R12). -/

namespace Sys2Proof

/-- A register of the block: 32 bits (R55). -/
abbrev Word := BitVec 32

/-- One byte lane of a host bus bridge (R55). -/
abbrev Byte := BitVec 8

/-- An IEEE 754 binary32 pattern: bit 31 the sign, 30:23 the biased exponent, 22:0 the fraction (R12). -/
abbrev F32 := BitVec 32

/-- A level, 0..127 (R38, `LEVEL_MAX` of R6). -/
abbrev Level := BitVec 7

/-- A 10-bit analog reading, 0..1023 (R11, `AIN_MAX` of R6). -/
abbrev Reading := BitVec 10

end Sys2Proof
end

