-- ==== Sys2Proof/Config.lean ====
section
/-! DEFINITION. What an implementation fixes (spec 00_scope.md R6), the constants the spec fixes, and the free values:
the environment's inputs and the NaN patterns that no rule determines (R11, R12, R13; 93_implementation_defined.md items 1-5). -/

namespace Sys2Proof

/-- The implementation parameters of R6. They are no state of the block (R20): `Machine.State` carries them so that a
statement about every state is a statement about every configuration, and no step changes them (DESIGN CHOICE, log 1). -/
structure Params where
  /-- `N_ENV`, the number of envelope units (R6: 1..8, default 6). -/
  nEnv : Nat
  /-- `N_SRC`, the number of analog sources (R6: 2..255, OPEN). -/
  nSrc : Nat
  /-- `N_CH`, the number of output destinations (R6: 1..255, OPEN). -/
  nCh : Nat
  /-- `F_MIN`, the lower frequency clamp in Hz (R6). -/
  fMin : F32
  /-- `F_MAX`, the upper frequency clamp in Hz (R6). -/
  fMax : F32
  /-- `FS_RESET`, the reset value of FS (R6, R23: OPEN). -/
  fsReset : F32
  /-- `MK42_BASE`, the byte address of the register space in the host's map (R54: OPEN). -/
  base : Nat
  /-- Known points of the configuration functions `sinF` and `cosF` as (operand, cosine, sine); at every other operand
  they are the uninterpreted `Config.cosF` and `Config.sinF` (R6, R12; log 2). -/
  trig : List (F32 × F32 × F32)
  deriving DecidableEq, Repr

namespace Config

/-- `F_DEFAULT` = 1000.0 Hz (R6). -/
def fDefault : F32 := 0x447A0000#32

/-- `Q_DEFAULT` = the binary32 nearest 0.707 (R6). -/
def qDefault : F32 := 0x3F34FDF4#32

/-- `TWO_PI` = fl(2*pi) (R12). -/
def twoPi : F32 := 0x40C90FDB#32

/-- `sinF` where the parameters list no point: a binary32 function of its operand alone, of which nothing else is
assumed (R12). -/
opaque sinF : F32 → F32

/-- `cosF` where the parameters list no point (R12). -/
opaque cosF : F32 → F32

/-- FREE VALUE. `AnalogIn(k)` at the step with the given number, where the environment's record lists none (R11; log 3). -/
opaque analogIn : Nat → Nat → Reading

/-- FREE VALUE. The raw Random-curve draw of a unit at the step with the given number, where the environment's record
lists none; `Machine.State.randDraw` brings it into `0..l` (R13; log 4). -/
opaque randDraw : Nat → Nat → Nat

/-- FREE VALUE. The pattern of a NaN the datapath stores at a step in a register slot, where the environment's record
lists none; `Machine.State.settle` makes it a NaN (R12, 93_implementation_defined.md item 1; log 5). -/
opaque nanPattern : Nat → Nat → F32

end Config

/-- The configuration `Machine.State.reset` stands for: R6's defaults, the example instance `N_SRC = N_CH = 16` of
95_test_vectors.md for the OPEN counts, +0.0 for FS_RESET and 0 for MK42_BASE (DESIGN CHOICE, log 6). -/
def Params.default : Params where
  nEnv := 6
  nSrc := 16
  nCh := 16
  fMin := 0x41A00000#32
  fMax := 0x469C4000#32
  fsReset := 0x00000000#32
  base := 0
  trig := []

end Sys2Proof
end

