-- ==== Sys2Proof/Syntax.lean ====
section
/-! DEFINITION. The thirteen commands (spec 30_encoding.md R76, `opcode_table.json`) and the enumerations they name (R75). -/

namespace Sys2Proof

/-- `mode` (R32, R75). -/
inductive Mode where
  | sef | arg
  deriving DecidableEq, Repr

/-- `filter_curve` (R33, R75); code 7 is reserved and no curve. -/
inductive Curve where
  | linear | oppositeLinear | exponential | random | lowpass | highpass | bandpass
  deriving DecidableEq, Repr

/-- `arg_method` (R34, R75); code 7 is reserved and no method. -/
inductive Method where
  | plus | min | peck | shav | sqar | babs | tabs
  deriving DecidableEq, Repr

/-- The response a section was designed for (R35, R75); code 3 is reserved and no kind. -/
inductive Kind where
  | lp | hp | bp
  deriving DecidableEq, Repr

/-- The commands, one constructor per row of the opcode table. `e` is the ENV field; an enumeration operand is `none`
where the field holds the reserved code (R78), which the command refuses. -/
inductive Instr where
  /-- NOP (R121), format N. -/
  | nop
  /-- SET_ACTIVE e, b (R122), format EI. -/
  | setActive (e : Nat) (b : Bool)
  /-- SET_MODE e, m (R123), format EI. -/
  | setMode (e : Nat) (m : Mode)
  /-- SET_CURVE e, c (R124), format EI; `none` is curve code 7. -/
  | setCurve (e : Nat) (c : Option Curve)
  /-- SET_METHOD e, m (R125), format EI; `none` is method code 7. -/
  | setMethod (e : Nat) (m : Option Method)
  /-- SET_SRC e, k (R126), format EI. -/
  | setSrc (e : Nat) (k : Nat)
  /-- SET_PAIR e, a, b (R127), format EP. -/
  | setPair (e : Nat) (a : Nat) (b : Nat)
  /-- CFG_BIQ e, k (R106), format EI; `none` is kind code 3. -/
  | cfgBiq (e : Nat) (k : Option Kind)
  /-- CFG_FILT e (R107), format E. -/
  | cfgFilt (e : Nat)
  /-- BIQ_PROC e (R108), format E. -/
  | biqProc (e : Nat)
  /-- UPDATE e (R128), format E. -/
  | update (e : Nat)
  /-- UPDATE_ALL (R145), format N. -/
  | updateAll
  /-- APPLY e, ch, v (R160), format EC. -/
  | applyOut (e : Nat) (ch : Nat) (v : Nat)
  deriving DecidableEq, Repr

end Sys2Proof
end

