-- ==== Sys2Proof/WellFormed.lean ====
section
/-! DEFINITION. Well-formed commands: every operand fits the field that carries it (spec 30_encoding.md R71, R73). -/

namespace Sys2Proof

/-- The unit index fits ENV, bits 26:24. -/
def fitsEnv (e : Nat) : Bool := decide (e < 8)

/-- The operand fits F0, F1 or F2, eight bits each. -/
def fitsByte (n : Nat) : Bool := decide (n < 256)

/-- Every operand fits its field. An index the configuration refuses (`e >= N_ENV`, R78) is still well formed: the
command word exists, and performing it sets EINVAL. -/
def Instr.wellFormed : Instr → Bool
  | .nop => true
  | .setActive e _ => fitsEnv e
  | .setMode e _ => fitsEnv e
  | .setCurve e _ => fitsEnv e
  | .setMethod e _ => fitsEnv e
  | .setSrc e k => fitsEnv e && fitsByte k
  | .setPair e a b => fitsEnv e && fitsByte a && fitsByte b
  | .cfgBiq e _ => fitsEnv e
  | .cfgFilt e => fitsEnv e
  | .biqProc e => fitsEnv e
  | .update e => fitsEnv e
  | .updateAll => true
  | .applyOut e ch v => fitsEnv e && fitsByte ch && fitsByte v

end Sys2Proof
end

