-- ==== Sys2Proof/Decode.lean ====
section
/-! DEFINITION. Command words: the decoder, total on every word and on every byte string, and after it the encoder
(spec 30_encoding.md R70-R79; byte lanes of 20_memory.md R55). -/

namespace Sys2Proof

/-! ### Enumeration codes (R75) -/

def Mode.code : Mode → Nat
  | .sef => 0
  | .arg => 1

def Curve.code : Curve → Nat
  | .linear => 0
  | .oppositeLinear => 1
  | .exponential => 2
  | .random => 3
  | .lowpass => 4
  | .highpass => 5
  | .bandpass => 6

def Method.code : Method → Nat
  | .plus => 0
  | .min => 1
  | .peck => 2
  | .shav => 3
  | .sqar => 4
  | .babs => 5
  | .tabs => 6

def Kind.code : Kind → Nat
  | .lp => 0
  | .hp => 1
  | .bp => 2

/-- SET_MODE's F0[0] (R73). -/
def Mode.ofCode (n : Nat) : Mode := if n = 0 then .sef else .arg

/-- SET_CURVE's F0[2:0]; code 7 is reserved (R78). -/
def Curve.ofCode : Nat → Option Curve
  | 0 => some .linear
  | 1 => some .oppositeLinear
  | 2 => some .exponential
  | 3 => some .random
  | 4 => some .lowpass
  | 5 => some .highpass
  | 6 => some .bandpass
  | _ => none

/-- SET_METHOD's F0[2:0]; code 7 is reserved (R78). -/
def Method.ofCode : Nat → Option Method
  | 0 => some .plus
  | 1 => some .min
  | 2 => some .peck
  | 3 => some .shav
  | 4 => some .sqar
  | 5 => some .babs
  | 6 => some .tabs
  | _ => none

/-- CFG_BIQ's F0[1:0]; code 3 is reserved (R78). -/
def Kind.ofCode : Nat → Option Kind
  | 0 => some .lp
  | 1 => some .hp
  | 2 => some .bp
  | _ => none

/-! ### Fields of a command word (R71) -/

def opField (w : Word) : Nat := (w.extractLsb' 27 5).toNat
def envField (w : Word) : Nat := (w.extractLsb' 24 3).toNat
def f2Field (w : Word) : Nat := (w.extractLsb' 16 8).toNat
def f1Field (w : Word) : Nat := (w.extractLsb' 8 8).toNat
def f0Field (w : Word) : Nat := (w.extractLsb' 0 8).toNat
/-- F0[2:0], F0[1:0] and F0[0], the low bits an enumeration operand reads (R73). -/
def f0Low3 (w : Word) : Nat := (w.extractLsb' 0 3).toNat
def f0Low2 (w : Word) : Nat := (w.extractLsb' 0 2).toNat
def f0Low1 (w : Word) : Nat := (w.extractLsb' 0 1).toNat

/-- Why a word or a byte string is no command. -/
inductive DecodeError where
  /-- OP is 0x0D..0x1F (R77); writing the word to CMD sets ECMD. Safe: the block does exactly that. -/
  | reservedOpcode (op : Nat)
  /-- Fewer than four bytes were given: a command is one 32-bit word (R70). Safe: no port access moves less. -/
  | truncated (bytes : Nat)
  deriving DecidableEq, Repr

/-- The command a word is (R76): OP alone selects it, and the bits its format does not use are ignored (R72, R79). -/
def decodeWord (w : Word) : Except DecodeError Instr :=
  match opField w with
  | 0x00 => .ok .nop
  | 0x01 => .ok (.setActive (envField w) (f0Low1 w == 1))
  | 0x02 => .ok (.setMode (envField w) (Mode.ofCode (f0Low1 w)))
  | 0x03 => .ok (.setCurve (envField w) (Curve.ofCode (f0Low3 w)))
  | 0x04 => .ok (.setMethod (envField w) (Method.ofCode (f0Low3 w)))
  | 0x05 => .ok (.setSrc (envField w) (f0Field w))
  | 0x06 => .ok (.setPair (envField w) (f1Field w) (f0Field w))
  | 0x07 => .ok (.cfgBiq (envField w) (Kind.ofCode (f0Low2 w)))
  | 0x08 => .ok (.cfgFilt (envField w))
  | 0x09 => .ok (.biqProc (envField w))
  | 0x0A => .ok (.update (envField w))
  | 0x0B => .ok .updateAll
  | 0x0C => .ok (.applyOut (envField w) (f2Field w) (f0Field w))
  | op => .error (.reservedOpcode op)

/-! ### Byte lanes (R55) -/

/-- Byte lane `i` carries bits 8i+7 : 8i. -/
def byteLane (w : Word) (i : Nat) : Byte := w.extractLsb' (8 * i) 8

/-- The four byte lanes, the lowest address first. -/
def wordBytes (w : Word) : List Byte := [byteLane w 0, byteLane w 1, byteLane w 2, byteLane w 3]

/-- The word whose byte lanes are `b0` (bits 7:0) to `b3`. -/
def wordOfBytes (b0 b1 b2 b3 : Byte) : Word := b3 ++ b2 ++ b1 ++ b0

/-- The first command of a byte string as a bridge carries it, and the bytes after it. -/
def decode : List Byte → Except DecodeError (Instr × List Byte)
  | b0 :: b1 :: b2 :: b3 :: rest => (decodeWord (wordOfBytes b0 b1 b2 b3)).map (·, rest)
  | short => .error (.truncated short.length)

/-! ### The encoder (R71, R72, R79: ignored bits 0) -/

/-- The opcode of each command (R76). -/
def Instr.opcode : Instr → Nat
  | .nop => 0x00
  | .setActive .. => 0x01
  | .setMode .. => 0x02
  | .setCurve .. => 0x03
  | .setMethod .. => 0x04
  | .setSrc .. => 0x05
  | .setPair .. => 0x06
  | .cfgBiq .. => 0x07
  | .cfgFilt .. => 0x08
  | .biqProc .. => 0x09
  | .update .. => 0x0A
  | .updateAll => 0x0B
  | .applyOut .. => 0x0C

/-- `OP<<27 | ENV<<24 | F2<<16 | F1<<8 | F0` (R82). -/
def packWord (op e f2 f1 f0 : Nat) : Word :=
  BitVec.ofNat 5 op ++ BitVec.ofNat 3 e ++ BitVec.ofNat 8 f2 ++ BitVec.ofNat 8 f1 ++ BitVec.ofNat 8 f0

/-- The command word of a well-formed command, every ignored bit 0 (R79). -/
def encode (i : Instr) : Word :=
  match i with
  | .nop => packWord i.opcode 0 0 0 0
  | .setActive e b => packWord i.opcode e 0 0 b.toNat
  | .setMode e m => packWord i.opcode e 0 0 m.code
  | .setCurve e c => packWord i.opcode e 0 0 (c.elim 7 Curve.code)
  | .setMethod e m => packWord i.opcode e 0 0 (m.elim 7 Method.code)
  | .setSrc e k => packWord i.opcode e 0 0 k
  | .setPair e a b => packWord i.opcode e 0 a b
  | .cfgBiq e k => packWord i.opcode e 0 0 (k.elim 3 Kind.code)
  | .cfgFilt e => packWord i.opcode e 0 0 0
  | .biqProc e => packWord i.opcode e 0 0 0
  | .update e => packWord i.opcode e 0 0 0
  | .updateAll => packWord i.opcode 0 0 0 0
  | .applyOut e ch v => packWord i.opcode e ch 0 v

/-- The bits a command of opcode `op` reads, as a mask (R72, R73); a reserved opcode reads OP alone. -/
def usedBits (op : Nat) : Word :=
  match op with
  | 0x01 => 0xFF000001#32
  | 0x02 => 0xFF000001#32
  | 0x03 => 0xFF000007#32
  | 0x04 => 0xFF000007#32
  | 0x05 => 0xFF0000FF#32
  | 0x06 => 0xFF00FFFF#32
  | 0x07 => 0xFF000003#32
  | 0x08 => 0xFF000000#32
  | 0x09 => 0xFF000000#32
  | 0x0A => 0xFF000000#32
  | 0x0C => 0xFFFF00FF#32
  | _ => 0xF8000000#32

/-- The host's reading of a table row: the command the decoder reads from the word `w` of `nbits` bits, carried in byte
lanes as R55 lays them out, every bit above `nbits` 0. -/
def decodeTableWord (nbits w : Nat) : Option Instr :=
  match decode (wordBytes (BitVec.ofNat 32 (w % 2 ^ nbits))) with
  | .ok (i, _) => some i
  | .error _ => none

end Sys2Proof
end

