-- ==== Sys2Proof/Machine/State.lean ====
section
/-! DEFINITION. The state of the block (spec 10_state.md), the port's pending accesses and the environment's inputs
(00_scope.md R7, R11, R13), the observation of a run (R9), and the state after reset (R45). All of it plain data. -/

namespace Sys2Proof.Machine

/-- The five coefficients of a section, normalised by the leading feedback coefficient (R39). -/
structure Coeffs (α : Type) where
  b0 : α
  b1 : α
  b2 : α
  a1 : α
  a2 : α
  deriving DecidableEq, Repr

/-- The two delay taps of a section: the internal signal one and two samples back (R40). -/
structure Taps (α : Type) where
  w1 : α
  w2 : α
  deriving DecidableEq, Repr

/-- STATUS, the sticky flags (R22). Bits 31:4 read 0 and ignore writes, so they have no field. -/
structure Status where
  fclamp : Bool
  earg : Bool
  einval : Bool
  ecmd : Bool
  deriving DecidableEq, Repr

/-- RESULT, the return of the last successful APPLY (R28). Its reserved bits read 0, so they have no field. -/
structure Result where
  value : Level
  changed : Bool
  ch : BitVec 8
  deriving DecidableEq, Repr

/-- One envelope unit (R31-R41). CURVE, METHOD and KIND cannot hold their reserved codes (R33-R35). -/
structure EnvUnit where
  active : Bool
  mode : Mode
  curve : Curve
  method : Method
  kind : Kind
  src : BitVec 8
  pairA : BitVec 8
  pairB : BitVec 8
  level : Level
  coef : Coeffs F32
  taps : Taps F32
  efreq : F32
  eq : F32
  deriving DecidableEq, Repr

/-- An emission event `Emit(ch, val)` (R14). -/
structure Emission where
  ch : Nat
  val : Level
  deriving DecidableEq, Repr

/-- What the environment is recorded to supply at one step: readings by source (R11), raw draws by unit (R13) and NaN
patterns by register slot (R12). What a list does not name is an uninterpreted free value of `Config`. -/
structure Environ where
  analog : List (Nat × Reading) := []
  rand : List (Nat × Nat) := []
  nan : List (Nat × F32) := []
  deriving DecidableEq, Repr

/-- What the host does at the block: a register access by word index `addr[10:2]` (R50-R52), or asserting the reset
input (R190). -/
inductive Access where
  | read (index : BitVec 9)
  | write (index : BitVec 9) (value : Word)
  | reset
  deriving DecidableEq, Repr

/-- One pending step: the access, and what the environment supplies while it is performed (R7). -/
structure Event where
  access : Access
  environ : Environ := {}
  deriving DecidableEq, Repr

/-- The block, its configuration, its inputs and the observation of its run. -/
structure State where
  /-- The configuration (R6); no step changes it (R29, R190). -/
  params : Params
  /-- STATUS (R22). -/
  status : Status
  /-- FS, the sample rate in Hz (R23). -/
  fs : F32
  /-- ARG_F (R24). -/
  argF : F32
  /-- ARG_Q (R25). -/
  argQ : F32
  /-- ARG_X (R26). -/
  argX : F32
  /-- BIQ_Y (R27). -/
  biqY : F32
  /-- RESULT (R28). -/
  result : Result
  /-- The envelope units, unit `e` at position `e`, `N_ENV` of them (R20, R31-R41). -/
  units : List EnvUnit
  /-- LASTSENT by destination, `N_CH` entries; `none` is NONE, read as 0xFF (R42). -/
  lastSent : List (Option Level)
  /-- The emission trace, oldest first (R9, R14, R45). -/
  emissions : List Emission
  /-- The values register reads returned, oldest first (R9). -/
  readLog : List Word
  /-- The accesses the host has yet to make, in issue order (R57). -/
  port : List Event
  /-- What the environment supplies at the step being performed (R7, R11, R13). -/
  environ : Environ
  /-- THE MODEL'S OWN: the number of the step, to which the free values of `Config` are applied. -/
  seqNo : Nat
  deriving DecidableEq, Repr

/-- The block has no fault, trap or exception (R176): the type is empty, and no step ends in one. -/
inductive Fault
  deriving DecidableEq, Repr

/-- Why the model gives a command no meaning. No arm of `exec` raises it: every command of the table is modelled. Safe
where raised: the model stops where the block goes on. -/
inductive Refusal where
  /-- Raised by an arm of `exec` whose command has no meaning yet; safe. -/
  | notModelled (mnemonic : String)
  deriving DecidableEq, Repr

/-- The identity section (R39): B0 = 1.0, the rest +0.0. -/
def Coeffs.identity : Coeffs F32 where
  b0 := 0x3F800000#32
  b1 := 0x00000000#32
  b2 := 0x00000000#32
  a1 := 0x00000000#32
  a2 := 0x00000000#32

/-- Unit `e` after reset (R45). -/
def EnvUnit.reset (p : Params) (e : Nat) : EnvUnit where
  active := false
  mode := .sef
  curve := .linear
  method := .plus
  kind := .lp
  src := BitVec.ofNat 8 (e % p.nSrc)
  pairA := 0#8
  pairB := 1#8
  level := 0#7
  coef := Coeffs.identity
  taps := { w1 := 0x00000000#32, w2 := 0x00000000#32 }
  efreq := 0x00000000#32
  eq := 0x00000000#32

/-- The state after reset under the configuration `p` (R45), with no pending access. -/
def State.resetWith (p : Params) : State where
  params := p
  status := { fclamp := false, earg := false, einval := false, ecmd := false }
  fs := p.fsReset
  argF := 0x447A0000#32
  argQ := 0x3F34FDF4#32
  argX := 0x00000000#32
  biqY := 0x00000000#32
  result := { value := 0#7, changed := false, ch := 0#8 }
  units := (List.range p.nEnv).map (EnvUnit.reset p)
  lastSent := List.replicate p.nCh none
  emissions := []
  readLog := []
  port := []
  environ := {}
  seqNo := 0

/-- The state after reset (R45, R191) under `Params.default`. -/
def State.reset : State := State.resetWith Params.default

end Sys2Proof.Machine
end

