-- ==== Sys2Proof/Machine/Flags.lean ====
section
/-! DEFINITION. The sticky flags of STATUS: setting one, the write-one-to-clear, the word software reads
(spec 10_state.md R22; 60_exceptions.md R170). -/

namespace Sys2Proof.Machine

/-- The flags by name; the cause code of R170 is the bit index. -/
inductive Flag where
  | fclamp | earg | einval | ecmd
  deriving DecidableEq, Repr

/-- The bit index of a flag, which is its cause code (R170). -/
def Flag.code : Flag → Nat
  | .fclamp => 0
  | .earg => 1
  | .einval => 2
  | .ecmd => 3

def Status.get (st : Status) : Flag → Bool
  | .fclamp => st.fclamp
  | .earg => st.earg
  | .einval => st.einval
  | .ecmd => st.ecmd

/-- `SetFlag(F)` on STATUS: OR the flag in (R170). -/
def Status.set (st : Status) : Flag → Status
  | .fclamp => { st with fclamp := true }
  | .earg => { st with earg := true }
  | .einval => { st with einval := true }
  | .ecmd => { st with ecmd := true }

/-- A write of `v` to STATUS clears each flag whose bit of `v[3:0]` is 1 (R22). -/
def Status.clear (st : Status) (v : Word) : Status where
  fclamp := st.fclamp && !v.getLsbD 0
  earg := st.earg && !v.getLsbD 1
  einval := st.einval && !v.getLsbD 2
  ecmd := st.ecmd && !v.getLsbD 3

/-- STATUS as software reads it (R22, R53). -/
def Status.toWord (st : Status) : Word :=
  0#28 ++ BitVec.ofBool st.ecmd ++ BitVec.ofBool st.einval ++ BitVec.ofBool st.earg ++ BitVec.ofBool st.fclamp

/-- `SetFlag(F)` (R10, R170). -/
def State.setFlag (s : State) (f : Flag) : State := { s with status := s.status.set f }

end Sys2Proof.Machine
end

