-- ==== Sys2Proof/Machine/Float.lean ====
section
/-! DEFINITION. IEEE 754 binary32 arithmetic, round to nearest ties to even, no fused multiply-add, subnormals kept
(spec 00_scope.md R12), on integers: every finite value is a whole number of units of 2^-149. -/

namespace Sys2Proof.F32

/-! ### The pattern (R12) -/

def sign (x : F32) : Bool := x.msb
def expBits (x : F32) : Nat := (x.extractLsb' 23 8).toNat
def fracBits (x : F32) : Nat := (x.extractLsb' 0 23).toNat

/-- Bits 30:0 as a number; it orders the magnitudes of all values that are not NaN. -/
def mag (x : F32) : Nat := (x.extractLsb' 0 31).toNat

def isNaN (x : F32) : Bool := decide (0x7F800000 < mag x)
def isInf (x : F32) : Bool := decide (mag x = 0x7F800000)
def isFinite (x : F32) : Bool := decide (mag x < 0x7F800000)
def isZero (x : F32) : Bool := decide (mag x = 0)

/-- The pattern with the given sign and bits 30:0. -/
def pack (neg : Bool) (m : Nat) : F32 := BitVec.ofBool neg ++ BitVec.ofNat 31 m

/-- Infinity's bits 30:0. -/
def infMag : Nat := 0x7F800000

/-- The NaN the operations below answer. A stored NaN gets a free pattern (`Machine.State.settle`), and no rule looks
at more than whether a value is NaN (R12, 93_implementation_defined.md item 1). -/
def nan : F32 := 0x7FC00000#32

/-- The magnitude of a finite value, in units of 2^-149. -/
def magUnits (x : F32) : Nat :=
  if expBits x = 0 then fracBits x else (2 ^ 23 + fracBits x) * 2 ^ (expBits x - 1)

/-- A finite value, in units of 2^-149. -/
def units (x : F32) : Int := if sign x then -(magUnits x : Int) else magUnits x

/-- Bits 30:0 of `fl` of the magnitude `num / den` units of 2^-149: to nearest, ties to even, infinity from
2^128 - 2^103 on (R12). `den` is positive. -/
def roundMag (num den : Nat) : Nat :=
  let q := num / den
  if 277 ≤ Nat.log2 q then infMag
  else
    let l := Nat.log2 q - 23
    let d := den * 2 ^ l
    let m := num / d
    let r := num % d
    l * 2 ^ 23 + (if d < 2 * r ∨ (2 * r = d ∧ m % 2 = 1) then m + 1 else m)

/-! ### The operations (R12), each rounded once -/

def neg (a : F32) : F32 := a ^^^ 0x80000000#32

/-- Addition; an exact sum of zero is +0.0 unless both operands are negative (R12, IEEE 754). -/
def add (a b : F32) : F32 :=
  if isNaN a || isNaN b then nan
  else if isInf a then (if isInf b && (sign a != sign b) then nan else a)
  else if isInf b then b
  else
    let s := units a + units b
    if s = 0 then pack (sign a && sign b) 0
    else pack (decide (s < 0)) (roundMag s.natAbs 1)

def sub (a b : F32) : F32 := add a (neg b)

def mul (a b : F32) : F32 :=
  let neg := sign a != sign b
  if isNaN a || isNaN b then nan
  else if isInf a || isInf b then (if isZero a || isZero b then nan else pack neg infMag)
  else pack neg (roundMag (magUnits a * magUnits b) (2 ^ 149))

def div (a b : F32) : F32 :=
  let neg := sign a != sign b
  if isNaN a || isNaN b then nan
  else if isInf a then (if isInf b then nan else pack neg infMag)
  else if isInf b then pack neg 0
  else if isZero b then (if isZero a then nan else pack neg infMag)
  else pack neg (roundMag (magUnits a * 2 ^ 149) (magUnits b))

/-- Where a value that is not NaN stands in the order of values: both zeros at 0, infinities at the ends. -/
def key (x : F32) : Int := if sign x then -(mag x : Int) else mag x

/-- `a < b` (R12); false where either is NaN. -/
def lt (a b : F32) : Bool := !isNaN a && !isNaN b && decide (key a < key b)

/-- `a <= b` (R12); false where either is NaN. -/
def le (a b : F32) : Bool := !isNaN a && !isNaN b && decide (key a ≤ key b)

/-- `toF32(n)` for a level (R12): exact. -/
def ofLevel (l : Level) : F32 := pack false (roundMag (l.toNat * 2 ^ 149) 1)

/-- The integer part of the magnitude of a finite value (R105). -/
def truncMag (x : F32) : Nat := magUnits x / 2 ^ 149

end Sys2Proof.F32
end

