-- ==== Sys2Proof/Machine/Operands.lean ====
section
/-! DEFINITION. The operand forms of a command beside its plain fields: index and source checks (spec 30_encoding.md
R73, R78; 60_exceptions.md R172), the environment's inputs (00_scope.md R11, R13), the configuration functions (R12),
and the free NaN pattern of a stored result (R12). -/

namespace Sys2Proof.Machine

/-- ENV names a unit of this configuration (R78). -/
def State.envOk (s : State) (e : Nat) : Bool := decide (e < s.params.nEnv)

/-- A source index of this configuration (R78). -/
def State.srcOk (s : State) (k : Nat) : Bool := decide (k < s.params.nSrc)

/-- A destination index of this configuration (R78). -/
def State.chOk (s : State) (ch : Nat) : Bool := decide (ch < s.params.nCh)

/-- SET_PAIR's check: two distinct sources of this configuration (R127). -/
def State.pairOk (s : State) (a b : Nat) : Bool := s.srcOk a && s.srcOk b && (a != b)

/-- `AnalogIn(k)` at this step (R11). -/
def State.analogIn (s : State) (k : Nat) : Reading := (s.environ.analog.lookup k).getD (Config.analogIn s.seqNo k)

/-- `RandDraw(l)` of unit `e` at this step: any integer of `0..l` (R13). -/
def State.randDraw (s : State) (e l : Nat) : Nat :=
  ((s.environ.rand.lookup e).getD (Config.randDraw s.seqNo e)) % (l + 1)

/-- `sinF` of this configuration (R12). -/
def sinF (p : Params) (x : F32) : F32 :=
  match p.trig.lookup x with
  | some (_, s) => s
  | none => Config.sinF x

/-- `cosF` of this configuration (R12). -/
def cosF (p : Params) (x : F32) : F32 :=
  match p.trig.lookup x with
  | some (c, _) => c
  | none => Config.cosF x

/-- Every pattern, brought to a NaN: a NaN pattern stays as it is. -/
def toNaN (x : F32) : F32 := if F32.isNaN x then x else x ||| F32.nan

/-- The registers a datapath result is stored in, for the choice of a NaN's pattern. -/
inductive NanSlot where
  | b0 | b1 | b2 | a1 | a2 | w1 | biqY
  deriving DecidableEq, Repr

/-- The number of slot `r` of unit `e`. -/
def NanSlot.number (r : NanSlot) (e : Nat) : Nat :=
  8 * e + match r with
    | .b0 => 0
    | .b1 => 1
    | .b2 => 2
    | .a1 => 3
    | .a2 => 4
    | .w1 => 5
    | .biqY => 6

/-- What slot `r` of unit `e` holds when the datapath's result `v` is stored there: `v`, or where `v` is NaN a NaN of a
free pattern (R12). -/
def State.settle (s : State) (e : Nat) (r : NanSlot) (v : F32) : F32 :=
  if F32.isNaN v then
    toNaN ((s.environ.nan.lookup (r.number e)).getD (Config.nanPattern s.seqNo (r.number e)))
  else v

end Sys2Proof.Machine
end

