-- ==== Sys2Proof/Machine/Ops.lean ====
section
/-! DEFINITION. The shared operations of the commands: reading and writing a unit and a cache entry (spec 10_state.md
section 3, R42), the one way a command is refused (60_exceptions.md R170-R176), and emission (00_scope.md R14). -/

namespace Sys2Proof.Machine

/-- Unit `e`; a unit the state does not hold reads as a reset unit (no command reaches it: R78, R172). -/
def State.unit (s : State) (e : Nat) : EnvUnit := (s.units[e]?).getD (EnvUnit.reset s.params e)

/-- Replaces unit `e`. -/
def State.setUnit (s : State) (e : Nat) (u : EnvUnit) : State := { s with units := s.units.set e u }

/-- LASTSENT[ch] (R42). -/
def State.lastSentAt (s : State) (ch : Nat) : Option Level := (s.lastSent[ch]?).getD none

/-- THE BLOCK'S ONE FORM OF EXCEPTION (R170, R176): the command sets one sticky flag and changes nothing else; no
control flow changes and no state is saved. There is nothing to return from. -/
def refuse (f : Flag) (s : State) : Host.Outcome State Fault Refusal := .next (s.setFlag f)

/-- A command on unit `e`: refused with EINVAL where the configuration has no such unit, before any other check
(R175 item 2). -/
def onUnit (e : Nat) (s : State) (act : EnvUnit → Host.Outcome State Fault Refusal) :
    Host.Outcome State Fault Refusal :=
  if s.envOk e then act (s.unit e) else refuse .einval s

/-- `LASTSENT[ch] <- v` and `Emit(ch, v)` (R160, R14). -/
def State.emit (s : State) (ch : Nat) (v : Level) : State :=
  { s with lastSent := s.lastSent.set ch (some v), emissions := s.emissions ++ [{ ch := ch, val := v }] }

/-- `clamp7` (R10). -/
def clamp7 (v : Int) : Level := BitVec.ofNat 7 (min (max v 0) 127).toNat

end Sys2Proof.Machine
end

