-- ==== Sys2Proof/Machine/Biquad.lean ====
section
/-! DEFINITION. The biquad section: argument check, clamp, design, process, level conversion (spec 40_biquad.md
R101-R105), and the commands CFG_BIQ, CFG_FILT and BIQ_PROC (R106-R108). -/

namespace Sys2Proof.Machine

/-! ### The formulas, over any arithmetic -/

/-- The operations the section's formulas use: binary32 on the block, exact ones for the laws of section 3. -/
structure Arith (α : Type) where
  zero : α
  one : α
  two : α
  neg : α → α
  add : α → α → α
  sub : α → α → α
  mul : α → α → α
  div : α → α → α

/-- The block's arithmetic (R12, R100). -/
def binary32 : Arith F32 where
  zero := 0x00000000#32
  one := 0x3F800000#32
  two := 0x40000000#32
  neg := F32.neg
  add := F32.add
  sub := F32.sub
  mul := F32.mul
  div := F32.div

/-- The three numerator terms of a kind before normalisation (R103). -/
def numerator (A : Arith α) (k : Kind) (cw alpha : α) : α × α × α :=
  match k with
  | .lp =>
    let t := A.sub A.one cw
    (A.div t A.two, t, A.div t A.two)
  | .hp =>
    let t := A.add A.one cw
    (A.div t A.two, A.neg t, A.div t A.two)
  | .bp => (alpha, A.zero, A.neg alpha)

/-- The normalised coefficients from `cw = cos w0` and `alpha` (R103). -/
def coefficients (A : Arith α) (k : Kind) (cw alpha : α) : Coeffs α :=
  let b := numerator A k cw alpha
  let a0 := A.add A.one alpha
  { b0 := A.div b.1 a0
    b1 := A.div b.2.1 a0
    b2 := A.div b.2.2 a0
    a1 := A.div (A.mul (A.neg A.two) cw) a0
    a2 := A.div (A.sub A.one alpha) a0 }

/-- The Direct Form II internal signal of one sample, from the taps before it (R104). -/
def dfSignal (A : Arith α) (c : Coeffs α) (w : Taps α) (x : α) : α :=
  A.sub (A.sub x (A.mul c.a1 w.w1)) (A.mul c.a2 w.w2)

/-- The Direct Form II output of one sample, from the taps before it and the internal signal (R104). -/
def dfOutput (A : Arith α) (c : Coeffs α) (w : Taps α) (sig : α) : α :=
  A.add (A.add (A.mul c.b0 sig) (A.mul c.b1 w.w1)) (A.mul c.b2 w.w2)

/-! ### The shared procedures -/

/-- `ClampF(f)` (R101). -/
def clampF (p : Params) (f : F32) : F32 × Bool :=
  if F32.lt f p.fMin then (p.fMin, true)
  else if F32.lt p.fMax f then (p.fMax, true)
  else (f, false)

/-- Finite and above zero (R102). -/
def finitePositive (x : F32) : Bool := F32.isFinite x && F32.lt 0x00000000#32 x

/-- `ArgsValid(f, fs, q)` (R102). -/
def argsValid (f fs q : F32) : Bool := !F32.isNaN f && finitePositive q && finitePositive fs

/-- `w0 = fl(fl(TWO_PI*fc)/fs)` (R103). -/
def omega (fc fs : F32) : F32 := F32.div (F32.mul Config.twoPi fc) fs

/-- What `Design` returns (R103). -/
structure Designed where
  coef : Coeffs F32
  fc : F32
  clamped : Bool
  deriving DecidableEq, Repr

/-- `Design(kind, f, fs, q)` (R103), for arguments that pass R102. -/
def design (p : Params) (k : Kind) (f fs q : F32) : Designed :=
  let (fc, clamped) := clampF p f
  let w0 := omega fc fs
  let alpha := F32.div (sinF p w0) (F32.mul 0x40000000#32 q)
  { coef := coefficients binary32 k (cosF p w0) alpha, fc := fc, clamped := clamped }

/-- The coefficients as they are stored in unit `e` (R39, R12). -/
def State.settleCoeffs (s : State) (e : Nat) (c : Coeffs F32) : Coeffs F32 where
  b0 := s.settle e .b0 c.b0
  b1 := s.settle e .b1 c.b1
  b2 := s.settle e .b2 c.b2
  a1 := s.settle e .a1 c.a1
  a2 := s.settle e .a2 c.a2

/-- A design that passed its checks, stored in unit `e`: the coefficients, the kind, EFREQ and EQ; FCLAMP where it
clamped (R106, R107, R124). The taps are kept (R40). -/
def State.storeDesign (s : State) (e : Nat) (k : Kind) (q : F32) (d : Designed) : State :=
  let t := s.setUnit e { s.unit e with
    coef := s.settleCoeffs e d.coef, kind := k, efreq := d.fc, eq := q }
  if d.clamped then t.setFlag .fclamp else t

/-- A design of unit `e` from the staging registers (R106, R107): EARG and nothing else where the arguments are invalid. -/
def designStaged (e : Nat) (k : Kind) (s : State) : Host.Outcome State Fault Refusal :=
  if argsValid s.argF s.fs s.argQ then
    .next (s.storeDesign e k s.argQ (design s.params k s.argF s.fs s.argQ))
  else refuse .earg s

/-- `Process(e, x)`: the output, and the state with the taps moved on (R104). -/
def State.process (s : State) (e : Nat) (x : F32) : F32 × State :=
  let u := s.unit e
  let sig := dfSignal binary32 u.coef u.taps x
  (dfOutput binary32 u.coef u.taps sig,
   s.setUnit e { u with taps := { w1 := s.settle e .w1 sig, w2 := u.taps.w1 } })

/-- `ToLevel(y)` (R105). -/
def toLevel (y : F32) : Level :=
  if F32.isNaN y then 0#7
  else if F32.le 0x42FE0000#32 y then 127#7
  else if F32.le y 0x00000000#32 then 0#7
  else BitVec.ofNat 7 (F32.truncMag y)

/-! ### The commands -/

/-- CFG_BIQ e, k (R106). -/
def execCfgBiq (e : Nat) (k : Option Kind) (s : State) : Host.Outcome State Fault Refusal :=
  onUnit e s fun _ =>
    match k with
    | none => refuse .einval s
    | some k => designStaged e k s

/-- CFG_FILT e (R107). -/
def execCfgFilt (e : Nat) (s : State) : Host.Outcome State Fault Refusal :=
  onUnit e s fun u => designStaged e u.kind s

/-- BIQ_PROC e (R108). -/
def execBiqProc (e : Nat) (s : State) : Host.Outcome State Fault Refusal :=
  onUnit e s fun _ =>
    let (y, t) := s.process e s.argX
    .next { t with biqY := s.settle e .biqY y }

end Sys2Proof.Machine
end

