-- ==== Sys2Proof/Machine/Envelope.lean ====
section
/-! DEFINITION. The envelope unit: the analog map, the SEF curves, the ARG combiner (spec 41_envelope.md R120,
R129-R142), and the commands NOP, SET_*, UPDATE and UPDATE_ALL (R121-R128, R145). -/

namespace Sys2Proof.Machine

/-! ### Levels -/

/-- `AnalogMap(raw) = (raw * 127) div 1023` (R120). -/
def analogMap (raw : Reading) : Level := BitVec.ofNat 7 (raw.toNat * 127 / 1023)

/-- OppositeLinear (R131). -/
def oppositeLinear (l : Level) : Level := BitVec.ofNat 7 (127 - l.toNat)

/-- Exponential (R132). -/
def exponential (l : Level) : Level := BitVec.ofNat 7 (l.toNat * l.toNat / 127)

/-- The greatest `n` whose bits from `k` down extend `n0` with `n * n <= s`, one bit at a time. -/
def isqrtFrom (s : Nat) : Nat → Nat → Nat
  | 0, n => n
  | k + 1, n => isqrtFrom s k (if (n + 2 ^ k) * (n + 2 ^ k) ≤ s then n + 2 ^ k else n)

/-- `isqrt(s)` (R10). -/
def isqrt (s : Nat) : Nat := isqrtFrom s (Nat.log2 s / 2 + 1) 0

/-- Sqar before the clamp: the square root rounded to nearest (R140). -/
def sqar (a b : Nat) : Nat :=
  let s := a * a + b * b
  let n := isqrt s
  n + (if n * n + n < s then 1 else 0)

/-- `Combine(m, a, b)` (R135-R142), `div` truncating toward zero (R10). -/
def combine (m : Method) (a b : Level) : Level :=
  let a : Int := a.toNat
  let b : Int := b.toNat
  match m with
  | .plus => clamp7 (a + b)
  | .min => clamp7 (a - b)
  | .peck => clamp7 (b - a)
  | .shav => clamp7 ((a - b).tdiv 10)
  | .sqar => clamp7 (sqar a.toNat b.toNat)
  | .babs => if b = 0 then 0#7 else clamp7 (a.tdiv b)
  | .tabs => if b = 0 then 0#7 else clamp7 ((10 * a).tdiv b)

/-! ### One envelope-tick -/

/-- `LEVEL[e] <- v`. -/
def State.setLevel (s : State) (e : Nat) (v : Level) : State := s.setUnit e { s.unit e with level := v }

/-- `LEVEL[e] <- SefTransfer(e, l)` (R129-R134). The three biquad curves act alike. -/
def State.sefTransfer (s : State) (e : Nat) (l : Level) : State :=
  match (s.unit e).curve with
  | .linear => s.setLevel e l
  | .oppositeLinear => s.setLevel e (oppositeLinear l)
  | .exponential => s.setLevel e (exponential l)
  | .random => s.setLevel e (BitVec.ofNat 7 (s.randDraw e l.toNat))
  | .lowpass | .highpass | .bandpass =>
    let (y, t) := s.process e (F32.ofLevel l)
    t.setLevel e (toLevel y)

/-- The body of UPDATE for unit `e`, after its index check (R128). -/
def State.tickUnit (s : State) (e : Nat) : State :=
  let u := s.unit e
  if !u.active then s
  else
    match u.mode with
    | .sef => s.sefTransfer e (analogMap (s.analogIn u.src.toNat))
    | .arg =>
      s.setLevel e (combine u.method (analogMap (s.analogIn u.pairA.toNat)) (analogMap (s.analogIn u.pairB.toNat)))

/-! ### The commands -/

/-- NOP (R121). -/
def execNop (s : State) : Host.Outcome State Fault Refusal := .next s

/-- SET_ACTIVE e, b (R122). -/
def execSetActive (e : Nat) (b : Bool) (s : State) : Host.Outcome State Fault Refusal :=
  onUnit e s fun u => .next (s.setUnit e { u with active := b })

/-- SET_MODE e, m (R123). -/
def execSetMode (e : Nat) (m : Mode) (s : State) : Host.Outcome State Fault Refusal :=
  onUnit e s fun u => .next (s.setUnit e { u with mode := m })

/-- The kind a biquad curve designs for, `c - 4` (R124); a static curve has none. -/
def curveKind : Curve → Option Kind
  | .lowpass => some .lp
  | .highpass => some .hp
  | .bandpass => some .bp
  | .linear | .oppositeLinear | .exponential | .random => none

/-- `CURVE[e] <- c`. -/
def State.setCurve (s : State) (e : Nat) (c : Curve) : State := s.setUnit e { s.unit e with curve := c }

/-- SET_CURVE e, c (R124): a biquad curve re-applies the default design first, and all or nothing. -/
def execSetCurve (e : Nat) (c : Option Curve) (s : State) : Host.Outcome State Fault Refusal :=
  onUnit e s fun _ =>
    match c with
    | none => refuse .einval s
    | some c =>
      match curveKind c with
      | none => .next (s.setCurve e c)
      | some k =>
        if argsValid Config.fDefault s.fs Config.qDefault then
          .next ((s.storeDesign e k Config.qDefault
            (design s.params k Config.fDefault s.fs Config.qDefault)).setCurve e c)
        else refuse .earg s

/-- SET_METHOD e, m (R125). -/
def execSetMethod (e : Nat) (m : Option Method) (s : State) : Host.Outcome State Fault Refusal :=
  onUnit e s fun u =>
    match m with
    | none => refuse .einval s
    | some m => .next (s.setUnit e { u with method := m })

/-- SET_SRC e, k (R126). -/
def execSetSrc (e k : Nat) (s : State) : Host.Outcome State Fault Refusal :=
  onUnit e s fun u =>
    if s.srcOk k then .next (s.setUnit e { u with src := BitVec.ofNat 8 k }) else refuse .einval s

/-- SET_PAIR e, a, b (R127). -/
def execSetPair (e a b : Nat) (s : State) : Host.Outcome State Fault Refusal :=
  onUnit e s fun u =>
    if s.pairOk a b then .next (s.setUnit e { u with pairA := BitVec.ofNat 8 a, pairB := BitVec.ofNat 8 b })
    else refuse .einval s

/-- UPDATE e (R128). -/
def execUpdate (e : Nat) (s : State) : Host.Outcome State Fault Refusal :=
  onUnit e s fun _ => .next (s.tickUnit e)

/-- UPDATE_ALL (R145): every unit in index order. -/
def execUpdateAll (s : State) : Host.Outcome State Fault Refusal :=
  .next ((List.range s.params.nEnv).foldl State.tickUnit s)

end Sys2Proof.Machine
end

