-- ==== Sys2Proof/Machine/Output.lean ====
section
/-! DEFINITION. The output stage: APPLY (spec 42_output.md R160). -/

namespace Sys2Proof.Machine

/-- The value APPLY gives a channel: `clamp7(v + LEVEL[e])` (R160). -/
def applyValue (v : Nat) (level : Level) : Level := clamp7 ((v : Int) + (level.toNat : Int))

/-- APPLY e, ch, v (R160). -/
def execApplyOut (e ch v : Nat) (s : State) : Host.Outcome State Fault Refusal :=
  onUnit e s fun u =>
    if s.chOk ch then
      let nv := applyValue v u.level
      let changed := decide (s.lastSentAt ch ≠ some nv)
      let t := if changed then s.emit ch nv else s
      .next { t with result := { value := nv, changed := changed, ch := BitVec.ofNat 8 ch } }
    else refuse .einval s

end Sys2Proof.Machine
end

