-- ==== Sys2Proof/Machine/Dispatch.lean ====
section
/-! DEFINITION. Which meaning each command has (spec 30_encoding.md R76). -/

namespace Sys2Proof.Machine

def exec (i : Instr) (s : State) : Host.Outcome State Fault Refusal :=
  match i with
  | .nop => Sys2Proof.Machine.execNop s
  | .setActive e b => Sys2Proof.Machine.execSetActive e b s
  | .setMode e m => Sys2Proof.Machine.execSetMode e m s
  | .setCurve e c => Sys2Proof.Machine.execSetCurve e c s
  | .setMethod e m => Sys2Proof.Machine.execSetMethod e m s
  | .setSrc e k => Sys2Proof.Machine.execSetSrc e k s
  | .setPair e a b => Sys2Proof.Machine.execSetPair e a b s
  | .cfgBiq e k => Sys2Proof.Machine.execCfgBiq e k s
  | .cfgFilt e => Sys2Proof.Machine.execCfgFilt e s
  | .biqProc e => Sys2Proof.Machine.execBiqProc e s
  | .update e => Sys2Proof.Machine.execUpdate e s
  | .updateAll => Sys2Proof.Machine.execUpdateAll s
  | .applyOut e ch v => Sys2Proof.Machine.execApplyOut e ch v s

end Sys2Proof.Machine
end

