-- ==== Sys2Proof/Machine/Port.lean ====
section
/-! DEFINITION. The register port: the address map, register reads and writes, the reset input, and one access performed
(spec 20_memory.md R50-R55; 70_reset_and_hazards.md R190). -/

namespace Sys2Proof.Machine

/-- The registers of one unit (R53). -/
inductive UnitReg where
  | ectrl | esrc | elevel | efreq | eq | b0 | b1 | b2 | a1 | a2 | w1 | w2
  deriving DecidableEq, Repr

/-- The registers of the map, and the addresses that map nothing (R53). -/
inductive Reg where
  | cmd | status | fs | argF | argQ | argX | biqY | result | params
  | unit (e : Nat) (r : UnitReg)
  | lastSent (ch : Nat)
  | reserved
  deriving DecidableEq, Repr

/-- The unit register at a word offset from `E(e)` (R53). -/
def UnitReg.ofOffset : Nat → Option UnitReg
  | 0 => some .ectrl
  | 1 => some .esrc
  | 2 => some .elevel
  | 3 => some .efreq
  | 4 => some .eq
  | 5 => some .b0
  | 6 => some .b1
  | 7 => some .b2
  | 8 => some .a1
  | 9 => some .a2
  | 10 => some .w1
  | 11 => some .w2
  | _ => none

/-- The word offset of a unit register from `E(e)` (R53). -/
def UnitReg.offset : UnitReg → Nat
  | .ectrl => 0
  | .esrc => 1
  | .elevel => 2
  | .efreq => 3
  | .eq => 4
  | .b0 => 5
  | .b1 => 6
  | .b2 => 7
  | .a1 => 8
  | .a2 => 9
  | .w1 => 10
  | .w2 => 11

/-- The register at a word index (R53): global registers from byte address 0, units from 0x100 in steps of 0x40, the
cache from 0x400. -/
def Reg.at (p : Params) (index : BitVec 9) : Reg :=
  let n := index.toNat
  if n < 0x040 then
    match n with
    | 0 => .cmd
    | 1 => .status
    | 2 => .fs
    | 3 => .argF
    | 4 => .argQ
    | 5 => .argX
    | 6 => .biqY
    | 7 => .result
    | 8 => .params
    | _ => .reserved
  else if n < 0x0C0 then
    let e := (n - 0x040) / 16
    if e < p.nEnv then
      match UnitReg.ofOffset ((n - 0x040) % 16) with
      | some r => .unit e r
      | none => .reserved
    else .reserved
  else if n < 0x100 then .reserved
  else if n - 0x100 < p.nCh then .lastSent (n - 0x100)
  else .reserved

/-- The word index of a register (R53); `reserved` is given 0x024's. -/
def Reg.index : Reg → BitVec 9
  | .cmd => 0
  | .status => 1
  | .fs => 2
  | .argF => 3
  | .argQ => 4
  | .argX => 5
  | .biqY => 6
  | .result => 7
  | .params => 8
  | .unit e r => BitVec.ofNat 9 (0x040 + 16 * e + r.offset)
  | .lastSent ch => BitVec.ofNat 9 (0x100 + ch)
  | .reserved => 9

/-- The word index a host byte address reaches, where the register space stands at `MK42_BASE` (R50, R54). Address
bits 1:0 are not carried. -/
def portIndex (p : Params) (hostAddr : Nat) : Option (BitVec 9) :=
  if p.base ≤ hostAddr ∧ hostAddr < p.base + 0x800 then some (BitVec.ofNat 9 ((hostAddr - p.base) / 4)) else none

/-- The register access a host's load or store of the word at a byte address is (R50, R54); an address outside the
block's window is not the block's. -/
def Access.ofHost (p : Params) (hostAddr : Nat) (write : Option Word) : Option Access :=
  (portIndex p hostAddr).map fun i => write.elim (.read i) (.write i)

/-! ### Register contents as words (R53) -/

def modeBit : Mode → Bool
  | .sef => false
  | .arg => true

/-- RESULT: VALUE[6:0] CHANGED[8] CH[23:16] (R28). -/
def Result.toWord (r : Result) : Word := 0#8 ++ r.ch ++ 0#7 ++ BitVec.ofBool r.changed ++ 0#1 ++ r.value

/-- PARAMS: N_ENV[3:0] N_SRC[15:8] N_CH[23:16] (R29). -/
def paramsWord (p : Params) : Word :=
  0#8 ++ BitVec.ofNat 8 p.nCh ++ BitVec.ofNat 8 p.nSrc ++ 0#4 ++ BitVec.ofNat 4 p.nEnv

/-- ECTRL: ACTIVE[0] MODE[1] KIND[3:2] CURVE[6:4] METHOD[10:8] (R53). -/
def EnvUnit.ctrlWord (u : EnvUnit) : Word :=
  0#21 ++ BitVec.ofNat 3 u.method.code ++ 0#1 ++ BitVec.ofNat 3 u.curve.code ++ BitVec.ofNat 2 u.kind.code ++
    BitVec.ofBool (modeBit u.mode) ++ BitVec.ofBool u.active

/-- ESRC: SRC[7:0] PAIR_A[15:8] PAIR_B[23:16] (R53). -/
def EnvUnit.srcWord (u : EnvUnit) : Word := 0#8 ++ u.pairB ++ u.pairA ++ u.src

/-- A unit register as software reads it (R53). -/
def EnvUnit.readReg (u : EnvUnit) : UnitReg → Word
  | .ectrl => u.ctrlWord
  | .esrc => u.srcWord
  | .elevel => u.level.setWidth 32
  | .efreq => u.efreq
  | .eq => u.eq
  | .b0 => u.coef.b0
  | .b1 => u.coef.b1
  | .b2 => u.coef.b2
  | .a1 => u.coef.a1
  | .a2 => u.coef.a2
  | .w1 => u.taps.w1
  | .w2 => u.taps.w2

/-- LASTSENT as software reads it: NONE is 0xFF (R42, R53). -/
def lastSentWord : Option Level → Word
  | some v => v.setWidth 32
  | none => 0x000000FF#32

/-- A register's value; CMD and the addresses that map nothing read 0 (R51, R55). -/
def State.readReg (s : State) : Reg → Word
  | .cmd => 0#32
  | .status => s.status.toWord
  | .fs => s.fs
  | .argF => s.argF
  | .argQ => s.argQ
  | .argX => s.argX
  | .biqY => s.biqY
  | .result => s.result.toWord
  | .params => paramsWord s.params
  | .unit e r => (s.unit e).readReg r
  | .lastSent ch => lastSentWord (s.lastSentAt ch)
  | .reserved => 0#32

/-- `RegRead(addr)` by word index (R51). -/
def State.regRead (s : State) (index : BitVec 9) : Word := s.readReg (Reg.at s.params index)

/-- The byte a little-endian bus bridge reads at byte offset `off` of the register space (R55). -/
def State.readByte (s : State) (off : BitVec 11) : Byte := byteLane (s.regRead (off.extractLsb' 2 9)) (off.extractLsb' 0 2).toNat

/-! ### Register writes -/

/-- A write of `w` to CMD: the command is performed in this step (R70), a reserved opcode sets ECMD (R77, R171). -/
def runCommand (w : Word) (s : State) : Host.Outcome State Fault Refusal :=
  match decodeWord w with
  | .ok i => exec i s
  | .error _ => refuse .ecmd s

/-- `RegWrite(addr, v)` by register (R52): a read-only register or an address that maps nothing ignores the write. -/
def writeReg (r : Reg) (v : Word) (s : State) : Host.Outcome State Fault Refusal :=
  match r with
  | .cmd => runCommand v s
  | .status => .next { s with status := s.status.clear v }
  | .fs => .next { s with fs := v }
  | .argF => .next { s with argF := v }
  | .argQ => .next { s with argQ := v }
  | .argX => .next { s with argX := v }
  | .biqY => .next s
  | .result => .next s
  | .params => .next s
  | .unit _ _ => .next s
  | .lastSent _ => .next s
  | .reserved => .next s

/-- The reset input (R190): every piece of the block's state takes its reset value under the unchanged parameters, the
emission trace is empty (R45). What the host has read and has yet to do, and the environment, are not the block's. -/
def State.resetBlock (s : State) : State :=
  { State.resetWith s.params with
    readLog := s.readLog, port := s.port, environ := s.environ, seqNo := s.seqNo }

/-- One access performed, state written and any emission produced (R57). -/
def perform (a : Access) (s : State) : Host.Outcome State Fault Refusal :=
  match a with
  | .read index => .next { s with readLog := s.readLog ++ [s.regRead index] }
  | .write index v => writeReg (Reg.at s.params index) v s
  | .reset => .next s.resetBlock

/-- The access `ev` taken from the port and the environment's inputs of its step in place: the state the access finds. -/
def State.accept (s : State) (ev : Event) (rest : List Event) : State :=
  { s with port := rest, environ := ev.environ, seqNo := s.seqNo + 1 }

end Sys2Proof.Machine
end

