-- ==== Sys2Proof/Machine/Step.lean ====
section
/-! DEFINITION. One step of the block: the next pending access is performed (spec 00_scope.md R7, R8; 20_memory.md R57). -/

namespace Sys2Proof.Machine

/-- The next access in issue order (R57). With none pending the block holds its state (R183). -/
def step (s : State) : Host.Outcome State Fault Refusal :=
  match s.port with
  | [] => .next s
  | ev :: rest => perform ev.access (s.accept ev rest)

/-- The host's placing of a command word of `nbits` bits where the very next step performs it: a pending write to CMD
ahead of the others (R70; log 7). -/
def State.withFetchWord (s : State) (nbits w : Nat) : State :=
  { s with port := { access := .write 0#9 (BitVec.ofNat 32 (w % 2 ^ nbits)) } :: s.port }

end Sys2Proof.Machine
end

