-- ==== Sys2Proof/Machine/Assembler.lean ====
section
/-! DEFINITION. Host programs: the statements and pseudo-instructions of the spec's assembler as register accesses, and a
command's text (spec 30_encoding.md R80, R81). -/

namespace Sys2Proof.Machine

/-- A statement of a host program (R80). -/
inductive Stmt where
  | cmd (i : Instr)
  | wr (r : Reg) (v : Word)
  | rd (r : Reg)
  deriving DecidableEq, Repr

/-- The access a statement makes (R80): a command statement means `WR CMD, <its word>`. -/
def Stmt.access : Stmt → Access
  | .cmd i => .write (Reg.index .cmd) (encode i)
  | .wr r v => .write r.index v
  | .rd r => .read r.index

/-- The pseudo-instructions (R81). -/
inductive Pseudo where
  | activate (e : Nat)
  | deactivate (e : Nat)
  | cfgLp (e : Nat)
  | cfgHp (e : Nat)
  | cfgBp (e : Nat)
  | tune (e : Nat) (f q : F32)
  | designFor (e : Nat) (k : Kind) (f q : F32)
  | proc (e : Nat) (x : F32)
  | setFs (fs : F32)
  | clrStatus
  | toggleMode (e : Nat)
  deriving DecidableEq, Repr

/-- The expansion (R81). `ectrl` is the value TOGGLE_MODE's own read of ECTRL[e] returned, whose bit 1 is the mode; no
other expansion looks at it. An expansion of more than one access is not atomic: these are separate accesses. -/
def Pseudo.expand (ectrl : Word) : Pseudo → List Stmt
  | .activate e => [.cmd (.setActive e true)]
  | .deactivate e => [.cmd (.setActive e false)]
  | .cfgLp e => [.cmd (.cfgBiq e (some .lp))]
  | .cfgHp e => [.cmd (.cfgBiq e (some .hp))]
  | .cfgBp e => [.cmd (.cfgBiq e (some .bp))]
  | .tune e f q => [.wr .argF f, .wr .argQ q, .cmd (.cfgFilt e)]
  | .designFor e k f q => [.wr .argF f, .wr .argQ q, .cmd (.cfgBiq e (some k))]
  | .proc e x => [.wr .argX x, .cmd (.biqProc e), .rd .biqY]
  | .setFs fs => [.wr .fs fs]
  | .clrStatus => [.wr .status 0xF#32]
  | .toggleMode e => [.rd (.unit e .ectrl), .cmd (.setMode e (if ectrl.getLsbD 1 then .sef else .arg))]

/-! ### A command's text (R80, names of R75) -/

def Mode.name : Mode → String
  | .sef => "SEF"
  | .arg => "ARG"

def Curve.name : Curve → String
  | .linear => "LINEAR"
  | .oppositeLinear => "OPPOSITE_LINEAR"
  | .exponential => "EXPONENTIAL"
  | .random => "RANDOM"
  | .lowpass => "LOWPASS"
  | .highpass => "HIGHPASS"
  | .bandpass => "BANDPASS"

def Method.name : Method → String
  | .plus => "PLUS"
  | .min => "MIN"
  | .peck => "PECK"
  | .shav => "SHAV"
  | .sqar => "SQAR"
  | .babs => "BABS"
  | .tabs => "TABS"

def Kind.name : Kind → String
  | .lp => "LP"
  | .hp => "HP"
  | .bp => "BP"

/-- A command statement as R80 writes it; a reserved enumeration value is written as its number. -/
def commandText : Instr → String
  | .nop => "NOP"
  | .setActive e b => "SET_ACTIVE " ++ toString e ++ ", " ++ toString b.toNat
  | .setMode e m => "SET_MODE " ++ toString e ++ ", " ++ Mode.name m
  | .setCurve e c => "SET_CURVE " ++ toString e ++ ", " ++ c.elim "7" Curve.name
  | .setMethod e m => "SET_METHOD " ++ toString e ++ ", " ++ m.elim "7" Method.name
  | .setSrc e k => "SET_SRC " ++ toString e ++ ", " ++ toString k
  | .setPair e a b => "SET_PAIR " ++ toString e ++ ", " ++ toString a ++ ", " ++ toString b
  | .cfgBiq e k => "CFG_BIQ " ++ toString e ++ ", " ++ k.elim "3" Kind.name
  | .cfgFilt e => "CFG_FILT " ++ toString e
  | .biqProc e => "BIQ_PROC " ++ toString e
  | .update e => "UPDATE " ++ toString e
  | .updateAll => "UPDATE_ALL"
  | .applyOut e ch v => "APPLY " ++ toString e ++ ", " ++ toString ch ++ ", " ++ toString v

end Sys2Proof.Machine
end

