-- ==== Sys2Proof/Safety.lean ====
section
/-! DEFINITION. What counts as a legal configuration, a good state and a safe run, and the relations the claims are
stated with: what a command may write, which unit it names, and what correct rounding is. -/

namespace Sys2Proof.Machine

/-! ### Legal configurations and good states -/

/-- The constraints of R6. -/
abbrev Legal (p : Params) : Prop :=
  1 ≤ p.nEnv ∧ p.nEnv ≤ 8 ∧ 2 ≤ p.nSrc ∧ p.nSrc ≤ 255 ∧ 1 ≤ p.nCh ∧ p.nCh ≤ 255 ∧
    F32.isFinite p.fMin = true ∧ F32.isFinite p.fMax = true ∧ F32.lt 0x00000000#32 p.fMin = true ∧
    F32.le p.fMin p.fMax = true

/-- A unit's source and pair indices are legal (R36, R37). -/
structure UnitOk (p : Params) (u : EnvUnit) : Prop where
  src : u.src.toNat < p.nSrc
  pairA : u.pairA.toNat < p.nSrc
  pairB : u.pairB.toNat < p.nSrc
  distinct : u.pairA ≠ u.pairB

/-- The block's invariant: a legal configuration, `N_ENV` units and `N_CH` cache entries (R20, R42), and every unit's
source and pair legal at all times (R36, R37). That no unit holds a reserved curve, method or kind (R33-R35) and that a
level is 0..127 (R38, R143) is in the types. -/
structure State.Inv (s : State) : Prop where
  legal : Legal s.params
  unitCount : s.units.length = s.params.nEnv
  cacheSize : s.lastSent.length = s.params.nCh
  unitsOk : ∀ u ∈ s.units, UnitOk s.params u

/-- The values emitted for destination `ch`, oldest first. -/
def emittedFor (trace : List Emission) (ch : Nat) : List Level := (trace.filter fun m => m.ch == ch).map Emission.val

/-- R161: no destination's emissions hold two consecutive equal values, the cache holds the last value emitted for its
destination (NONE where there is none, R42), and every emission is for a destination of the configuration (R14). -/
structure State.EmissionsOk (s : State) : Prop where
  noRepeat : ∀ ch, (emittedFor s.emissions ch).IsChain (· ≠ ·)
  cached : ∀ ch, ch < s.params.nCh → s.lastSentAt ch = (emittedFor s.emissions ch).getLast?
  inRange : ∀ m ∈ s.emissions, m.ch < s.params.nCh

/-- A step is safe where it ends in a next state: no fault and no refusal (R176, R200). -/
def SafeStep (s : State) : Prop := ∃ t, step s = .next t

/-! ### Frames -/

/-- Between `s` and `t` nothing changed but unit `e` (R21). -/
def OnlyUnit (e : Nat) (s t : State) : Prop :=
  (∀ e', e' ≠ e → t.unit e' = s.unit e') ∧ { t with units := s.units } = s

/-- The unit a command names (R21): none for NOP and UPDATE_ALL. -/
def unitOf : Instr → Option Nat
  | .nop => none
  | .setActive e _ => some e
  | .setMode e _ => some e
  | .setCurve e _ => some e
  | .setMethod e _ => some e
  | .setSrc e _ => some e
  | .setPair e _ _ => some e
  | .cfgBiq e _ => some e
  | .cfgFilt e => some e
  | .biqProc e => some e
  | .update e => some e
  | .updateAll => none
  | .applyOut e _ _ => some e

/-- The registers of the map a coefficient design writes (R39, R41). -/
def UnitReg.ofDesign : UnitReg → Bool
  | .efreq | .eq | .b0 | .b1 | .b2 | .a1 | .a2 => true
  | .ectrl | .esrc | .elevel | .w1 | .w2 => false

/-- The registers of the map an envelope-tick writes (R128). -/
def UnitReg.ofTick : UnitReg → Bool
  | .elevel | .w1 | .w2 => true
  | .ectrl | .esrc | .efreq | .eq | .b0 | .b1 | .b2 | .a1 | .a2 => false

/-- Which registers of the map a command may write, from the 'written only by' of R22-R42: STATUS by any command that
can be refused, and per command the fields of its own unit, RESULT and its cache entry. -/
def mayWrite (i : Instr) (r : Reg) : Bool :=
  match i, r with
  | .nop, _ => false
  | .updateAll, .unit _ ur => ur.ofTick
  | .updateAll, _ => false
  | _, .status => true
  | .setActive e _, .unit e' .ectrl => e' == e
  | .setMode e _, .unit e' .ectrl => e' == e
  | .setMethod e _, .unit e' .ectrl => e' == e
  | .setCurve e _, .unit e' ur => e' == e && (ur == .ectrl || ur.ofDesign)
  | .setSrc e _, .unit e' .esrc => e' == e
  | .setPair e _ _, .unit e' .esrc => e' == e
  | .cfgBiq e _, .unit e' ur => e' == e && (ur == .ectrl || ur.ofDesign)
  | .cfgFilt e, .unit e' ur => e' == e && ur.ofDesign
  | .biqProc e, .unit e' ur => e' == e && (ur == .w1 || ur == .w2)
  | .biqProc _, .biqY => true
  | .update e, .unit e' ur => e' == e && ur.ofTick
  | .applyOut _ ch _, .lastSent ch' => ch' == ch
  | .applyOut _ _ _, .result => true
  | _, _ => false

/-! ### Binary32 results -/

/-- Register contents `r` holds the datapath's result `v`: the same pattern, or some NaN where `v` is NaN (R12). -/
def Holds (v r : F32) : Prop := if F32.isNaN v = true then F32.isNaN r = true else r = v

/-- Each coefficient register holds its computed coefficient (R39). -/
structure CoeffsHold (v r : Coeffs F32) : Prop where
  b0 : Holds v.b0 r.b0
  b1 : Holds v.b1 r.b1
  b2 : Holds v.b2 r.b2
  a1 : Holds v.a1 r.a1
  a2 : Holds v.a2 r.a2

/-- `ArgsValid` in the words of R102. -/
abbrev ArgsOk (f fs q : F32) : Prop :=
  F32.isNaN f = false ∧ (F32.isFinite q = true ∧ F32.lt 0x00000000#32 q = true) ∧
    (F32.isFinite fs = true ∧ F32.lt 0x00000000#32 fs = true)

/-- Between `s` and `t` a design `d` was stored in unit `e` and nothing else changed (R106, R107): the coefficients, the
kind, EFREQ and EQ, and FCLAMP set where the design clamped. -/
structure DesignStored (e : Nat) (k : Kind) (q : F32) (d : Designed) (s t : State) : Prop where
  coef : CoeffsHold d.coef (t.unit e).coef
  unit : t.unit e = { s.unit e with coef := (t.unit e).coef, kind := k, efreq := d.fc, eq := q }
  frame : OnlyUnit e s { t with status := s.status }
  flag : t.status = { s.status with fclamp := s.status.fclamp || d.clamped }

/-- From this magnitude on, in units of 2^-149, round to nearest gives infinity: 2^128 - 2^103 (IEEE 754). -/
def overflowUnits : Nat := (2 ^ 25 - 1) * 2 ^ 252

/-- `r` is `fl` of the exact value `num / den` units of 2^-149 (R12): infinity of its sign from `overflowUnits` on; below
that a finite value no finite value is nearer than, and of two equally near ones the one whose fraction is even. -/
structure Rounds (num : Int) (den : Nat) (r : F32) : Prop where
  signed : num ≠ 0 → F32.sign r = decide (num < 0)
  overflow : overflowUnits * den ≤ num.natAbs → F32.isInf r = true
  finite : num.natAbs < overflowUnits * den → F32.isFinite r = true
  nearest : num.natAbs < overflowUnits * den → ∀ c : F32, F32.isFinite c = true →
    (F32.units r * den - num).natAbs ≤ (F32.units c * den - num).natAbs
  even : num.natAbs < overflowUnits * den → ∀ c : F32, F32.isFinite c = true → F32.units c ≠ F32.units r →
    (F32.units r * den - num).natAbs = (F32.units c * den - num).natAbs → r.getLsbD 0 = false

/-- The section's arithmetic over exact rationals, for the laws of section 3 of 40_biquad.md (R109, R111). -/
def exact : Arith ℚ where
  zero := 0
  one := 1
  two := 2
  neg := fun a => -a
  add := fun a b => a + b
  sub := fun a b => a - b
  mul := fun a b => a * b
  div := fun a b => a / b

end Sys2Proof.Machine
end

