-- ==== Sys2Proof/Certificates/Slice0/Obligations.lean ====
section
/-! DEFINITION. The claims about the block, each from numbered rules of spec/ (OBLIGATIONS.json says which). -/

open Sys2Proof Sys2Proof.Machine

/-! ### Command words -/

/-- Every operand survives encoding and decoding, at every value its field admits (R71, R73, R75, R76). -/
def Obligations.DecodeOfEncodeIsTheCommand : Prop :=
  ∀ i : Instr, i.wellFormed = true → decodeWord (encode i) = .ok i

/-- R76: OP alone selects the command, and decoding is total. -/
def Obligations.OpcodeSelectsTheCommand : Prop :=
  ∀ w : Word,
    (opField w < 13 → ∃ i, decodeWord w = .ok i ∧ i.opcode = opField w ∧ i.wellFormed = true) ∧
    (13 ≤ opField w → decodeWord w = .error (.reservedOpcode (opField w)))

/-- R73: which bits of the word each command's operands are. `n % 2`, `n % 8` and `n % 4` are F0[0], F0[2:0], F0[1:0]. -/
def Obligations.OperandsAreTheNamedFields : Prop :=
  ∀ e f2 f1 f0 : Nat, e < 8 → f2 < 256 → f1 < 256 → f0 < 256 →
    decodeWord (packWord 0x01 e f2 f1 f0) = .ok (.setActive e (decide (f0 % 2 = 1))) ∧
    decodeWord (packWord 0x02 e f2 f1 f0) = .ok (.setMode e (if f0 % 2 = 1 then .arg else .sef)) ∧
    decodeWord (packWord 0x03 e f2 f1 f0) = .ok (.setCurve e (Curve.ofCode (f0 % 8))) ∧
    decodeWord (packWord 0x04 e f2 f1 f0) = .ok (.setMethod e (Method.ofCode (f0 % 8))) ∧
    decodeWord (packWord 0x05 e f2 f1 f0) = .ok (.setSrc e f0) ∧
    decodeWord (packWord 0x06 e f2 f1 f0) = .ok (.setPair e f1 f0) ∧
    decodeWord (packWord 0x07 e f2 f1 f0) = .ok (.cfgBiq e (Kind.ofCode (f0 % 4))) ∧
    decodeWord (packWord 0x08 e f2 f1 f0) = .ok (.cfgFilt e) ∧
    decodeWord (packWord 0x09 e f2 f1 f0) = .ok (.biqProc e) ∧
    decodeWord (packWord 0x0A e f2 f1 f0) = .ok (.update e) ∧
    decodeWord (packWord 0x0C e f2 f1 f0) = .ok (.applyOut e f2 f0)

/-- R79: two words that agree on OP and on the bits its format uses are the same command; the encoder writes 0 in every
ignored bit; and the rule's example. -/
def Obligations.IgnoredBitsChangeNothing : Prop :=
  (∀ w w' : Word, opField w = opField w' → w &&& usedBits (opField w) = w' &&& usedBits (opField w) →
    decodeWord w = decodeWord w') ∧
  (∀ i : Instr, i.wellFormed = true → encode i &&& ~~~usedBits i.opcode = 0#32) ∧
  decodeWord 0x1A000004#32 = .ok (.setCurve 2 (some .lowpass)) ∧
  decodeWord 0x1AFFFF04#32 = .ok (.setCurve 2 (some .lowpass))

/-- R82: the worked encodings, each the encoder's word and decoded back, and the reserved word. -/
def Obligations.WorkedEncodingsDecode : Prop :=
  ∀ c ∈ ([(.nop, 0x00000000#32), (.setActive 0 true, 0x08000001#32), (.setMode 3 .arg, 0x13000001#32),
      (.setCurve 2 (some .lowpass), 0x1A000004#32), (.setCurve 0 (some .exponential), 0x18000002#32),
      (.setMethod 1 (some .sqar), 0x21000004#32), (.setSrc 5 12, 0x2D00000C#32), (.setPair 1 3 4, 0x31000304#32),
      (.cfgBiq 0 (some .hp), 0x38000001#32), (.cfgFilt 4, 0x44000000#32), (.biqProc 0, 0x48000000#32),
      (.update 1, 0x51000000#32), (.updateAll, 0x58000000#32), (.applyOut 1 7 64, 0x61070040#32)] :
      List (Instr × Word)), encode c.1 = c.2 ∧ decodeWord c.2 = .ok c.1 ∧
    decodeWord 0x68000000#32 = .error (.reservedOpcode 0x0D)

/-- R55's byte lanes: the bytes of a command word, lowest address first and followed by anything, decode as the word.
(That a bridge's byte string is decoded at all is the model's, log 20.) -/
def Obligations.ByteLanesCarryTheWord : Prop :=
  ∀ (w : Word) (rest : List Byte),
    (∀ i, decodeWord w = .ok i → decode (wordBytes w ++ rest) = .ok (i, rest)) ∧
    (∀ x, decodeWord w = .error x → decode (wordBytes w ++ rest) = .error x)

/-! ### The step and the port -/

/-- A step whose access is a CMD write of a word that decodes to `i` is `exec i` at the state with that access taken from
the port, its environment in place and the step number advanced (R70). -/
def Obligations.StepPerformsTheWrittenCommand : Prop :=
  ∀ (s : State) (w : Word) (env : Environ) (rest : List Event) (i : Instr),
    s.port = { access := .write 0#9 w, environ := env } :: rest → decodeWord w = .ok i →
    step s = exec i { s with port := rest, environ := env, seqNo := s.seqNo + 1 }

/-- R171: a CMD write with a reserved OP sets ECMD, and nothing else changes. -/
def Obligations.ReservedOpcodeSetsEcmdOnly : Prop :=
  ∀ (s : State) (w : Word) (env : Environ) (rest : List Event),
    s.port = { access := .write 0#9 w, environ := env } :: rest → 0x0D ≤ opField w →
    step s = .next { s with port := rest, environ := env, seqNo := s.seqNo + 1,
                            status := { s.status with ecmd := true } }

/-- R52, by address: what a register write does at each of the writable addresses, and that a write anywhere else is
ignored. -/
def Obligations.RegisterWritesActByAddress : Prop :=
  ∀ (s : State) (index : BitVec 9) (v : Word) (env : Environ) (rest : List Event),
    s.port = { access := .write index v, environ := env } :: rest →
    let a : State := { s with port := rest, environ := env, seqNo := s.seqNo + 1 }
    (4 * index.toNat = 0x000 → ∀ i, decodeWord v = .ok i → step s = exec i a) ∧
    (4 * index.toNat = 0x004 → step s = .next { a with status :=
      { fclamp := a.status.fclamp && !v.getLsbD 0, earg := a.status.earg && !v.getLsbD 1,
        einval := a.status.einval && !v.getLsbD 2, ecmd := a.status.ecmd && !v.getLsbD 3 } }) ∧
    (4 * index.toNat = 0x008 → step s = .next { a with fs := v }) ∧
    (4 * index.toNat = 0x00C → step s = .next { a with argF := v }) ∧
    (4 * index.toNat = 0x010 → step s = .next { a with argQ := v }) ∧
    (4 * index.toNat = 0x014 → step s = .next { a with argX := v }) ∧
    (0x018 ≤ 4 * index.toNat → step s = .next a)

/-- R51: a register read returns the register's value, which joins the values the host has read, and has no side effect;
an address that maps nothing returns 0. (`readLog` is the observation of R9, log 11.) -/
def Obligations.RegisterReadsHaveNoSideEffect : Prop :=
  ∀ (s : State) (index : BitVec 9) (env : Environ) (rest : List Event),
    s.port = { access := .read index, environ := env } :: rest →
    let a : State := { s with port := rest, environ := env, seqNo := s.seqNo + 1 }
    step s = .next { a with readLog := s.readLog ++ [s.regRead index] } ∧
    (Reg.at s.params index = .reserved → s.regRead index = 0#32)

/-- The address map of 20_memory.md section 2: every word index, and what a read of it returns. STATUS, RESULT, PARAMS,
ECTRL and ESRC read as words packed from several fields: which bits hold which field is `PackedRegisterFields`. -/
def Obligations.RegisterMapByAddress : Prop :=
  ∀ s : State, Legal s.params →
    s.regRead 0#9 = 0#32 ∧ s.regRead 1#9 = s.status.toWord ∧ s.regRead 2#9 = s.fs ∧ s.regRead 3#9 = s.argF ∧
    s.regRead 4#9 = s.argQ ∧ s.regRead 5#9 = s.argX ∧ s.regRead 6#9 = s.biqY ∧ s.regRead 7#9 = s.result.toWord ∧
    s.regRead 8#9 = paramsWord s.params ∧
    (∀ n, 9 ≤ n → n < 64 → s.regRead (BitVec.ofNat 9 n) = 0#32) ∧
    (∀ e, e < s.params.nEnv →
      let base := 64 + 16 * e
      s.regRead (BitVec.ofNat 9 base) = (s.unit e).ctrlWord ∧
      s.regRead (BitVec.ofNat 9 (base + 1)) = (s.unit e).srcWord ∧
      s.regRead (BitVec.ofNat 9 (base + 2)) = (s.unit e).level.setWidth 32 ∧
      s.regRead (BitVec.ofNat 9 (base + 3)) = (s.unit e).efreq ∧
      s.regRead (BitVec.ofNat 9 (base + 4)) = (s.unit e).eq ∧
      s.regRead (BitVec.ofNat 9 (base + 5)) = (s.unit e).coef.b0 ∧
      s.regRead (BitVec.ofNat 9 (base + 6)) = (s.unit e).coef.b1 ∧
      s.regRead (BitVec.ofNat 9 (base + 7)) = (s.unit e).coef.b2 ∧
      s.regRead (BitVec.ofNat 9 (base + 8)) = (s.unit e).coef.a1 ∧
      s.regRead (BitVec.ofNat 9 (base + 9)) = (s.unit e).coef.a2 ∧
      s.regRead (BitVec.ofNat 9 (base + 10)) = (s.unit e).taps.w1 ∧
      s.regRead (BitVec.ofNat 9 (base + 11)) = (s.unit e).taps.w2 ∧
      ∀ k, 12 ≤ k → k < 16 → s.regRead (BitVec.ofNat 9 (base + k)) = 0#32) ∧
    (∀ n, 64 + 16 * s.params.nEnv ≤ n → n < 256 → s.regRead (BitVec.ofNat 9 n) = 0#32) ∧
    (∀ ch, ch < s.params.nCh → s.regRead (BitVec.ofNat 9 (256 + ch)) = ((s.lastSentAt ch).elim 0xFF#32 (·.setWidth 32))) ∧
    (∀ ch, s.params.nCh ≤ ch → ch ≤ 255 → s.regRead (BitVec.ofNat 9 (256 + ch)) = 0#32)

/-- The bit fields of the packed registers: STATUS (R22), RESULT (R28), PARAMS (R29), and of a unit ECTRL (R31-R35, with
R75's codes) and ESRC (R36, R37). Each register is the sum of its fields at their places, so every other bit reads 0. -/
def Obligations.PackedRegisterFields : Prop :=
  ∀ s : State, Legal s.params →
    (s.regRead 1#9).toNat =
      s.status.fclamp.toNat + 2 * s.status.earg.toNat + 4 * s.status.einval.toNat + 8 * s.status.ecmd.toNat ∧
    (s.regRead 7#9).toNat = s.result.value.toNat + 256 * s.result.changed.toNat + 65536 * s.result.ch.toNat ∧
    (s.regRead 8#9).toNat = s.params.nEnv + 256 * s.params.nSrc + 65536 * s.params.nCh ∧
    ∀ e, e < s.params.nEnv →
      let u := s.unit e
      (s.regRead (BitVec.ofNat 9 (64 + 16 * e))).toNat =
        u.active.toNat + 2 * u.mode.code + 4 * u.kind.code + 16 * u.curve.code + 256 * u.method.code ∧
      (s.regRead (BitVec.ofNat 9 (65 + 16 * e))).toNat =
        u.src.toNat + 256 * u.pairA.toNat + 65536 * u.pairB.toNat

/-- R45: what the registers read after the reset input is asserted in ANY state, the parameters unchanged and the
emission trace empty. (That the reset input is one access among the host's is the model's, log 10.) -/
def Obligations.ResetLeavesTheResetValues : Prop :=
  ∀ (s : State) (env : Environ) (rest : List Event), Legal s.params →
    s.port = { access := .reset, environ := env } :: rest →
    ∃ t, step s = .next t ∧ t.params = s.params ∧ t.emissions = [] ∧
      t.regRead 1#9 = 0#32 ∧ t.regRead 2#9 = s.params.fsReset ∧ t.regRead 3#9 = 0x447A0000#32 ∧
      t.regRead 4#9 = 0x3F34FDF4#32 ∧ t.regRead 5#9 = 0#32 ∧ t.regRead 6#9 = 0#32 ∧ t.regRead 7#9 = 0#32 ∧
      t.regRead 8#9 = s.regRead 8#9 ∧
      (∀ e, e < s.params.nEnv →
        t.regRead (BitVec.ofNat 9 (64 + 16 * e)) = 0#32 ∧
        t.regRead (BitVec.ofNat 9 (65 + 16 * e)) = BitVec.ofNat 32 (0x00010000 + e % s.params.nSrc) ∧
        t.regRead (BitVec.ofNat 9 (69 + 16 * e)) = 0x3F800000#32 ∧
        ∀ k ∈ [2, 3, 4, 6, 7, 8, 9, 10, 11], t.regRead (BitVec.ofNat 9 (64 + 16 * e + k)) = 0#32) ∧
      ∀ ch, ch < s.params.nCh → t.regRead (BitVec.ofNat 9 (256 + ch)) = 0x000000FF#32

/-- Every step ends in a next state: nothing faults, nothing is refused (R176), and nothing waits (R200). (That a step with
no access pending leaves the state is the model's, log 9.) -/
def Obligations.EveryStepCompletes : Prop :=
  ∀ s : State, SafeStep s

/-- R60's consequence of the order of accesses: a sample written to ARG_X is the one the BIQ_PROC after it filters. -/
def Obligations.CommandSeesTheStagingWriteBefore : Prop :=
  ∀ (s : State) (v : Word) (e : Nat) (env env' : Environ) (rest : List Event), s.Inv → e < s.params.nEnv →
    s.port = { access := .write 5#9 v, environ := env } ::
      { access := .write 0#9 (encode (.biqProc e)), environ := env' } :: rest →
    ∃ t, Sys2Proof.core.run 2 s = .next t ∧ t.argX = v ∧
      Holds (dfSignal binary32 (s.unit e).coef (s.unit e).taps v) (t.unit e).taps.w1

/-! ### Refusals and flags -/

/-- R172: everything that sets EINVAL, with no other change; NOP and UPDATE_ALL never set it. -/
def Obligations.EinvalRefusals : Prop :=
  ∀ s : State,
    let refused : Host.Outcome State Fault Refusal := .next { s with status := { s.status with einval := true } }
    (∀ e, s.params.nEnv ≤ e →
      (∀ b, exec (.setActive e b) s = refused) ∧ (∀ m, exec (.setMode e m) s = refused) ∧
      (∀ c, exec (.setCurve e c) s = refused) ∧ (∀ m, exec (.setMethod e m) s = refused) ∧
      (∀ k, exec (.setSrc e k) s = refused) ∧ (∀ a b, exec (.setPair e a b) s = refused) ∧
      (∀ k, exec (.cfgBiq e k) s = refused) ∧ exec (.cfgFilt e) s = refused ∧ exec (.biqProc e) s = refused ∧
      exec (.update e) s = refused ∧ ∀ ch v, exec (.applyOut e ch v) s = refused) ∧
    (∀ e, exec (.setCurve e none) s = refused) ∧
    (∀ e, exec (.setMethod e none) s = refused) ∧
    (∀ e, exec (.cfgBiq e none) s = refused) ∧
    (∀ e k, s.params.nSrc ≤ k → exec (.setSrc e k) s = refused) ∧
    (∀ e a b, s.params.nSrc ≤ a ∨ s.params.nSrc ≤ b ∨ a = b → exec (.setPair e a b) s = refused) ∧
    (∀ e ch v, s.params.nCh ≤ ch → exec (.applyOut e ch v) s = refused) ∧
    (∃ t, exec .nop s = .next t ∧ t.status.einval = s.status.einval) ∧
    (∃ t, exec .updateAll s = .next t ∧ t.status.einval = s.status.einval)

/-- R173: everything that sets EARG, with no other change, in the rule's words. -/
def Obligations.EargRefusals : Prop :=
  ∀ (s : State) (e : Nat), e < s.params.nEnv →
    let refused : Host.Outcome State Fault Refusal := .next { s with status := { s.status with earg := true } }
    let notFinitePositive (x : F32) : Prop := F32.isFinite x = false ∨ F32.lt 0x00000000#32 x = false
    ((F32.isNaN s.argF = true ∨ notFinitePositive s.argQ ∨ notFinitePositive s.fs) →
      (∀ k, exec (.cfgBiq e (some k)) s = refused) ∧ exec (.cfgFilt e) s = refused) ∧
    (notFinitePositive s.fs → ∀ c ∈ [Curve.lowpass, .highpass, .bandpass], exec (.setCurve e (some c)) s = refused)

/-- R175 and R176: a command either is refused, setting one error flag and changing nothing else, or sets no error flag;
only FCLAMP can come with an effect. No command sets ECMD. -/
def Obligations.CommandsAreAllOrNothing : Prop :=
  ∀ (i : Instr) (s t : State), exec i s = .next t →
    t = { s with status := { s.status with einval := true } } ∨
    t = { s with status := { s.status with earg := true } } ∨
    t.status = s.status ∨ t.status = { s.status with fclamp := true }

/-- R170: flags are sticky. A flag a step clears was cleared by a 1 in its bit of a STATUS write or by reset (log 10). -/
def Obligations.FlagsAreSticky : Prop :=
  ∀ (s t : State) (f : Flag), step s = .next t → s.status.get f = true → t.status.get f = false →
    ∃ env rest, s.port = { access := .reset, environ := env } :: rest ∨
      ∃ v : Word, v.getLsbD f.code = true ∧ s.port = { access := .write 1#9 v, environ := env } :: rest

/-! ### Frames over all commands -/

/-- Every register of the map that a command does not write by the rules (`mayWrite`) reads after it as before, and no
command touches the host's accesses, the read values or the environment. -/
def Obligations.CommandsWriteOnlyTheirRegisters : Prop :=
  ∀ (i : Instr) (s : State), ∃ t, exec i s = .next t ∧
    (∀ index, mayWrite i (Reg.at s.params index) = false → t.regRead index = s.regRead index) ∧
    t.params = s.params ∧ t.readLog = s.readLog ∧ t.port = s.port ∧ t.environ = s.environ ∧ t.seqNo = s.seqNo

/-- R21: a command that names a unit neither writes nor reads another unit. Whatever the other units hold, they stay, and
the named unit and everything outside the units come out the same. -/
def Obligations.UnitsAreIndependent : Prop :=
  ∀ (i : Instr) (e : Nat) (s : State) (us : List EnvUnit), unitOf i = some e →
    us.length = s.units.length → us[e]? = s.units[e]? →
    ∃ t t', exec i s = .next t ∧ exec i { s with units := us } = .next t' ∧
      (∀ e', e' ≠ e → t.unit e' = s.unit e') ∧
      t'.unit e = t.unit e ∧ { t' with units := [] } = { t with units := [] }

/-- R40 and R190: a step that changes a unit's taps is a reset, or a CMD write of BIQ_PROC or UPDATE of that unit or of
UPDATE_ALL. (Reset as an access: log 10.) -/
def Obligations.TapsMoveOnlyByProcessingOrReset : Prop :=
  ∀ (s t : State) (e : Nat), step s = .next t → (t.unit e).taps ≠ (s.unit e).taps →
    ∃ env rest, s.port = { access := .reset, environ := env } :: rest ∨
      ∃ w, s.port = { access := .write 0#9 w, environ := env } :: rest ∧
        (decodeWord w = .ok (.biqProc e) ∨ decodeWord w = .ok (.update e) ∨ decodeWord w = .ok .updateAll)

/-- R42: a step that changes a cache entry is a reset, or a CMD write of APPLY to that destination, which leaves a level
there and emits it. (Reset as an access: log 10.) -/
def Obligations.CacheChangesOnlyByApplyOrReset : Prop :=
  ∀ (s t : State) (ch : Nat), step s = .next t → t.lastSentAt ch ≠ s.lastSentAt ch →
    ∃ env rest, s.port = { access := .reset, environ := env } :: rest ∨
      ∃ w e v nv, s.port = { access := .write 0#9 w, environ := env } :: rest ∧
        decodeWord w = .ok (.applyOut e ch v) ∧ t.lastSentAt ch = some nv ∧
        t.emissions = s.emissions ++ [{ ch := ch, val := nv }]

/-- R38: a step that changes a level is a reset (log 10), or a CMD write of UPDATE of that unit or of UPDATE_ALL. -/
def Obligations.LevelsChangeOnlyByUpdateOrReset : Prop :=
  ∀ (s t : State) (e : Nat), step s = .next t → (t.unit e).level ≠ (s.unit e).level →
    ∃ env rest, s.port = { access := .reset, environ := env } :: rest ∨
      ∃ w, s.port = { access := .write 0#9 w, environ := env } :: rest ∧
        (decodeWord w = .ok (.update e) ∨ decodeWord w = .ok .updateAll)

/-- R29: no step changes the configuration (which the model carries in its state, log 1), so PARAMS reads the same for ever,
reset and writes to it included: N_ENV in bits 3:0, N_SRC in 15:8, N_CH in 23:16 and 0 in the others. -/
def Obligations.ParametersNeverChange : Prop :=
  (∀ s t : State, step s = .next t → t.params = s.params ∧ t.regRead 8#9 = s.regRead 8#9) ∧
  ∀ s : State, Legal s.params →
    (s.regRead 8#9).toNat = s.params.nEnv + 256 * s.params.nSrc + 65536 * s.params.nCh

/-! ### The commands one by one -/

/-- R121: NOP changes nothing; every word with OP 0 is NOP, the all-zero word among them. -/
def Obligations.NopChangesNothing : Prop :=
  (∀ s : State, exec .nop s = .next s) ∧ (∀ w : Word, opField w = 0x00 → decodeWord w = .ok .nop) ∧ opField 0#32 = 0x00

/-- R122: OP 0x01 is SET_ACTIVE of unit ENV and F0[0]; it writes ACTIVE[e] and nothing else. -/
def Obligations.SetActiveWritesActive : Prop :=
  (∀ w : Word, opField w = 0x01 → decodeWord w = .ok (.setActive (envField w) (w.getLsbD 0))) ∧
  ∀ (s : State) (e : Nat) (b : Bool),
    (s.params.nEnv ≤ e → exec (.setActive e b) s = .next { s with status := { s.status with einval := true } }) ∧
    (s.Inv → e < s.params.nEnv →
      ∃ t, exec (.setActive e b) s = .next t ∧ t.unit e = { s.unit e with active := b } ∧ OnlyUnit e s t)

/-- R123: OP 0x02 is SET_MODE of unit ENV and F0[0], 0 SEF and 1 ARG; it writes MODE[e] and nothing else. -/
def Obligations.SetModeWritesMode : Prop :=
  (∀ w : Word, opField w = 0x02 →
    decodeWord w = .ok (.setMode (envField w) (if w.getLsbD 0 then .arg else .sef))) ∧
  ∀ (s : State) (e : Nat) (m : Mode),
    (s.params.nEnv ≤ e → exec (.setMode e m) s = .next { s with status := { s.status with einval := true } }) ∧
    (s.Inv → e < s.params.nEnv →
      ∃ t, exec (.setMode e m) s = .next t ∧ t.unit e = { s.unit e with mode := m } ∧ OnlyUnit e s t)

/-- R125: OP 0x04 is SET_METHOD of unit ENV and F0[2:0]; it writes METHOD[e] and nothing else; code 7 is refused. -/
def Obligations.SetMethodWritesMethod : Prop :=
  (∀ w : Word, opField w = 0x04 → decodeWord w = .ok (.setMethod (envField w) (Method.ofCode (w.toNat % 8)))) ∧
  Method.ofCode 7 = none ∧
  ∀ (s : State) (e : Nat),
    (∀ m, s.params.nEnv ≤ e → exec (.setMethod e m) s = .next { s with status := { s.status with einval := true } }) ∧
    exec (.setMethod e none) s = .next { s with status := { s.status with einval := true } } ∧
    (s.Inv → e < s.params.nEnv → ∀ m,
      ∃ t, exec (.setMethod e (some m)) s = .next t ∧ t.unit e = { s.unit e with method := m } ∧ OnlyUnit e s t)

/-- R126: OP 0x05 is SET_SRC of unit ENV and F0; it writes SRC[e] with a source the configuration has, and nothing else. -/
def Obligations.SetSrcWritesSrc : Prop :=
  (∀ w : Word, opField w = 0x05 → decodeWord w = .ok (.setSrc (envField w) (w.toNat % 256))) ∧
  ∀ (s : State) (e k : Nat),
    (s.params.nEnv ≤ e ∨ s.params.nSrc ≤ k →
      exec (.setSrc e k) s = .next { s with status := { s.status with einval := true } }) ∧
    (s.Inv → e < s.params.nEnv → k < s.params.nSrc →
      ∃ t, exec (.setSrc e k) s = .next t ∧ (t.unit e).src.toNat = k ∧
        t.unit e = { s.unit e with src := (t.unit e).src } ∧ OnlyUnit e s t)

/-- R127: OP 0x06 is SET_PAIR of unit ENV, A from F1 and B from F0; it writes the two distinct sources it is given, and
nothing else. -/
def Obligations.SetPairWritesPair : Prop :=
  (∀ w : Word, opField w = 0x06 →
    decodeWord w = .ok (.setPair (envField w) (w.toNat / 256 % 256) (w.toNat % 256))) ∧
  ∀ (s : State) (e a b : Nat),
    (s.params.nEnv ≤ e ∨ s.params.nSrc ≤ a ∨ s.params.nSrc ≤ b ∨ a = b →
      exec (.setPair e a b) s = .next { s with status := { s.status with einval := true } }) ∧
    (s.Inv → e < s.params.nEnv → a < s.params.nSrc → b < s.params.nSrc → a ≠ b →
      ∃ t, exec (.setPair e a b) s = .next t ∧ (t.unit e).pairA.toNat = a ∧ (t.unit e).pairB.toNat = b ∧
        t.unit e = { s.unit e with pairA := (t.unit e).pairA, pairB := (t.unit e).pairB } ∧ OnlyUnit e s t)

/-- R124: SET_CURVE writes CURVE[e]; with a biquad curve it also stores the default design of the curve's kind under the
current FS, or is refused whole where FS is invalid. The taps and the staging registers stay. (A coefficient that is NaN is
stored as some NaN, R12, log 5.) -/
def Obligations.SetCurveReappliesTheDefaultDesign : Prop :=
  ∀ (s : State) (e : Nat),
    (∀ c, s.params.nEnv ≤ e → exec (.setCurve e c) s = .next { s with status := { s.status with einval := true } }) ∧
    exec (.setCurve e none) s = .next { s with status := { s.status with einval := true } } ∧
    (s.Inv → e < s.params.nEnv →
      (∀ c ∈ [Curve.linear, .oppositeLinear, .exponential, .random],
        ∃ t, exec (.setCurve e (some c)) s = .next t ∧ t.unit e = { s.unit e with curve := c } ∧ OnlyUnit e s t) ∧
      ∀ ck ∈ [(Curve.lowpass, Kind.lp), (.highpass, .hp), (.bandpass, .bp)],
        (¬ ArgsOk 0x447A0000#32 s.fs 0x3F34FDF4#32 →
          exec (.setCurve e (some ck.1)) s = .next { s with status := { s.status with earg := true } }) ∧
        (ArgsOk 0x447A0000#32 s.fs 0x3F34FDF4#32 →
          ∃ t, exec (.setCurve e (some ck.1)) s = .next (t.setCurve e ck.1) ∧
            DesignStored e ck.2 0x3F34FDF4#32 (design s.params ck.2 0x447A0000#32 s.fs 0x3F34FDF4#32) s t ∧
            (t.setCurve e ck.1).unit e = { t.unit e with curve := ck.1 } ∧ OnlyUnit e t (t.setCurve e ck.1)))

/-- R106: CFG_BIQ designs unit `e` for the kind it names from ARG_F, ARG_Q and FS, or sets exactly one error flag. (A
coefficient that is NaN is stored as some NaN, R12, log 5.) -/
def Obligations.CfgBiqStoresTheNamedDesign : Prop :=
  ∀ (s : State) (e : Nat),
    (∀ k, s.params.nEnv ≤ e → exec (.cfgBiq e k) s = .next { s with status := { s.status with einval := true } }) ∧
    exec (.cfgBiq e none) s = .next { s with status := { s.status with einval := true } } ∧
    (s.Inv → e < s.params.nEnv → ∀ k,
      (¬ ArgsOk s.argF s.fs s.argQ →
        exec (.cfgBiq e (some k)) s = .next { s with status := { s.status with earg := true } }) ∧
      (ArgsOk s.argF s.fs s.argQ →
        ∃ t, exec (.cfgBiq e (some k)) s = .next t ∧
          DesignStored e k s.argQ (design s.params k s.argF s.fs s.argQ) s t))

/-- R107: CFG_FILT designs unit `e` anew for the kind it holds, whatever its curve. (A coefficient that is NaN is stored as
some NaN, R12, log 5.) -/
def Obligations.CfgFiltKeepsTheKind : Prop :=
  ∀ (s : State) (e : Nat),
    (s.params.nEnv ≤ e → exec (.cfgFilt e) s = .next { s with status := { s.status with einval := true } }) ∧
    (s.Inv → e < s.params.nEnv →
      (¬ ArgsOk s.argF s.fs s.argQ →
        exec (.cfgFilt e) s = .next { s with status := { s.status with earg := true } }) ∧
      (ArgsOk s.argF s.fs s.argQ →
        ∃ t, exec (.cfgFilt e) s = .next t ∧
          DesignStored e (s.unit e).kind s.argQ (design s.params (s.unit e).kind s.argF s.fs s.argQ) s t))

/-- R108 with R104: BIQ_PROC runs ARG_X through unit `e` and leaves the output in BIQ_Y. (A result that is NaN is stored as
some NaN, R12, log 5.) -/
def Obligations.BiqProcRunsOneSample : Prop :=
  ∀ (s : State) (e : Nat),
    (s.params.nEnv ≤ e → exec (.biqProc e) s = .next { s with status := { s.status with einval := true } }) ∧
    (s.Inv → e < s.params.nEnv →
      let c := (s.unit e).coef
      let w1 := (s.unit e).taps.w1
      let w2 := (s.unit e).taps.w2
      let w := F32.sub (F32.sub s.argX (F32.mul c.a1 w1)) (F32.mul c.a2 w2)
      let y := F32.add (F32.add (F32.mul c.b0 w) (F32.mul c.b1 w1)) (F32.mul c.b2 w2)
      ∃ t, exec (.biqProc e) s = .next t ∧ Holds y t.biqY ∧ Holds w (t.unit e).taps.w1 ∧ (t.unit e).taps.w2 = w1 ∧
        t.unit e = { s.unit e with taps := (t.unit e).taps } ∧ OnlyUnit e s { t with biqY := s.biqY })

/-- R128: UPDATE of a unit that does not exist is refused, of an inactive unit changes nothing. -/
def Obligations.UpdateIsGuardedByActive : Prop :=
  ∀ (s : State) (e : Nat),
    (s.params.nEnv ≤ e → exec (.update e) s = .next { s with status := { s.status with einval := true } }) ∧
    (e < s.params.nEnv → (s.unit e).active = false → exec (.update e) s = .next s)

/-- UPDATE of an active unit in SEF mode on a static curve (R128, R130-R133): LEVEL by the curve, of the mapped reading
of SRC[e]; nothing else changes. The Random curve's level is the draw, whatever it is. -/
def Obligations.UpdateSefStaticCurve : Prop :=
  ∀ (s : State) (e : Nat), s.Inv → e < s.params.nEnv → (s.unit e).active = true → (s.unit e).mode = .sef →
    let l := (s.analogIn (s.unit e).src.toNat).toNat * 127 / 1023
    (s.unit e).curve ∈ [Curve.linear, .oppositeLinear, .exponential, .random] →
    ∃ t, exec (.update e) s = .next t ∧ t.unit e = { s.unit e with level := (t.unit e).level } ∧ OnlyUnit e s t ∧
      ((s.unit e).curve = .linear → (t.unit e).level.toNat = l) ∧
      ((s.unit e).curve = .oppositeLinear → (t.unit e).level.toNat = 127 - l) ∧
      ((s.unit e).curve = .exponential → (t.unit e).level.toNat = l * l / 127) ∧
      ((s.unit e).curve = .random → (t.unit e).level.toNat = s.randDraw e l ∧ (t.unit e).level.toNat ≤ l)

/-- R13 and R133: every value of the closed interval can be drawn, by some record of the environment (log 4). -/
def Obligations.RandomAdmitsTheClosedInterval : Prop :=
  ∀ (s : State) (e r : Nat), s.Inv → e < s.params.nEnv → (s.unit e).active = true → (s.unit e).mode = .sef →
    (s.unit e).curve = .random → r ≤ (s.analogIn (s.unit e).src.toNat).toNat * 127 / 1023 →
    ∃ draws t, exec (.update e) { s with environ := { s.environ with rand := draws } } = .next t ∧
      (t.unit e).level.toNat = r

/-- UPDATE of an active unit in SEF mode on a biquad curve (R128, R134): the mapped level is filtered, the taps move one
sample, LEVEL is ToLevel of the output; nothing else changes. The three biquad curves act alike (R129). The sample is the
level's value exactly (R12: one unit is 2^-149), and its sign bit is 0 for level 0 too (log 19). (A tap that is NaN is
stored as some NaN, R12, log 5.) -/
def Obligations.UpdateSefBiquadPath : Prop :=
  (∀ l : Level, F32.isFinite (F32.ofLevel l) = true ∧ F32.units (F32.ofLevel l) = (l.toNat : Int) * 2 ^ 149 ∧
    F32.sign (F32.ofLevel l) = false) ∧
  ∀ (s : State) (e : Nat), s.Inv → e < s.params.nEnv → (s.unit e).active = true → (s.unit e).mode = .sef →
    (s.unit e).curve ∈ [Curve.lowpass, .highpass, .bandpass] →
    let c := (s.unit e).coef
    let w1 := (s.unit e).taps.w1
    let w2 := (s.unit e).taps.w2
    let x := F32.ofLevel (analogMap (s.analogIn (s.unit e).src.toNat))
    let w := F32.sub (F32.sub x (F32.mul c.a1 w1)) (F32.mul c.a2 w2)
    let y := F32.add (F32.add (F32.mul c.b0 w) (F32.mul c.b1 w1)) (F32.mul c.b2 w2)
    ∃ t, exec (.update e) s = .next t ∧ (t.unit e).level = toLevel y ∧ Holds w (t.unit e).taps.w1 ∧
      (t.unit e).taps.w2 = w1 ∧
      t.unit e = { s.unit e with level := (t.unit e).level, taps := (t.unit e).taps } ∧ OnlyUnit e s t

/-- UPDATE of an active unit in ARG mode (R128, R135): LEVEL is the method's combination of the two mapped readings;
nothing else changes. -/
def Obligations.UpdateArgCombines : Prop :=
  ∀ (s : State) (e : Nat), s.Inv → e < s.params.nEnv → (s.unit e).active = true → (s.unit e).mode = .arg →
    ∃ t, exec (.update e) s = .next t ∧
      (t.unit e).level = combine (s.unit e).method (analogMap (s.analogIn (s.unit e).pairA.toNat))
        (analogMap (s.analogIn (s.unit e).pairB.toNat)) ∧
      t.unit e = { s.unit e with level := (t.unit e).level } ∧ OnlyUnit e s t

/-- R145: UPDATE_ALL leaves each unit as UPDATE of it alone would under the same readings, and changes nothing else. -/
def Obligations.UpdateAllTicksEveryUnit : Prop :=
  ∀ s : State, s.Inv → ∃ t, exec .updateAll s = .next t ∧ { t with units := s.units } = s ∧
    t.units.length = s.units.length ∧
    ∀ e, e < s.params.nEnv → ∃ u, exec (.update e) s = .next u ∧ t.unit e = u.unit e

/-- R160: OP 0x0C is APPLY of unit ENV, destination F2 and value F0; what it emits, caches and returns, and when it is
refused. -/
def Obligations.ApplyEmitsOnChange : Prop :=
  (∀ w : Word, opField w = 0x0C →
    decodeWord w = .ok (.applyOut (envField w) (w.toNat / 65536 % 256) (w.toNat % 256))) ∧
  ∀ (s : State) (e ch v : Nat),
    (s.params.nEnv ≤ e ∨ s.params.nCh ≤ ch →
      exec (.applyOut e ch v) s = .next { s with status := { s.status with einval := true } }) ∧
    (s.Inv → e < s.params.nEnv → ch < s.params.nCh →
      ∃ t, exec (.applyOut e ch v) s = .next t ∧
        t.result.value.toNat = min (v + (s.unit e).level.toNat) 127 ∧ t.result.ch.toNat = ch ∧
        t.lastSentAt ch = some t.result.value ∧ (∀ ch', ch' ≠ ch → t.lastSentAt ch' = s.lastSentAt ch') ∧
        t.result.changed = decide (s.lastSentAt ch ≠ some t.result.value) ∧
        t.emissions = s.emissions ++
          (if t.result.changed then [{ ch := ch, val := t.result.value }] else []) ∧
        { t with result := s.result, lastSent := s.lastSent, emissions := s.emissions } = s)

/-- "Two APPLYs that reach one value emit once" (R160), whatever units they name: the second one, reaching the value the
first left in the cache, emits nothing and says so in RESULT. -/
def Obligations.RepeatedValueEmitsOnce : Prop :=
  ∀ (s t : State) (e e' ch v v' : Nat), s.Inv → e < s.params.nEnv → e' < s.params.nEnv → ch < s.params.nCh →
    exec (.applyOut e ch v) s = .next t →
    min (v' + (s.unit e').level.toNat) 127 = min (v + (s.unit e).level.toNat) 127 →
    ∃ u, exec (.applyOut e' ch v') t = .next u ∧ u.emissions = t.emissions ∧ u.lastSent = t.lastSent ∧
      u.result = { t.result with changed := false }

/-! ### Levels, curves, methods -/

/-- R120: the analog map, its formula, its range, its monotony and the rule's values. -/
def Obligations.AnalogMapIsLinearAndMonotone : Prop :=
  (∀ raw : Reading, (analogMap raw).toNat = raw.toNat * 127 / 1023) ∧
  (∀ a b : Reading, a.toNat ≤ b.toNat → (analogMap a).toNat ≤ (analogMap b).toNat) ∧
  (∀ p ∈ [(0, 0), (8, 0), (9, 1), (512, 63), (1015, 126), (1023, 127)],
    (analogMap (BitVec.ofNat 10 p.1)).toNat = p.2)

/-- R136-R139, R141, R142: the six methods without a root, on natural numbers: a difference below zero is 0, a quotient
truncates, a division by zero is 0, and every result is clamped to 127. -/
def Obligations.CombineMethodsOnLevels : Prop :=
  ∀ a b : Level,
    (combine .plus a b).toNat = min (a.toNat + b.toNat) 127 ∧
    (combine .min a b).toNat = a.toNat - b.toNat ∧
    (combine .peck a b).toNat = b.toNat - a.toNat ∧
    (combine .shav a b).toNat = (a.toNat - b.toNat) / 10 ∧
    (combine .babs a b).toNat = (if b.toNat = 0 then 0 else a.toNat / b.toNat) ∧
    (combine .tabs a b).toNat = (if b.toNat = 0 then 0 else min (10 * a.toNat / b.toNat) 127)

/-- R140: Sqar is the square root of the sum of squares rounded to nearest (no tie occurs), clamped to 127. -/
def Obligations.SqarRoundsToNearest : Prop :=
  ∀ a b : Level, ∃ n : Nat, (combine .sqar a b).toNat = min n 127 ∧
    4 * (a.toNat * a.toNat + b.toNat * b.toNat) < (2 * n + 1) * (2 * n + 1) ∧
    (n = 0 ∨ (2 * n - 1) * (2 * n - 1) < 4 * (a.toNat * a.toNat + b.toNat * b.toNat))

/-- R105: NaN gives 0, 127.0 and more give 127, 0 and less give 0, and between them the level is the integer part. One
unit is 2^-149, so 127.0 is `127 * 2^149`. -/
def Obligations.ToLevelTruncatesAndClamps : Prop :=
  ∀ y : F32,
    (F32.isNaN y = true → toLevel y = 0#7) ∧
    (F32.isInf y = true → toLevel y = if F32.sign y then 0#7 else 127#7) ∧
    (F32.isFinite y = true →
      (127 * 2 ^ 149 ≤ F32.units y → toLevel y = 127#7) ∧
      (F32.units y ≤ 0 → toLevel y = 0#7) ∧
      (0 < F32.units y → F32.units y < 127 * 2 ^ 149 →
        ((toLevel y).toNat : Int) * 2 ^ 149 ≤ F32.units y ∧
        F32.units y < (((toLevel y).toNat : Int) + 1) * 2 ^ 149))

/-! ### Binary32 and the section -/

/-- R12: addition, subtraction, multiplication and division of finite values are the exact result rounded once, to
nearest, ties to even. Units are 2^-149, so a product of units counts 2^-298. -/
def Obligations.ArithmeticIsCorrectlyRounded : Prop :=
  ∀ a b : F32, F32.isFinite a = true → F32.isFinite b = true →
    Rounds (F32.units a + F32.units b) 1 (F32.add a b) ∧
    Rounds (F32.units a - F32.units b) 1 (F32.sub a b) ∧
    Rounds (F32.units a * F32.units b) (2 ^ 149) (F32.mul a b) ∧
    (F32.units b ≠ 0 →
      Rounds ((F32.units b).sign * F32.units a * 2 ^ 149) (F32.units b).natAbs (F32.div a b))

/-- R12: the default results of IEEE 754 that rounding does not settle: a NaN operand gives NaN; so do the difference of two
infinities, zero times infinity, infinity by infinity and zero by zero; a finite value beside an infinite one counts for
nothing but its sign; a quotient by zero is infinite and by infinity zero; the sign of a product and a quotient is the
exclusive or of the operands' signs, and an exact sum of zero is negative only of two negative operands. Comparison is the
order of values: of the numbers where both operands are finite (so the two zeros are equal), with an infinity beyond every
finite value on its side and equal to itself, and false where an operand is NaN. (The rule names IEEE 754 and does not spell
these out: log 19.) -/
def Obligations.SpecialValueArithmetic : Prop :=
  ∀ a b : F32,
    ((F32.isNaN a = true ∨ F32.isNaN b = true) →
      F32.isNaN (F32.add a b) = true ∧ F32.isNaN (F32.sub a b) = true ∧ F32.isNaN (F32.mul a b) = true ∧
        F32.isNaN (F32.div a b) = true) ∧
    (F32.isInf a = true → F32.isInf b = true →
      F32.isNaN (F32.div a b) = true ∧ F32.isInf (F32.mul a b) = true ∧
      (F32.sign a = F32.sign b → F32.add a b = a ∧ F32.isNaN (F32.sub a b) = true) ∧
      (F32.sign a ≠ F32.sign b → F32.sub a b = a ∧ F32.isNaN (F32.add a b) = true)) ∧
    (F32.isInf a = true → F32.isFinite b = true →
      F32.add a b = a ∧ F32.add b a = a ∧ F32.sub a b = a ∧ F32.sub b a = F32.neg a ∧
      F32.isInf (F32.div a b) = true ∧ F32.isZero (F32.div b a) = true ∧
      (F32.isZero b = true → F32.isNaN (F32.mul a b) = true ∧ F32.isNaN (F32.mul b a) = true) ∧
      (F32.isZero b = false → F32.isInf (F32.mul a b) = true ∧ F32.isInf (F32.mul b a) = true)) ∧
    (F32.isFinite a = true → F32.isZero b = true →
      (F32.isZero a = true → F32.isNaN (F32.div a b) = true) ∧
      (F32.isZero a = false → F32.isInf (F32.div a b) = true)) ∧
    (F32.isNaN (F32.mul a b) = false → F32.sign (F32.mul a b) = (F32.sign a != F32.sign b)) ∧
    (F32.isNaN (F32.div a b) = false → F32.sign (F32.div a b) = (F32.sign a != F32.sign b)) ∧
    (F32.isFinite a = true → F32.isFinite b = true → F32.units a + F32.units b = 0 →
      F32.isZero (F32.add a b) = true ∧ F32.sign (F32.add a b) = (F32.sign a && F32.sign b)) ∧
    (F32.isFinite a = true → F32.isFinite b = true →
      F32.lt a b = decide (F32.units a < F32.units b) ∧ F32.le a b = decide (F32.units a ≤ F32.units b)) ∧
    (F32.isInf a = true → F32.isFinite b = true →
      F32.lt a b = F32.sign a ∧ F32.le a b = F32.sign a ∧ F32.lt b a = !F32.sign a ∧ F32.le b a = !F32.sign a) ∧
    (F32.isInf a = true → F32.isInf b = true →
      F32.lt a b = (F32.sign a && !F32.sign b) ∧ F32.le a b = (F32.sign a || !F32.sign b)) ∧
    ((F32.isNaN a = true ∨ F32.isNaN b = true) → F32.lt a b = false ∧ F32.le a b = false)

/-- R101: the clamp, in terms of values (that `F32.lt` is the order of binary32 values is
`SpecialValueArithmetic`). -/
def Obligations.FrequencyClampsToTheBand : Prop :=
  ∀ (p : Params) (f : F32), Legal p → F32.isNaN f = false →
    (F32.lt f p.fMin = true → clampF p f = (p.fMin, true)) ∧
    (F32.lt p.fMax f = true → clampF p f = (p.fMax, true)) ∧
    (F32.lt f p.fMin = false → F32.lt p.fMax f = false → clampF p f = (f, false)) ∧
    (F32.isZero f = true ∨ F32.sign f = true → clampF p f = (p.fMin, true)) ∧
    clampF p 0x7F800000#32 = (p.fMax, true)

/-- R103: the coefficients, operation by operation, for the three kinds, whatever functions `cosF` and `sinF` are (log 2). -/
def Obligations.DesignFollowsTheEquations : Prop :=
  ∀ (p : Params) (k : Kind) (f fs q : F32),
    let fc := (clampF p f).1
    let w0 := F32.div (F32.mul 0x40C90FDB#32 fc) fs
    let cw := cosF p w0
    let alpha := F32.div (sinF p w0) (F32.mul 0x40000000#32 q)
    let a0 := F32.add 0x3F800000#32 alpha
    let d := design p k f fs q
    (k = .lp → d.coef.b0 = F32.div (F32.div (F32.sub 0x3F800000#32 cw) 0x40000000#32) a0 ∧
      d.coef.b1 = F32.div (F32.sub 0x3F800000#32 cw) a0 ∧ d.coef.b2 = d.coef.b0) ∧
    (k = .hp → d.coef.b0 = F32.div (F32.div (F32.add 0x3F800000#32 cw) 0x40000000#32) a0 ∧
      d.coef.b1 = F32.div (F32.neg (F32.add 0x3F800000#32 cw)) a0 ∧ d.coef.b2 = d.coef.b0) ∧
    (k = .bp → d.coef.b0 = F32.div alpha a0 ∧ d.coef.b1 = F32.div 0x00000000#32 a0 ∧
      d.coef.b2 = F32.div (F32.neg alpha) a0) ∧
    d.coef.a1 = F32.div (F32.mul 0xC0000000#32 cw) a0 ∧
    d.coef.a2 = F32.div (F32.sub 0x3F800000#32 alpha) a0 ∧
    d.fc = fc ∧ d.clamped = (clampF p f).2

/-- R110: below the floor and above the ceiling, CFG_FILT leaves the unit as it does at the bound, bit for bit, so every
later output is the same too. -/
def Obligations.ClampFloorEquivalence : Prop :=
  ∀ (s : State) (e : Nat) (f : F32), s.Inv → e < s.params.nEnv → ArgsOk f s.fs s.argQ →
    (F32.lt f s.params.fMin = true →
      ∃ t t', exec (.cfgFilt e) { s with argF := f } = .next t ∧
        exec (.cfgFilt e) { s with argF := s.params.fMin } = .next t' ∧ t.units = t'.units) ∧
    (F32.lt s.params.fMax f = true →
      ∃ t t', exec (.cfgFilt e) { s with argF := f } = .next t ∧
        exec (.cfgFilt e) { s with argF := s.params.fMax } = .next t' ∧ t.units = t'.units)

/-- R113: with the reset coefficients and finite taps, BIQ_PROC returns a finite sample unchanged (as a value: a zero may
change its sign), and W1 takes it and W2 the W1 before. -/
def Obligations.IdentitySectionBeforeDesign : Prop :=
  ∀ (s : State) (e : Nat), s.Inv → e < s.params.nEnv → (s.unit e).coef = Coeffs.identity →
    F32.isFinite s.argX = true → F32.isFinite (s.unit e).taps.w1 = true → F32.isFinite (s.unit e).taps.w2 = true →
    ∃ t, exec (.biqProc e) s = .next t ∧ F32.key t.biqY = F32.key s.argX ∧
      F32.key (t.unit e).taps.w1 = F32.key s.argX ∧ (t.unit e).taps.w2 = (s.unit e).taps.w1 ∧
      (F32.isZero s.argX = false → t.biqY = s.argX ∧ (t.unit e).taps.w1 = s.argX)

/-- R114: once a tap is NaN, every sample comes out NaN and leaves NaN in the taps, whatever the coefficients and the
sample, and the level on the SEF biquad path is 0; every step but one that performs the reset input leaves a NaN in the
unit's taps, UPDATE_ALL, designs and every other access included; and reset clears both taps (R190). (Reset as an access:
log 10.) -/
def Obligations.NanTapsPersist : Prop :=
  ∀ (s : State) (e : Nat), s.Inv → e < s.params.nEnv →
    (F32.isNaN (s.unit e).taps.w1 = true ∨ F32.isNaN (s.unit e).taps.w2 = true) →
    (∃ t, exec (.biqProc e) s = .next t ∧ F32.isNaN t.biqY = true ∧ F32.isNaN (t.unit e).taps.w1 = true) ∧
    ((s.unit e).active = true → (s.unit e).mode = .sef → (s.unit e).curve ∈ [Curve.lowpass, .highpass, .bandpass] →
      ∃ t, exec (.update e) s = .next t ∧ (t.unit e).level = 0#7 ∧ F32.isNaN (t.unit e).taps.w1 = true) ∧
    (∀ t, step s = .next t → (∀ env rest, s.port ≠ { access := .reset, environ := env } :: rest) →
      F32.isNaN (t.unit e).taps.w1 = true ∨ F32.isNaN (t.unit e).taps.w2 = true) ∧
    ∀ env rest, s.port = { access := .reset, environ := env } :: rest →
      ∃ t, step s = .next t ∧ (t.unit e).taps = { w1 := 0x00000000#32, w2 := 0x00000000#32 }

/-- R111 in exact rational arithmetic, for any `cw` and any `alpha` with `a0 ≠ 0`: the sums that give the DC gain and the
gain at half the sample rate. (The bandpass's gain at `w0` is left out.) -/
def Obligations.ExactGainLaws : Prop :=
  ∀ cw alpha : ℚ, 1 + alpha ≠ 0 →
    let lp := coefficients exact .lp cw alpha
    let hp := coefficients exact .hp cw alpha
    let bp := coefficients exact .bp cw alpha
    lp.b0 + lp.b1 + lp.b2 = 1 + lp.a1 + lp.a2 ∧
    hp.b0 + hp.b1 + hp.b2 = 0 ∧ hp.b0 - hp.b1 + hp.b2 = 1 - hp.a1 + hp.a2 ∧
    bp.b0 + bp.b1 + bp.b2 = 0 ∧ bp.b0 - bp.b1 + bp.b2 = 0

/-- R109 as a difference equation, in exact rational arithmetic: three samples through the section, from any taps, satisfy
`y2 + A1 y1 + A2 y0 = B0 x2 + B1 x1 + B2 x0`. -/
def Obligations.ExactDifferenceEquation : Prop :=
  ∀ (c : Coeffs ℚ) (w : Taps ℚ) (x0 x1 x2 : ℚ),
    let s0 := dfSignal exact c w x0
    let y0 := dfOutput exact c w s0
    let v : Taps ℚ := { w1 := s0, w2 := w.w1 }
    let s1 := dfSignal exact c v x1
    let y1 := dfOutput exact c v s1
    let u : Taps ℚ := { w1 := s1, w2 := v.w1 }
    let y2 := dfOutput exact c u (dfSignal exact c u x2)
    y2 + c.a1 * y1 + c.a2 * y0 = c.b0 * x2 + c.b1 * x1 + c.b2 * x0

/-- R144: a unit off the biquad path leaves the taps and the coefficients and does not read them; SEF mode does not read
the pair or the method, ARG mode does not read the source or the curve. -/
def Obligations.PathsAreIsolated : Prop :=
  ∀ (s : State) (e : Nat) (v : EnvUnit), s.Inv → e < s.params.nEnv →
    let u := s.unit e
    (u.mode = .arg ∨ u.curve ∈ [Curve.linear, .oppositeLinear, .exponential, .random] →
      ∃ t t', exec (.update e) s = .next t ∧
        exec (.update e) (s.setUnit e { u with coef := v.coef, taps := v.taps }) = .next t' ∧
        (t.unit e).taps = u.taps ∧ (t.unit e).coef = u.coef ∧ (t'.unit e).level = (t.unit e).level) ∧
    (u.mode = .sef →
      ∃ t t', exec (.update e) s = .next t ∧
        exec (.update e) (s.setUnit e { u with pairA := v.pairA, pairB := v.pairB, method := v.method }) = .next t' ∧
        (t'.unit e).level = (t.unit e).level ∧ (t'.unit e).taps = (t.unit e).taps) ∧
    (u.mode = .arg →
      ∃ t t', exec (.update e) s = .next t ∧
        exec (.update e) (s.setUnit e { u with src := v.src, curve := v.curve }) = .next t' ∧
        (t'.unit e).level = (t.unit e).level ∧ (t'.unit e).taps = (t.unit e).taps)

/-! ### Invariants -/

/-- The invariant holds after reset, under every legal configuration; and `State.reset`'s is one. -/
def Obligations.InvariantHoldsAtReset : Prop :=
  (∀ p : Params, Legal p → (State.resetWith p).Inv ∧ (State.resetWith p).EmissionsOk) ∧ State.reset.Inv

/-- Every step from a good state leads to a good state: the configuration stays legal, the units and the cache keep their
number, and every unit's source and pair stay legal (R36, R37). -/
def Obligations.StepsKeepTheInvariant : Prop :=
  ∀ s t : State, s.Inv → step s = .next t → t.Inv

/-- R161: every step keeps the emission guarantee: no destination's emissions ever hold two consecutive equal values, and
each one's last emission is the value its cache entry holds. -/
def Obligations.StepsKeepTheEmissionGuarantee : Prop :=
  ∀ s t : State, s.Inv → s.EmissionsOk → step s = .next t → t.EmissionsOk
end

