-- ==== Sys2Proof/Laws/Decode.lean ====
section
/-! SUPPORT. The fields of a packed command word: each field reads back what was packed there (spec 30_encoding.md R71). -/

namespace Sys2Proof

/-- A packed word as a sum of its fields at their places (R82). -/
theorem packWord_toNat (op e f2 f1 f0 : Nat) (ho : op < 32) (he : e < 8) (h2 : f2 < 256) (h1 : f1 < 256) (h0 : f0 < 256) :
    (packWord op e f2 f1 f0).toNat = op * 2 ^ 27 + e * 2 ^ 24 + f2 * 2 ^ 16 + f1 * 2 ^ 8 + f0 := by
  unfold packWord
  simp only [BitVec.toNat_append, BitVec.toNat_ofNat]
  have ho' : op < 2 ^ 5 := ho
  have he' : e < 2 ^ 3 := he
  have h2' : f2 < 2 ^ 8 := h2
  have h1' : f1 < 2 ^ 8 := h1
  have h0' : f0 < 2 ^ 8 := h0
  rw [Nat.mod_eq_of_lt ho', Nat.mod_eq_of_lt he', Nat.mod_eq_of_lt h2', Nat.mod_eq_of_lt h1', Nat.mod_eq_of_lt h0',
    ← Nat.shiftLeft_add_eq_or_of_lt he', ← Nat.shiftLeft_add_eq_or_of_lt h2', ← Nat.shiftLeft_add_eq_or_of_lt h1',
    ← Nat.shiftLeft_add_eq_or_of_lt h0']
  simp only [Nat.shiftLeft_eq]
  omega

/-- A bit field as a number. -/
theorem field_toNat (w : Word) (s n : Nat) : (w.extractLsb' s n).toNat = w.toNat / 2 ^ s % 2 ^ n := by
  simp [BitVec.extractLsb'_toNat, Nat.shiftRight_eq_div_pow]

variable {op e f2 f1 f0 : Nat} (ho : op < 32) (he : e < 8) (h2 : f2 < 256) (h1 : f1 < 256) (h0 : f0 < 256)
include ho he h2 h1 h0

theorem opField_packWord : opField (packWord op e f2 f1 f0) = op := by
  rw [opField, field_toNat, packWord_toNat op e f2 f1 f0 ho he h2 h1 h0]; omega

theorem envField_packWord : envField (packWord op e f2 f1 f0) = e := by
  rw [envField, field_toNat, packWord_toNat op e f2 f1 f0 ho he h2 h1 h0]; omega

theorem f2Field_packWord : f2Field (packWord op e f2 f1 f0) = f2 := by
  rw [f2Field, field_toNat, packWord_toNat op e f2 f1 f0 ho he h2 h1 h0]; omega

theorem f1Field_packWord : f1Field (packWord op e f2 f1 f0) = f1 := by
  rw [f1Field, field_toNat, packWord_toNat op e f2 f1 f0 ho he h2 h1 h0]; omega

theorem f0Field_packWord : f0Field (packWord op e f2 f1 f0) = f0 := by
  rw [f0Field, field_toNat, packWord_toNat op e f2 f1 f0 ho he h2 h1 h0]; omega

theorem f0Low3_packWord : f0Low3 (packWord op e f2 f1 f0) = f0 % 8 := by
  rw [f0Low3, field_toNat, packWord_toNat op e f2 f1 f0 ho he h2 h1 h0]; omega

theorem f0Low2_packWord : f0Low2 (packWord op e f2 f1 f0) = f0 % 4 := by
  rw [f0Low2, field_toNat, packWord_toNat op e f2 f1 f0 ho he h2 h1 h0]; omega

theorem f0Low1_packWord : f0Low1 (packWord op e f2 f1 f0) = f0 % 2 := by
  rw [f0Low1, field_toNat, packWord_toNat op e f2 f1 f0 ho he h2 h1 h0]; omega

end Sys2Proof
end

