-- ==== Sys2Proof/Laws/State.lean ====
section
/-! SUPPORT. One lemma per field per update of the state, true by rfl, and what reading a unit or a cache entry after
writing one gives. -/

namespace Sys2Proof.Machine

/-! ### SetFlag -/

@[simp] theorem setFlag_params (s : State) (f : Flag) : (s.setFlag f).params = s.params := rfl
@[simp] theorem setFlag_fs (s : State) (f : Flag) : (s.setFlag f).fs = s.fs := rfl
@[simp] theorem setFlag_argF (s : State) (f : Flag) : (s.setFlag f).argF = s.argF := rfl
@[simp] theorem setFlag_argQ (s : State) (f : Flag) : (s.setFlag f).argQ = s.argQ := rfl
@[simp] theorem setFlag_argX (s : State) (f : Flag) : (s.setFlag f).argX = s.argX := rfl
@[simp] theorem setFlag_biqY (s : State) (f : Flag) : (s.setFlag f).biqY = s.biqY := rfl
@[simp] theorem setFlag_result (s : State) (f : Flag) : (s.setFlag f).result = s.result := rfl
@[simp] theorem setFlag_units (s : State) (f : Flag) : (s.setFlag f).units = s.units := rfl
@[simp] theorem setFlag_lastSent (s : State) (f : Flag) : (s.setFlag f).lastSent = s.lastSent := rfl
@[simp] theorem setFlag_emissions (s : State) (f : Flag) : (s.setFlag f).emissions = s.emissions := rfl
@[simp] theorem setFlag_readLog (s : State) (f : Flag) : (s.setFlag f).readLog = s.readLog := rfl
@[simp] theorem setFlag_port (s : State) (f : Flag) : (s.setFlag f).port = s.port := rfl
@[simp] theorem setFlag_environ (s : State) (f : Flag) : (s.setFlag f).environ = s.environ := rfl
@[simp] theorem setFlag_seqNo (s : State) (f : Flag) : (s.setFlag f).seqNo = s.seqNo := rfl
@[simp] theorem setFlag_status (s : State) (f : Flag) : (s.setFlag f).status = s.status.set f := rfl
@[simp] theorem setFlag_unit (s : State) (f : Flag) (e : Nat) : (s.setFlag f).unit e = s.unit e := rfl
@[simp] theorem setFlag_lastSentAt (s : State) (f : Flag) (ch : Nat) : (s.setFlag f).lastSentAt ch = s.lastSentAt ch := rfl

/-- A flag that is set reads set; the others read as before (R170). -/
theorem status_get_set (st : Status) (f g : Flag) : (st.set f).get g = (st.get g || decide (f = g)) := by
  cases f <;> cases g <;> simp [Status.set, Status.get]

/-- A flag a STATUS write leaves is one it held whose bit was 0 (R22). -/
theorem status_get_clear (st : Status) (v : Word) (f : Flag) : (st.clear v).get f = (st.get f && !v.getLsbD f.code) := by
  cases f <;> rfl

/-! ### Writing a unit -/

@[simp] theorem setUnit_params (s : State) (e : Nat) (u : EnvUnit) : (s.setUnit e u).params = s.params := rfl
@[simp] theorem setUnit_status (s : State) (e : Nat) (u : EnvUnit) : (s.setUnit e u).status = s.status := rfl
@[simp] theorem setUnit_fs (s : State) (e : Nat) (u : EnvUnit) : (s.setUnit e u).fs = s.fs := rfl
@[simp] theorem setUnit_argF (s : State) (e : Nat) (u : EnvUnit) : (s.setUnit e u).argF = s.argF := rfl
@[simp] theorem setUnit_argQ (s : State) (e : Nat) (u : EnvUnit) : (s.setUnit e u).argQ = s.argQ := rfl
@[simp] theorem setUnit_argX (s : State) (e : Nat) (u : EnvUnit) : (s.setUnit e u).argX = s.argX := rfl
@[simp] theorem setUnit_biqY (s : State) (e : Nat) (u : EnvUnit) : (s.setUnit e u).biqY = s.biqY := rfl
@[simp] theorem setUnit_result (s : State) (e : Nat) (u : EnvUnit) : (s.setUnit e u).result = s.result := rfl
@[simp] theorem setUnit_units (s : State) (e : Nat) (u : EnvUnit) : (s.setUnit e u).units = s.units.set e u := rfl
@[simp] theorem setUnit_lastSent (s : State) (e : Nat) (u : EnvUnit) : (s.setUnit e u).lastSent = s.lastSent := rfl
@[simp] theorem setUnit_emissions (s : State) (e : Nat) (u : EnvUnit) : (s.setUnit e u).emissions = s.emissions := rfl
@[simp] theorem setUnit_readLog (s : State) (e : Nat) (u : EnvUnit) : (s.setUnit e u).readLog = s.readLog := rfl
@[simp] theorem setUnit_port (s : State) (e : Nat) (u : EnvUnit) : (s.setUnit e u).port = s.port := rfl
@[simp] theorem setUnit_environ (s : State) (e : Nat) (u : EnvUnit) : (s.setUnit e u).environ = s.environ := rfl
@[simp] theorem setUnit_seqNo (s : State) (e : Nat) (u : EnvUnit) : (s.setUnit e u).seqNo = s.seqNo := rfl
@[simp] theorem setUnit_lastSentAt (s : State) (e : Nat) (u : EnvUnit) (ch : Nat) :
    (s.setUnit e u).lastSentAt ch = s.lastSentAt ch := rfl
@[simp] theorem setUnit_with_units (s : State) (e : Nat) (u : EnvUnit) :
    { s.setUnit e u with units := s.units } = s := rfl

/-- The unit just written is read back. -/
theorem unit_setUnit_self (s : State) (e : Nat) (u : EnvUnit) (h : e < s.units.length) : (s.setUnit e u).unit e = u := by
  simp [State.unit, h]

/-- Writing a unit leaves every other unit. -/
theorem unit_setUnit_other (s : State) (e e' : Nat) (u : EnvUnit) (h : e' ≠ e) :
    (s.setUnit e u).unit e' = s.unit e' := by
  simp [State.unit, Ne.symm h]

/-- After a write of a unit, also of one the state does not hold, every unit is as before or is the one written. -/
theorem unit_setUnit_cases (s : State) (e e' : Nat) (u : EnvUnit) :
    (s.setUnit e u).unit e' = s.unit e' ∨ (e' = e ∧ (s.setUnit e u).unit e' = u) := by
  by_cases h : e' = e
  · subst h
    rcases Nat.lt_or_ge e' s.units.length with hl | hl
    · exact .inr ⟨rfl, unit_setUnit_self s e' u hl⟩
    · exact .inl (by simp [State.setUnit, List.set_eq_of_length_le hl])
  · exact .inl (unit_setUnit_other s e e' u h)

/-- Writing a unit back as it was changes nothing. -/
theorem setUnit_self (s : State) (e : Nat) (h : e < s.units.length) : s.setUnit e (s.unit e) = s := by
  have : s.units.set e (s.unit e) = s.units := by
    simp [State.unit, h]
  simp only [State.setUnit, this]

/-- Of two writes of one unit the second counts. -/
@[simp] theorem setUnit_setUnit (s : State) (e : Nat) (u v : EnvUnit) : (s.setUnit e u).setUnit e v = s.setUnit e v := by
  simp [State.setUnit]

/-- Writing a unit changes that unit only. -/
theorem onlyUnit_setUnit (s : State) (e : Nat) (u : EnvUnit) : OnlyUnit e s (s.setUnit e u) :=
  ⟨fun e' h => unit_setUnit_other s e e' u h, rfl⟩

/-- A state that differs from another in the units alone, as that other state with its units. -/
theorem eq_with_units {s t : State} (h : { t with units := s.units } = s) : t = { s with units := t.units } := by
  calc t = { { t with units := s.units } with units := t.units } := rfl
    _ = { s with units := t.units } := by rw [h]

/-! ### Emission -/

@[simp] theorem emit_params (s : State) (ch : Nat) (v : Level) : (s.emit ch v).params = s.params := rfl
@[simp] theorem emit_status (s : State) (ch : Nat) (v : Level) : (s.emit ch v).status = s.status := rfl
@[simp] theorem emit_units (s : State) (ch : Nat) (v : Level) : (s.emit ch v).units = s.units := rfl
@[simp] theorem emit_unit (s : State) (ch : Nat) (v : Level) (e : Nat) : (s.emit ch v).unit e = s.unit e := rfl
@[simp] theorem emit_lastSent (s : State) (ch : Nat) (v : Level) :
    (s.emit ch v).lastSent = s.lastSent.set ch (some v) := rfl
@[simp] theorem emit_emissions (s : State) (ch : Nat) (v : Level) :
    (s.emit ch v).emissions = s.emissions ++ [{ ch := ch, val := v }] := rfl

/-- The entry just written is read back. -/
theorem lastSentAt_emit_self (s : State) (ch : Nat) (v : Level) (h : ch < s.lastSent.length) :
    (s.emit ch v).lastSentAt ch = some v := by
  simp [State.lastSentAt, h]

/-- Emitting for one destination leaves every other entry. -/
theorem lastSentAt_emit_other (s : State) (ch ch' : Nat) (v : Level) (h : ch' ≠ ch) :
    (s.emit ch v).lastSentAt ch' = s.lastSentAt ch' := by
  simp [State.lastSentAt, Ne.symm h]

/-! ### Taking an access from the port -/

@[simp] theorem accept_params (s : State) (ev : Event) (r : List Event) : (s.accept ev r).params = s.params := rfl
@[simp] theorem accept_status (s : State) (ev : Event) (r : List Event) : (s.accept ev r).status = s.status := rfl
@[simp] theorem accept_units (s : State) (ev : Event) (r : List Event) : (s.accept ev r).units = s.units := rfl
@[simp] theorem accept_unit (s : State) (ev : Event) (r : List Event) (e : Nat) : (s.accept ev r).unit e = s.unit e := rfl
@[simp] theorem accept_lastSent (s : State) (ev : Event) (r : List Event) : (s.accept ev r).lastSent = s.lastSent := rfl
@[simp] theorem accept_lastSentAt (s : State) (ev : Event) (r : List Event) (ch : Nat) :
    (s.accept ev r).lastSentAt ch = s.lastSentAt ch := rfl
@[simp] theorem accept_emissions (s : State) (ev : Event) (r : List Event) : (s.accept ev r).emissions = s.emissions := rfl
@[simp] theorem accept_port (s : State) (ev : Event) (r : List Event) : (s.accept ev r).port = r := rfl
@[simp] theorem accept_environ (s : State) (ev : Event) (r : List Event) : (s.accept ev r).environ = ev.environ := rfl
@[simp] theorem accept_seqNo (s : State) (ev : Event) (r : List Event) : (s.accept ev r).seqNo = s.seqNo + 1 := rfl
@[simp] theorem accept_regRead (s : State) (ev : Event) (r : List Event) (i : BitVec 9) :
    (s.accept ev r).regRead i = s.regRead i := rfl

end Sys2Proof.Machine
end

