-- ==== Sys2Proof/Laws/Ops.lean ====
section
/-! SUPPORT. What each shared operation does, said once: refusing, naming a unit, storing a result, a design, a process
step and an envelope-tick. -/

namespace Sys2Proof.Machine

/-! ### Refusing and naming a unit -/

@[simp] theorem refuse_eq (f : Flag) (s : State) : refuse f s = .next (s.setFlag f) := rfl

/-- A unit of the configuration is acted on. -/
theorem onUnit_of_lt (e : Nat) (s : State) (act) (h : e < s.params.nEnv) : onUnit e s act = act (s.unit e) := by
  simp [onUnit, State.envOk, h]

/-- A unit the configuration has not is refused with EINVAL (R172, R175). -/
theorem onUnit_of_le (e : Nat) (s : State) (act) (h : s.params.nEnv ≤ e) :
    onUnit e s act = .next (s.setFlag .einval) := by
  simp [onUnit, State.envOk, Nat.not_lt.mpr h]

/-- Naming a unit never stops by itself: it acts on a unit of the configuration or refuses. -/
theorem onUnit_cases (e : Nat) (s : State) (act) :
    (e < s.params.nEnv ∧ onUnit e s act = act (s.unit e)) ∨
      (s.params.nEnv ≤ e ∧ onUnit e s act = .next (s.setFlag .einval)) := by
  rcases Nat.lt_or_ge e s.params.nEnv with h | h
  · exact .inl ⟨h, onUnit_of_lt e s act h⟩
  · exact .inr ⟨h, onUnit_of_le e s act h⟩

@[simp] theorem srcOk_eq (s : State) (k : Nat) : s.srcOk k = decide (k < s.params.nSrc) := rfl
@[simp] theorem chOk_eq (s : State) (ch : Nat) : s.chOk ch = decide (ch < s.params.nCh) := rfl

theorem pairOk_iff (s : State) (a b : Nat) :
    s.pairOk a b = true ↔ a < s.params.nSrc ∧ b < s.params.nSrc ∧ a ≠ b := by
  simp [State.pairOk, and_assoc]

/-! ### Free values -/

/-- Setting the bits of a quiet NaN makes the magnitude a NaN's. -/
theorem mag_or_nan (x : F32) : 0x7FC00000 ≤ F32.mag (x ||| F32.nan) := by
  have e : (x ||| F32.nan).extractLsb' 0 31 = x.extractLsb' 0 31 ||| F32.nan.extractLsb' 0 31 := by
    ext i hi
    simp
  have h : F32.mag (x ||| F32.nan) = (x.extractLsb' 0 31).toNat ||| 0x7FC00000 := by
    unfold F32.mag
    rw [e, BitVec.toNat_or]
    rfl
  rw [h]
  exact Nat.right_le_or

/-- A pattern brought to a NaN is one. -/
theorem isNaN_toNaN (x : F32) : F32.isNaN (toNaN x) = true := by
  unfold toNaN
  split
  · assumption
  · have := mag_or_nan x
    exact decide_eq_true (by omega)

/-- A stored result holds what was computed, or a NaN where that is NaN (R12). -/
theorem holds_settle (s : State) (e : Nat) (r : NanSlot) (v : F32) : Holds v (s.settle e r v) := by
  unfold Holds State.settle
  by_cases h : F32.isNaN v = true
  · simp [h, isNaN_toNaN]
  · simp [h]

/-- A result that is not NaN is stored as it is. -/
theorem settle_of_not_nan (s : State) (e : Nat) (r : NanSlot) (v : F32) (h : F32.isNaN v = false) :
    s.settle e r v = v := by
  simp [State.settle, h]

/-- A NaN result is stored as a NaN. -/
theorem isNaN_settle (s : State) (e : Nat) (r : NanSlot) (v : F32) : F32.isNaN (s.settle e r v) = F32.isNaN v := by
  unfold State.settle
  by_cases h : F32.isNaN v = true
  · simp [h, isNaN_toNaN]
  · simp [h]

theorem holds_settleCoeffs (s : State) (e : Nat) (c : Coeffs F32) : CoeffsHold c (s.settleCoeffs e c) :=
  ⟨holds_settle .., holds_settle .., holds_settle .., holds_settle .., holds_settle ..⟩

/-- A draw is in the closed interval (R13). -/
theorem randDraw_le (s : State) (e l : Nat) : s.randDraw e l ≤ l :=
  Nat.lt_succ_iff.mp (Nat.mod_lt _ (Nat.succ_pos l))

/-- `clamp7` is a level (R10). -/
theorem clamp7_toNat (v : Int) : (clamp7 v).toNat = (min (max v 0) 127).toNat := by
  simp only [clamp7, BitVec.toNat_ofNat]
  omega

/-! ### Designs -/

theorem argsValid_iff (f fs q : F32) : argsValid f fs q = true ↔ ArgsOk f fs q := by
  simp [argsValid, ArgsOk, finitePositive, and_assoc]

/-- What storing a design does (R106, R107, R124). -/
theorem storeDesign_spec (s : State) (e : Nat) (k : Kind) (q : F32) (d : Designed) (h : e < s.units.length) :
    DesignStored e k q d s (s.storeDesign e k q d) := by
  have hu : (s.storeDesign e k q d).unit e =
      { s.unit e with coef := s.settleCoeffs e d.coef, kind := k, efreq := d.fc, eq := q } := by
    unfold State.storeDesign
    split
    · simp only [setFlag_unit, unit_setUnit_self s e _ h]
    · exact unit_setUnit_self s e _ h
  refine ⟨?_, ?_, ⟨fun e' he => ?_, ?_⟩, ?_⟩
  · rw [hu]; exact holds_settleCoeffs s e d.coef
  · rw [hu]
  · unfold State.storeDesign
    split
    · exact unit_setUnit_other s e e' _ he
    · exact unit_setUnit_other s e e' _ he
  · unfold State.storeDesign
    split <;> rfl
  · unfold State.storeDesign
    cases hd : d.clamped <;> simp [Status.set]

/-- A staged design with valid arguments is stored. -/
theorem designStaged_ok (e : Nat) (k : Kind) (s : State) (h : ArgsOk s.argF s.fs s.argQ) :
    designStaged e k s = .next (s.storeDesign e k s.argQ (design s.params k s.argF s.fs s.argQ)) := by
  simp [designStaged, (argsValid_iff ..).mpr h]

/-- A staged design with invalid arguments is refused with EARG (R173). -/
theorem designStaged_bad (e : Nat) (k : Kind) (s : State) (h : ¬ ArgsOk s.argF s.fs s.argQ) :
    designStaged e k s = .next (s.setFlag .earg) := by
  have : argsValid s.argF s.fs s.argQ = false := by
    rw [Bool.eq_false_iff]; exact fun hv => h ((argsValid_iff ..).mp hv)
  simp [designStaged, this]

/-- All a stored design can have changed: its unit, and FCLAMP. -/
theorem storeDesign_cases (s : State) (e : Nat) (k : Kind) (q : F32) (d : Designed) :
    ∃ u : EnvUnit, u = { s.unit e with coef := s.settleCoeffs e d.coef, kind := k, efreq := d.fc, eq := q } ∧
      (s.storeDesign e k q d = s.setUnit e u ∨ s.storeDesign e k q d = (s.setUnit e u).setFlag .fclamp) := by
  refine ⟨_, rfl, ?_⟩
  unfold State.storeDesign
  cases d.clamped <;> simp

/-! ### Process steps and envelope-ticks -/

/-- The internal signal in the block's own operations (R104). -/
theorem dfSignal_binary32 (c : Coeffs F32) (w : Taps F32) (x : F32) :
    dfSignal binary32 c w x = F32.sub (F32.sub x (F32.mul c.a1 w.w1)) (F32.mul c.a2 w.w2) := by
  simp only [dfSignal, binary32]

/-- The output in the block's own operations (R104). -/
theorem dfOutput_binary32 (c : Coeffs F32) (w : Taps F32) (sig : F32) :
    dfOutput binary32 c w sig =
      F32.add (F32.add (F32.mul c.b0 sig) (F32.mul c.b1 w.w1)) (F32.mul c.b2 w.w2) := by
  simp only [dfOutput, binary32]

/-- What a process step does (R104): the output, and the taps of its unit moved on. -/
theorem process_spec (s : State) (e : Nat) (x : F32) :
    (s.process e x).1 = dfOutput binary32 (s.unit e).coef (s.unit e).taps
        (dfSignal binary32 (s.unit e).coef (s.unit e).taps x) ∧
    (s.process e x).2 = s.setUnit e { s.unit e with taps :=
      { w1 := s.settle e .w1 (dfSignal binary32 (s.unit e).coef (s.unit e).taps x), w2 := (s.unit e).taps.w1 } } :=
  ⟨rfl, rfl⟩

/-- An envelope-tick is one write of its unit, of nothing but the level and the taps (R128). -/
theorem tickUnit_cases (s : State) (e : Nat) (h : e < s.units.length) :
    ∃ (l : Level) (w : Taps F32), s.tickUnit e = s.setUnit e { s.unit e with level := l, taps := w } := by
  have same : ∀ l : Level, s.setLevel e l = s.setUnit e { s.unit e with level := l, taps := (s.unit e).taps } :=
    fun _ => rfl
  have idle : s = s.setUnit e { s.unit e with level := (s.unit e).level, taps := (s.unit e).taps } :=
    (setUnit_self s e h).symm
  have filtered : ∀ x : F32, ∃ (l : Level) (w : Taps F32),
      (s.process e x).2.setLevel e (toLevel (s.process e x).1) = s.setUnit e { s.unit e with level := l, taps := w } := by
    intro x
    refine ⟨toLevel (s.process e x).1, ((s.process e x).2.unit e).taps, ?_⟩
    simp only [State.setLevel, (process_spec s e x).2, setUnit_setUnit, unit_setUnit_self s e _ h]
  unfold State.tickUnit
  simp only
  split
  · exact ⟨_, _, idle⟩
  · split
    · unfold State.sefTransfer
      split
      · exact ⟨_, _, same _⟩
      · exact ⟨_, _, same _⟩
      · exact ⟨_, _, same _⟩
      · exact ⟨_, _, same _⟩
      all_goals exact filtered _
    · exact ⟨_, _, same _⟩

/-- An envelope-tick of a unit the state does not hold changes nothing. -/
theorem tickUnit_absent (s : State) (e : Nat) (h : s.units.length ≤ e) : s.tickUnit e = s := by
  have hset : ∀ u, s.setUnit e u = s := by
    intro u
    simp [State.setUnit, List.set_eq_of_length_le h]
  unfold State.tickUnit
  simp only
  split
  · rfl
  · split
    · unfold State.sefTransfer
      split <;> simp [State.setLevel, State.process, hset]
    · simp [State.setLevel, hset]

/-- An envelope-tick leaves everything but its unit (R21, R128). -/
theorem tickUnit_frame (s : State) (e : Nat) : OnlyUnit e s (s.tickUnit e) := by
  rcases Nat.lt_or_ge e s.units.length with h | h
  · obtain ⟨l, w, hw⟩ := tickUnit_cases s e h
    rw [hw]
    exact onlyUnit_setUnit s e _
  · rw [tickUnit_absent s e h]
    exact ⟨fun _ _ => rfl, rfl⟩

/-- An envelope-tick keeps the number of units. -/
@[simp] theorem tickUnit_length (s : State) (e : Nat) : (s.tickUnit e).units.length = s.units.length := by
  rcases Nat.lt_or_ge e s.units.length with h | h
  · obtain ⟨l, w, hw⟩ := tickUnit_cases s e h
    simp [hw]
  · rw [tickUnit_absent s e h]

/-- What an envelope-tick leaves in its unit depends on that unit and on what is outside the units alone (R21). -/
theorem tickUnit_local (s : State) (e : Nat) (us : List EnvUnit) (hl : us.length = s.units.length)
    (hu : us[e]? = s.units[e]?) :
    (State.tickUnit { s with units := us } e).unit e = (s.tickUnit e).unit e := by
  have hunit : State.unit { s with units := us } e = s.unit e := by simp [State.unit, hu]
  rcases Nat.lt_or_ge e s.units.length with h | h
  · have h' : e < us.length := hl ▸ h
    have hself := fun u => unit_setUnit_self s e u h
    have hself' := fun u => unit_setUnit_self { s with units := us } e u h'
    unfold State.tickUnit
    simp only [hunit]
    split
    · exact hunit
    · split
      · unfold State.sefTransfer
        simp only [hunit]
        split <;>
          simp only [State.setLevel, State.process, hunit, hself, hself', setUnit_setUnit] <;> rfl
      · simp only [State.setLevel, hunit, hself, hself']
        rfl
  · rw [tickUnit_absent s e h, tickUnit_absent _ e (by simpa [hl] using h)]
    exact hunit

/-- After the ticks of UPDATE_ALL (R145): nothing changed outside the units, their number is the same, and each unit is as
its own tick alone leaves it. -/
theorem foldl_tick (s : State) (n : Nat) :
    { (List.range n).foldl State.tickUnit s with units := s.units } = s ∧
    ((List.range n).foldl State.tickUnit s).units.length = s.units.length ∧
    (∀ e, e < n → ((List.range n).foldl State.tickUnit s).unit e = (s.tickUnit e).unit e) ∧
    (∀ e, n ≤ e → ((List.range n).foldl State.tickUnit s).unit e = s.unit e) := by
  induction n with
  | zero => exact ⟨rfl, rfl, fun e h => absurd h (Nat.not_lt_zero e), fun _ _ => rfl⟩
  | succ n ih =>
    obtain ⟨hf, hl, hd, hn⟩ := ih
    rw [List.range_succ, List.foldl_append, List.foldl_cons, List.foldl_nil]
    generalize ht : (List.range n).foldl State.tickUnit s = t at hf hl hd hn
    obtain ⟨fo, ff⟩ := tickUnit_frame t n
    have hstep : { t.tickUnit n with units := s.units } = s := by
      calc { t.tickUnit n with units := s.units } = { { t.tickUnit n with units := t.units } with units := s.units } := rfl
        _ = { t with units := s.units } := by rw [ff]
        _ = s := hf
    have hts : t = { s with units := t.units } := by
      calc t = { { t with units := s.units } with units := t.units } := rfl
        _ = { s with units := t.units } := by rw [hf]
    have hat : t.units[n]? = s.units[n]? := by
      have := hn n (Nat.le_refl n)
      rcases Nat.lt_or_ge n s.units.length with h | h
      · have h' : n < t.units.length := hl ▸ h
        simpa [State.unit, h, h'] using this
      · rw [List.getElem?_eq_none h, List.getElem?_eq_none (by rw [hl]; exact h)]
    refine ⟨hstep, by rw [tickUnit_length, hl], fun e he => ?_, fun e he => ?_⟩
    · rcases Nat.lt_or_ge e n with h | h
      · rw [fo e (Nat.ne_of_lt h)]
        exact hd e h
      · obtain rfl : e = n := Nat.le_antisymm (Nat.lt_succ_iff.mp he) h
        rw [hts]
        exact tickUnit_local s e t.units hl hat
    · rw [fo e (Nat.ne_of_gt he)]
      exact hn e (Nat.le_of_succ_le he)

end Sys2Proof.Machine
end

