-- ==== Sys2Proof/Laws/Envelope.lean ====
section
/-! SUPPORT. The envelope-tick as equations, one per path (spec 41_envelope.md R128-R135), and its integer formulas as
natural numbers. -/

namespace Sys2Proof.Machine

/-- The mapped reading fits a level (R120). -/
theorem analog_le (raw : Reading) : raw.toNat * 127 / 1023 ≤ 127 := by
  have := raw.isLt
  omega

theorem analogMap_toNat (raw : Reading) : (analogMap raw).toNat = raw.toNat * 127 / 1023 := by
  have := analog_le raw
  simp only [analogMap, BitVec.toNat_ofNat]
  omega

theorem oppositeLinear_toNat (l : Level) : (oppositeLinear l).toNat = 127 - l.toNat := by
  simp only [oppositeLinear, BitVec.toNat_ofNat]
  omega

theorem exponential_toNat (l : Level) : (exponential l).toNat = l.toNat * l.toNat / 127 := by
  have h : l.toNat ≤ 127 := Nat.lt_succ_iff.mp l.isLt
  have : l.toNat * l.toNat ≤ 127 * 127 := Nat.mul_le_mul h h
  simp only [exponential, BitVec.toNat_ofNat]
  omega

/-- The value APPLY gives a channel, as a number (R160). -/
theorem applyValue_toNat (v : Nat) (l : Level) : (applyValue v l).toNat = min (v + l.toNat) 127 := by
  unfold applyValue
  rw [clamp7_toNat]
  omega

/-- Writing a level leaves the rest of its unit. -/
theorem setLevel_unit (s : State) (e : Nat) (l : Level) (h : e < s.units.length) :
    (s.setLevel e l).unit e = { s.unit e with level := l } := unit_setUnit_self s e _ h

variable {s : State} {e : Nat}

theorem tick_inactive (ha : (s.unit e).active = false) : s.tickUnit e = s := by
  simp [State.tickUnit, ha]

theorem tick_arg (ha : (s.unit e).active = true) (hm : (s.unit e).mode = .arg) :
    s.tickUnit e = s.setLevel e (combine (s.unit e).method (analogMap (s.analogIn (s.unit e).pairA.toNat))
      (analogMap (s.analogIn (s.unit e).pairB.toNat))) := by
  simp [State.tickUnit, ha, hm]

/-- The mapped reading of the unit's source. -/
theorem tick_sef (ha : (s.unit e).active = true) (hm : (s.unit e).mode = .sef) :
    s.tickUnit e = s.sefTransfer e (analogMap (s.analogIn (s.unit e).src.toNat)) := by
  simp [State.tickUnit, ha, hm]

theorem sef_linear (l : Level) (hc : (s.unit e).curve = .linear) : s.sefTransfer e l = s.setLevel e l := by
  simp [State.sefTransfer, hc]

theorem sef_oppositeLinear (l : Level) (hc : (s.unit e).curve = .oppositeLinear) :
    s.sefTransfer e l = s.setLevel e (oppositeLinear l) := by
  simp [State.sefTransfer, hc]

theorem sef_exponential (l : Level) (hc : (s.unit e).curve = .exponential) :
    s.sefTransfer e l = s.setLevel e (exponential l) := by
  simp [State.sefTransfer, hc]

theorem sef_random (l : Level) (hc : (s.unit e).curve = .random) :
    s.sefTransfer e l = s.setLevel e (BitVec.ofNat 7 (s.randDraw e l.toNat)) := by
  simp [State.sefTransfer, hc]

/-- The three biquad curves act alike (R129). -/
theorem sef_biquad (l : Level) (hc : (s.unit e).curve = .lowpass ∨ (s.unit e).curve = .highpass ∨
    (s.unit e).curve = .bandpass) :
    s.sefTransfer e l = (s.process e (F32.ofLevel l)).2.setLevel e (toLevel (s.process e (F32.ofLevel l)).1) := by
  rcases hc with hc | hc | hc <;> simp [State.sefTransfer, hc]

end Sys2Proof.Machine
end

