-- ==== Sys2Proof/Laws/Exec.lean ====
section
/-! SUPPORT. What performing a command can do, said once (`Performed`), and what a step can do (`Stepped`): the lemmas
every whole-machine claim is derived from. -/

namespace Sys2Proof.Machine

/-- What a command on unit `e` that is not refused may put there in place of the unit it finds. -/
def UnitStep (i : Instr) (s : State) (e : Nat) (u : EnvUnit) : Prop :=
  match i with
  | .setActive _ b => u = { s.unit e with active := b }
  | .setMode _ m => u = { s.unit e with mode := m }
  | .setCurve _ c => (∃ c', c = some c' ∧ u = { s.unit e with curve := c' }) ∨
      ∃ c' k d q, c = some c' ∧ u = { s.unit e with curve := c', coef := d, kind := k, efreq := q, eq := Config.qDefault }
  | .setMethod _ m => ∃ m', m = some m' ∧ u = { s.unit e with method := m' }
  | .setSrc _ k => k < s.params.nSrc ∧ u = { s.unit e with src := BitVec.ofNat 8 k }
  | .setPair _ a b => a < s.params.nSrc ∧ b < s.params.nSrc ∧ a ≠ b ∧
      u = { s.unit e with pairA := BitVec.ofNat 8 a, pairB := BitVec.ofNat 8 b }
  | .cfgBiq _ k => ∃ k' d q, k = some k' ∧ u = { s.unit e with coef := d, kind := k', efreq := q, eq := s.argQ }
  | .cfgFilt _ => ∃ d q, u = { s.unit e with coef := d, efreq := q, eq := s.argQ }
  | .update _ => ∃ l w, u = { s.unit e with level := l, taps := w }
  | _ => False

/-- An envelope-tick as a write of its unit, also where the state does not hold it. -/
theorem tickUnit_write (s : State) (e : Nat) :
    ∃ (l : Level) (w : Taps F32), s.tickUnit e = s.setUnit e { s.unit e with level := l, taps := w } := by
  rcases Nat.lt_or_ge e s.units.length with h | h
  · exact tickUnit_cases s e h
  · refine ⟨0#7, (s.unit e).taps, ?_⟩
    rw [tickUnit_absent s e h]
    simp [State.setUnit, List.set_eq_of_length_le h]

/-- The state an APPLY that is not refused leaves (R160). -/
def applied (s : State) (e ch v : Nat) : State :=
  let nv := applyValue v (s.unit e).level
  let changed := decide (s.lastSentAt ch ≠ some nv)
  { (if changed then s.emit ch nv else s) with
    result := { value := nv, changed := changed, ch := BitVec.ofNat 8 ch } }

/-- An APPLY of a value the cache does not hold emits it. -/
theorem applied_changed (s : State) (e ch v : Nat) (h : s.lastSentAt ch ≠ some (applyValue v (s.unit e).level)) :
    applied s e ch v = { s.emit ch (applyValue v (s.unit e).level) with
      result := { value := applyValue v (s.unit e).level, changed := true, ch := BitVec.ofNat 8 ch } } := by
  simp only [applied, decide_eq_true h, if_true]

/-- An APPLY of the value the cache holds writes RESULT only. -/
theorem applied_same (s : State) (e ch v : Nat) (h : s.lastSentAt ch = some (applyValue v (s.unit e).level)) :
    applied s e ch v = { s with
      result := { value := applyValue v (s.unit e).level, changed := false, ch := BitVec.ofNat 8 ch } } := by
  have : decide (s.lastSentAt ch ≠ some (applyValue v (s.unit e).level)) = false := decide_eq_false (not_not.mpr h)
  simp only [applied, this]
  rfl

/-- What an APPLY leaves alone: everything but RESULT, the cache and the trace. -/
theorem applied_frame (s : State) (e ch v : Nat) :
    { applied s e ch v with result := s.result, lastSent := s.lastSent, emissions := s.emissions } = s := by
  by_cases h : s.lastSentAt ch = some (applyValue v (s.unit e).level)
  · rw [applied_same s e ch v h]
  · rw [applied_changed s e ch v h]
    rfl

@[simp] theorem applied_params (s : State) (e ch v : Nat) : (applied s e ch v).params = s.params :=
  (congrArg State.params (applied_frame s e ch v) :)

@[simp] theorem applied_status (s : State) (e ch v : Nat) : (applied s e ch v).status = s.status :=
  (congrArg State.status (applied_frame s e ch v) :)

@[simp] theorem applied_units (s : State) (e ch v : Nat) : (applied s e ch v).units = s.units :=
  (congrArg State.units (applied_frame s e ch v) :)

@[simp] theorem applied_unit (s : State) (e ch v e' : Nat) : (applied s e ch v).unit e' = s.unit e' := by
  simp only [State.unit, applied_units, applied_params]

/-- An APPLY leaves the value it gives in the cache (R160). -/
theorem applied_cached (s : State) (e ch v : Nat) (hc : ch < s.lastSent.length) :
    (applied s e ch v).lastSentAt ch = some (applyValue v (s.unit e).level) := by
  by_cases h : s.lastSentAt ch = some (applyValue v (s.unit e).level)
  · rw [applied_same s e ch v h]
    exact h
  · rw [applied_changed s e ch v h]
    exact lastSentAt_emit_self s ch _ hc

/-- The states performing a command `i` in `s` can end in: a refusal's, NOP's, UPDATE_ALL's, the state with one unit
written (FCLAMP set where a design clamped), BIQ_PROC's, or APPLY's. -/
inductive Performed (i : Instr) (s : State) : State → Prop where
  | einval (hn : i ≠ .nop) (ha : i ≠ .updateAll) : Performed i s (s.setFlag .einval)
  | earg (hn : i ≠ .nop) (ha : i ≠ .updateAll) : Performed i s (s.setFlag .earg)
  | nop (hi : i = .nop) : Performed i s s
  | all (hi : i = .updateAll) : Performed i s ((List.range s.params.nEnv).foldl State.tickUnit s)
  | unit (e : Nat) (u : EnvUnit) (hi : unitOf i = some e) (he : e < s.params.nEnv) (hu : UnitStep i s e u) :
      Performed i s (s.setUnit e u)
  | clamped (e : Nat) (u : EnvUnit) (hi : unitOf i = some e) (he : e < s.params.nEnv) (hu : UnitStep i s e u) :
      Performed i s ((s.setUnit e u).setFlag .fclamp)
  | processed (e : Nat) (hi : i = .biqProc e) (he : e < s.params.nEnv) :
      Performed i s { (s.process e s.argX).2 with biqY := s.settle e .biqY (s.process e s.argX).1 }
  | output (e ch v : Nat) (hi : i = .applyOut e ch v) (he : e < s.params.nEnv) (hc : ch < s.params.nCh) :
      Performed i s (applied s e ch v)

/-- A command on a unit the configuration has not is refused with EINVAL (R172). -/
theorem exec_absent (i : Instr) (s : State) (e : Nat) (hi : unitOf i = some e) (h : s.params.nEnv ≤ e) :
    exec i s = .next (s.setFlag .einval) := by
  cases i with
  | nop => cases hi
  | updateAll => cases hi
  | _ =>
    obtain rfl := Option.some.inj hi
    simp only [exec, execSetActive, execSetMode, execSetCurve, execSetMethod, execSetSrc, execSetPair, execCfgBiq,
      execCfgFilt, execBiqProc, execUpdate, execApplyOut]
    exact onUnit_of_le _ _ _ h

/-! ### The commands on a unit of the configuration -/

variable {s : State} {e : Nat} (h : e < s.params.nEnv)
include h

theorem exec_setActive (b : Bool) : exec (.setActive e b) s = .next (s.setUnit e { s.unit e with active := b }) := by
  simp only [exec, execSetActive, onUnit_of_lt _ _ _ h]

theorem exec_setMode (m : Mode) : exec (.setMode e m) s = .next (s.setUnit e { s.unit e with mode := m }) := by
  simp only [exec, execSetMode, onUnit_of_lt _ _ _ h]

theorem exec_setMethod (m : Method) :
    exec (.setMethod e (some m)) s = .next (s.setUnit e { s.unit e with method := m }) := by
  simp only [exec, execSetMethod, onUnit_of_lt _ _ _ h]

theorem exec_setMethod_reserved : exec (.setMethod e none) s = .next (s.setFlag .einval) := by
  simp only [exec, execSetMethod, onUnit_of_lt _ _ _ h, refuse_eq]

theorem exec_setSrc (k : Nat) (hk : k < s.params.nSrc) :
    exec (.setSrc e k) s = .next (s.setUnit e { s.unit e with src := BitVec.ofNat 8 k }) := by
  simp [exec, execSetSrc, onUnit_of_lt _ _ _ h, hk]

theorem exec_setSrc_bad (k : Nat) (hk : s.params.nSrc ≤ k) : exec (.setSrc e k) s = .next (s.setFlag .einval) := by
  simp [exec, execSetSrc, onUnit_of_lt _ _ _ h, Nat.not_lt.mpr hk]

theorem exec_setPair (a b : Nat) (hp : a < s.params.nSrc ∧ b < s.params.nSrc ∧ a ≠ b) :
    exec (.setPair e a b) s =
      .next (s.setUnit e { s.unit e with pairA := BitVec.ofNat 8 a, pairB := BitVec.ofNat 8 b }) := by
  simp [exec, execSetPair, onUnit_of_lt _ _ _ h, (pairOk_iff s a b).mpr hp]

theorem exec_setPair_bad (a b : Nat) (hp : ¬ (a < s.params.nSrc ∧ b < s.params.nSrc ∧ a ≠ b)) :
    exec (.setPair e a b) s = .next (s.setFlag .einval) := by
  have : s.pairOk a b = false := by
    rw [Bool.eq_false_iff]
    exact fun hc => hp ((pairOk_iff s a b).mp hc)
  simp [exec, execSetPair, onUnit_of_lt _ _ _ h, this]

theorem exec_setCurve_reserved : exec (.setCurve e none) s = .next (s.setFlag .einval) := by
  simp only [exec, execSetCurve, onUnit_of_lt _ _ _ h, refuse_eq]

theorem exec_setCurve_static (c : Curve) (hk : curveKind c = none) :
    exec (.setCurve e (some c)) s = .next (s.setUnit e { s.unit e with curve := c }) := by
  simp only [exec, execSetCurve, onUnit_of_lt _ _ _ h, hk, State.setCurve]

theorem exec_setCurve_biquad (c : Curve) (k : Kind) (hk : curveKind c = some k)
    (hv : ArgsOk Config.fDefault s.fs Config.qDefault) :
    exec (.setCurve e (some c)) s = .next ((s.storeDesign e k Config.qDefault
      (design s.params k Config.fDefault s.fs Config.qDefault)).setCurve e c) := by
  simp only [exec, execSetCurve, onUnit_of_lt _ _ _ h, hk, (argsValid_iff ..).mpr hv, if_true]

theorem exec_setCurve_bad (c : Curve) (k : Kind) (hk : curveKind c = some k)
    (hv : ¬ ArgsOk Config.fDefault s.fs Config.qDefault) :
    exec (.setCurve e (some c)) s = .next (s.setFlag .earg) := by
  simp [exec, execSetCurve, onUnit_of_lt _ _ _ h, hk, argsValid_iff, hv]

theorem exec_cfgBiq_reserved : exec (.cfgBiq e none) s = .next (s.setFlag .einval) := by
  simp only [exec, execCfgBiq, onUnit_of_lt _ _ _ h, refuse_eq]

theorem exec_cfgBiq (k : Kind) : exec (.cfgBiq e (some k)) s = designStaged e k s := by
  simp only [exec, execCfgBiq, onUnit_of_lt _ _ _ h]

theorem exec_cfgFilt : exec (.cfgFilt e) s = designStaged e (s.unit e).kind s := by
  simp only [exec, execCfgFilt, onUnit_of_lt _ _ _ h]

theorem exec_biqProc : exec (.biqProc e) s =
    .next { (s.process e s.argX).2 with biqY := s.settle e .biqY (s.process e s.argX).1 } := by
  simp only [exec, execBiqProc, onUnit_of_lt _ _ _ h]

theorem exec_update : exec (.update e) s = .next (s.tickUnit e) := by
  simp only [exec, execUpdate, onUnit_of_lt _ _ _ h]

theorem exec_applyOut (ch v : Nat) (hc : ch < s.params.nCh) :
    exec (.applyOut e ch v) s = .next (applied s e ch v) := by
  simp [exec, execApplyOut, onUnit_of_lt _ _ _ h, hc, applied]

theorem exec_applyOut_bad (ch v : Nat) (hc : s.params.nCh ≤ ch) :
    exec (.applyOut e ch v) s = .next (s.setFlag .einval) := by
  simp [exec, execApplyOut, onUnit_of_lt _ _ _ h, Nat.not_lt.mpr hc]

omit h

/-! ### Everything performing a command can do -/

/-- A design stored and the curve then set is one write of the unit, FCLAMP as the design says. -/
theorem storeDesign_setCurve (s : State) (e : Nat) (k : Kind) (q : F32) (d : Designed) (c : Curve) :
    ∃ u : EnvUnit, u = { s.unit e with
        curve := c, coef := s.settleCoeffs e d.coef, kind := k, efreq := d.fc, eq := q } ∧
      ((s.storeDesign e k q d).setCurve e c = s.setUnit e u ∨
        (s.storeDesign e k q d).setCurve e c = (s.setUnit e u).setFlag .fclamp) := by
  refine ⟨_, rfl, ?_⟩
  obtain ⟨u, hu, hc⟩ := storeDesign_cases s e k q d
  rcases Nat.lt_or_ge e s.units.length with hl | hl
  · have hself := unit_setUnit_self s e u hl
    rcases hc with hc | hc
    · left
      rw [hc, State.setCurve, hself, setUnit_setUnit, hu]
    · right
      rw [hc, State.setCurve, setFlag_unit, hself, hu]
      exact congrArg (State.setFlag · .fclamp) (setUnit_setUnit s e _ _)
  · have hset : ∀ v, s.setUnit e v = s := fun v => by simp [State.setUnit, List.set_eq_of_length_le hl]
    rcases hc with hc | hc
    · left
      rw [hc, hset, hset, State.setCurve, hset]
    · right
      rw [hc, hset, hset]
      exact congrArg (State.setFlag · .fclamp) (hset _)

/-- Every command ends in a next state, one of `Performed` (R176, R200). -/
theorem exec_performed (i : Instr) (s : State) : ∃ t, exec i s = .next t ∧ Performed i s t := by
  rcases hi : unitOf i with _ | e
  · cases i with
    | nop => exact ⟨_, rfl, .nop rfl⟩
    | updateAll => exact ⟨_, rfl, .all rfl⟩
    | _ => cases hi
  rcases Nat.lt_or_ge e s.params.nEnv with h | h
  case inr => exact ⟨_, exec_absent i s e hi h, .einval (by rintro rfl; cases hi) (by rintro rfl; cases hi)⟩
  cases i with
  | nop => cases hi
  | updateAll => cases hi
  | setActive e b =>
    obtain rfl := Option.some.inj hi
    exact ⟨_, exec_setActive h b, .unit e _ rfl h rfl⟩
  | setMode e m =>
    obtain rfl := Option.some.inj hi
    exact ⟨_, exec_setMode h m, .unit e _ rfl h rfl⟩
  | setMethod e m =>
    obtain rfl := Option.some.inj hi
    cases m with
    | none => exact ⟨_, exec_setMethod_reserved h, .einval (by simp) (by simp)⟩
    | some m => exact ⟨_, exec_setMethod h m, .unit e _ rfl h ⟨m, rfl, rfl⟩⟩
  | setSrc e k =>
    obtain rfl := Option.some.inj hi
    rcases Nat.lt_or_ge k s.params.nSrc with hk | hk
    · exact ⟨_, exec_setSrc h k hk, .unit e _ rfl h ⟨hk, rfl⟩⟩
    · exact ⟨_, exec_setSrc_bad h k hk, .einval (by simp) (by simp)⟩
  | setPair e a b =>
    obtain rfl := Option.some.inj hi
    by_cases hp : a < s.params.nSrc ∧ b < s.params.nSrc ∧ a ≠ b
    · exact ⟨_, exec_setPair h a b hp, .unit e _ rfl h ⟨hp.1, hp.2.1, hp.2.2, rfl⟩⟩
    · exact ⟨_, exec_setPair_bad h a b hp, .einval (by simp) (by simp)⟩
  | setCurve e c =>
    obtain rfl := Option.some.inj hi
    cases c with
    | none => exact ⟨_, exec_setCurve_reserved h, .einval (by simp) (by simp)⟩
    | some c =>
      cases hk : curveKind c with
      | none => exact ⟨_, exec_setCurve_static h c hk, .unit e _ rfl h (.inl ⟨c, rfl, rfl⟩)⟩
      | some k =>
        by_cases hv : ArgsOk Config.fDefault s.fs Config.qDefault
        · obtain ⟨u, hu, hc⟩ := storeDesign_setCurve s e k Config.qDefault
            (design s.params k Config.fDefault s.fs Config.qDefault) c
          have hstep : UnitStep (.setCurve e (some c)) s e u := .inr ⟨c, k, _, _, rfl, hu⟩
          refine ⟨_, exec_setCurve_biquad h c k hk hv, ?_⟩
          rcases hc with hc | hc
          · rw [hc]; exact .unit e u rfl h hstep
          · rw [hc]; exact .clamped e u rfl h hstep
        · exact ⟨_, exec_setCurve_bad h c k hk hv, .earg (by simp) (by simp)⟩
  | cfgBiq e k =>
    obtain rfl := Option.some.inj hi
    cases k with
    | none => exact ⟨_, exec_cfgBiq_reserved h, .einval (by simp) (by simp)⟩
    | some k =>
      by_cases hv : ArgsOk s.argF s.fs s.argQ
      · obtain ⟨u, hu, hc⟩ := storeDesign_cases s e k s.argQ (design s.params k s.argF s.fs s.argQ)
        have hstep : UnitStep (.cfgBiq e (some k)) s e u := ⟨k, _, _, rfl, hu⟩
        refine ⟨_, (exec_cfgBiq h k).trans (designStaged_ok e k s hv), ?_⟩
        rcases hc with hc | hc
        · rw [hc]; exact .unit e u rfl h hstep
        · rw [hc]; exact .clamped e u rfl h hstep
      · exact ⟨_, (exec_cfgBiq h k).trans (designStaged_bad e k s hv), .earg (by simp) (by simp)⟩
  | cfgFilt e =>
    obtain rfl := Option.some.inj hi
    by_cases hv : ArgsOk s.argF s.fs s.argQ
    · obtain ⟨u, hu, hc⟩ := storeDesign_cases s e (s.unit e).kind s.argQ
        (design s.params (s.unit e).kind s.argF s.fs s.argQ)
      have hstep : UnitStep (.cfgFilt e) s e u := ⟨_, _, hu⟩
      refine ⟨_, (exec_cfgFilt h).trans (designStaged_ok e _ s hv), ?_⟩
      rcases hc with hc | hc
      · rw [hc]; exact .unit e u rfl h hstep
      · rw [hc]; exact .clamped e u rfl h hstep
    · exact ⟨_, (exec_cfgFilt h).trans (designStaged_bad e _ s hv), .earg (by simp) (by simp)⟩
  | biqProc e =>
    obtain rfl := Option.some.inj hi
    exact ⟨_, exec_biqProc h, .processed e rfl h⟩
  | update e =>
    obtain rfl := Option.some.inj hi
    obtain ⟨l, w, hw⟩ := tickUnit_write s e
    refine ⟨_, exec_update h, ?_⟩
    rw [hw]
    exact .unit e _ rfl h ⟨l, w, rfl⟩
  | applyOut e ch v =>
    obtain rfl := Option.some.inj hi
    rcases Nat.lt_or_ge ch s.params.nCh with hc | hc
    · exact ⟨_, exec_applyOut h ch v hc, .output e ch v rfl h hc⟩
    · exact ⟨_, exec_applyOut_bad h ch v hc, .einval (by simp) (by simp)⟩

/-- The inversion of `exec`. -/
theorem performed_of_exec (i : Instr) (s t : State) (h : exec i s = .next t) : Performed i s t := by
  obtain ⟨t', ht, hp⟩ := exec_performed i s
  rw [h] at ht
  cases ht
  exact hp

/-! ### Steps -/

/-- The register at each of the writable addresses, and only there (R52, R53). -/
theorem reg_at_writable (p : Params) (i : BitVec 9) :
    (Reg.at p i = .cmd ↔ i = 0#9) ∧ (Reg.at p i = .status ↔ i = 1#9) ∧ (Reg.at p i = .fs ↔ i = 2#9) ∧
    (Reg.at p i = .argF ↔ i = 3#9) ∧ (Reg.at p i = .argQ ↔ i = 4#9) ∧ (Reg.at p i = .argX ↔ i = 5#9) := by
  have split_low : i.toNat < 6 ∨ 6 ≤ i.toNat := Nat.lt_or_ge _ _
  have eq_of : ∀ n : Nat, n < 512 → (i = BitVec.ofNat 9 n ↔ i.toNat = n) := fun n hn => by
    rw [← BitVec.toNat_inj, BitVec.toNat_ofNat]
    omega
  have e0 := eq_of 0 (by decide)
  have e1 := eq_of 1 (by decide)
  have e2 := eq_of 2 (by decide)
  have e3 := eq_of 3 (by decide)
  have e4 := eq_of 4 (by decide)
  have e5 := eq_of 5 (by decide)
  rw [e0, e1, e2, e3, e4, e5]
  generalize hn : i.toNat = n at split_low
  rcases split_low with h | h
  · have : n = 0 ∨ n = 1 ∨ n = 2 ∨ n = 3 ∨ n = 4 ∨ n = 5 := by omega
    rcases this with rfl | rfl | rfl | rfl | rfl | rfl <;> simp [Reg.at, hn]
  · have hne : n ≠ 0 ∧ n ≠ 1 ∧ n ≠ 2 ∧ n ≠ 3 ∧ n ≠ 4 ∧ n ≠ 5 := by omega
    unfold Reg.at
    simp only [hn]
    split
    · split <;> simp_all
    · split
      · split
        · split <;> simp [hne]
        · simp [hne]
      · split
        · simp [hne]
        · split <;> simp [hne]

/-- What a step can do: nothing, where no access is pending; else the next access, taken from the port, is a read, a reset,
a CMD write of a command or of a reserved word, a STATUS write, a staging write, or a write that is ignored. -/
inductive Stepped (s : State) : State → Prop where
  | idle (hp : s.port = []) : Stepped s s
  | read (i : BitVec 9) (env : Environ) (rest : List Event)
      (hp : s.port = { access := .read i, environ := env } :: rest) :
      Stepped s { s.accept { access := .read i, environ := env } rest with readLog := s.readLog ++ [s.regRead i] }
  | reset (env : Environ) (rest : List Event) (hp : s.port = { access := .reset, environ := env } :: rest) :
      Stepped s (s.accept { access := .reset, environ := env } rest).resetBlock
  | command (w : Word) (env : Environ) (rest : List Event) (i : Instr) (t : State)
      (hp : s.port = { access := .write 0#9 w, environ := env } :: rest) (hd : decodeWord w = .ok i)
      (hx : exec i (s.accept { access := .write 0#9 w, environ := env } rest) = .next t) : Stepped s t
  | reserved (w : Word) (env : Environ) (rest : List Event) (x : DecodeError)
      (hp : s.port = { access := .write 0#9 w, environ := env } :: rest) (hd : decodeWord w = .error x) :
      Stepped s ((s.accept { access := .write 0#9 w, environ := env } rest).setFlag .ecmd)
  | clear (v : Word) (env : Environ) (rest : List Event)
      (hp : s.port = { access := .write 1#9 v, environ := env } :: rest) :
      Stepped s { s.accept { access := .write 1#9 v, environ := env } rest with status := s.status.clear v }
  | stage (i : BitVec 9) (v : Word) (env : Environ) (rest : List Event) (fs f q x : F32)
      (hp : s.port = { access := .write i v, environ := env } :: rest) (h0 : i ≠ 0#9) (h1 : i ≠ 1#9) :
      Stepped s { s.accept { access := .write i v, environ := env } rest with fs := fs, argF := f, argQ := q, argX := x }

/-- The inversion of `step`. -/
theorem stepped_of_step (s t : State) (h : step s = .next t) : Stepped s t := by
  unfold step at h
  split at h
  case h_1 hp => cases h; exact .idle hp
  case h_2 ev rest hp =>
    obtain ⟨a, env⟩ := ev
    cases a with
    | read i => cases h; exact .read i env rest hp
    | reset => cases h; exact .reset env rest hp
    | write i v =>
      obtain ⟨r0, r1, r2, r3, r4, r5⟩ := reg_at_writable s.params i
      have hw : writeReg (Reg.at s.params i) v (s.accept { access := .write i v, environ := env } rest) = .next t := h
      generalize hr : Reg.at s.params i = r at hw r0 r1 r2 r3 r4 r5
      have ne0 : r ≠ .cmd → i ≠ 0#9 := fun hn hi => hn (r0.mpr hi)
      have ne1 : r ≠ .status → i ≠ 1#9 := fun hn hi => hn (r1.mpr hi)
      cases r with
      | cmd =>
        obtain rfl := r0.mp rfl
        change runCommand v _ = _ at hw
        unfold runCommand at hw
        split at hw
        case h_1 j hd => exact .command v env rest j t hp hd hw
        case h_2 x hd => cases hw; exact .reserved v env rest x hp hd
      | status =>
        obtain rfl := r1.mp rfl
        cases hw; exact .clear v env rest hp
      | fs => cases hw; exact .stage i v env rest v s.argF s.argQ s.argX hp (ne0 (by simp)) (ne1 (by simp))
      | argF => cases hw; exact .stage i v env rest s.fs v s.argQ s.argX hp (ne0 (by simp)) (ne1 (by simp))
      | argQ => cases hw; exact .stage i v env rest s.fs s.argF v s.argX hp (ne0 (by simp)) (ne1 (by simp))
      | argX => cases hw; exact .stage i v env rest s.fs s.argF s.argQ v hp (ne0 (by simp)) (ne1 (by simp))
      | biqY => cases hw; exact .stage i v env rest s.fs s.argF s.argQ s.argX hp (ne0 (by simp)) (ne1 (by simp))
      | result => cases hw; exact .stage i v env rest s.fs s.argF s.argQ s.argX hp (ne0 (by simp)) (ne1 (by simp))
      | params => cases hw; exact .stage i v env rest s.fs s.argF s.argQ s.argX hp (ne0 (by simp)) (ne1 (by simp))
      | unit e u => cases hw; exact .stage i v env rest s.fs s.argF s.argQ s.argX hp (ne0 (by simp)) (ne1 (by simp))
      | lastSent ch => cases hw; exact .stage i v env rest s.fs s.argF s.argQ s.argX hp (ne0 (by simp)) (ne1 (by simp))
      | reserved => cases hw; exact .stage i v env rest s.fs s.argF s.argQ s.argX hp (ne0 (by simp)) (ne1 (by simp))

end Sys2Proof.Machine
end

