-- ==== Sys2Proof/Laws/Float.lean ====
section
/-! SUPPORT. Binary32 patterns as sign and magnitude, the value a magnitude stands for, NaN propagation, and everything
rounding can do, said once (spec 00_scope.md R12). -/

namespace Sys2Proof.F32

/-! ### Patterns -/

theorem mag_eq (x : F32) : mag x = x.toNat % 2 ^ 31 := by
  simp [mag, BitVec.extractLsb'_toNat]

theorem mag_lt (x : F32) : mag x < 2 ^ 31 := by
  rw [mag_eq]
  exact Nat.mod_lt _ (by decide)

theorem sign_eq (x : F32) : sign x = decide (2 ^ 31 ≤ x.toNat) := by
  simp [sign, BitVec.msb_eq_decide]

theorem expBits_eq (x : F32) : expBits x = mag x / 2 ^ 23 := by
  rw [mag_eq]
  simp only [expBits, BitVec.extractLsb'_toNat, Nat.shiftRight_eq_div_pow]
  omega

theorem fracBits_eq (x : F32) : fracBits x = mag x % 2 ^ 23 := by
  rw [mag_eq]
  simp only [fracBits, BitVec.extractLsb'_toNat, Nat.shiftRight_zero]
  omega

theorem pack_toNat (s : Bool) (m : Nat) (h : m < 2 ^ 31) : (pack s m).toNat = s.toNat * 2 ^ 31 + m := by
  have hm : (BitVec.ofNat 31 m).toNat = m := by
    rw [BitVec.toNat_ofNat]
    omega
  simp only [pack, BitVec.toNat_append, BitVec.toNat_ofBool]
  rw [← Nat.shiftLeft_add_eq_or_of_lt (BitVec.isLt _), hm, Nat.shiftLeft_eq]

@[simp] theorem mag_pack (s : Bool) (m : Nat) (h : m < 2 ^ 31) : mag (pack s m) = m := by
  rw [mag_eq, pack_toNat s m h]
  cases s <;> simp
  all_goals omega

@[simp] theorem sign_pack (s : Bool) (m : Nat) (h : m < 2 ^ 31) : sign (pack s m) = s := by
  rw [sign_eq, pack_toNat s m h]
  cases s <;> simp
  all_goals omega

/-- Sign and magnitude determine the pattern. -/
theorem ext_sign_mag (x y : F32) (hs : sign x = sign y) (hm : mag x = mag y) : x = y := by
  apply BitVec.eq_of_toNat_eq
  have hx := x.isLt
  have hy := y.isLt
  simp only [sign_eq, decide_eq_decide] at hs
  simp only [mag_eq] at hm
  omega

@[simp] theorem sign_neg (x : F32) : sign (neg x) = !sign x := by
  have h : (0x80000000#32).msb = true := by decide
  simp [sign, neg, BitVec.msb_xor, h]

@[simp] theorem mag_neg (x : F32) : mag (neg x) = mag x := by
  have h : (neg x).extractLsb' 0 31 = x.extractLsb' 0 31 ^^^ (0x80000000#32).extractLsb' 0 31 := by
    ext i hi
    simp only [neg, BitVec.getElem_extractLsb', BitVec.getLsbD_xor, BitVec.getElem_xor]
  have z : (0x80000000#32).extractLsb' 0 31 = 0#31 := by decide
  rw [mag, h, z, BitVec.xor_zero, mag]

@[simp] theorem isNaN_neg (x : F32) : isNaN (neg x) = isNaN x := by simp only [isNaN, mag_neg]
@[simp] theorem isInf_neg (x : F32) : isInf (neg x) = isInf x := by simp only [isInf, mag_neg]
@[simp] theorem isFinite_neg (x : F32) : isFinite (neg x) = isFinite x := by simp only [isFinite, mag_neg]
@[simp] theorem isZero_neg (x : F32) : isZero (neg x) = isZero x := by simp only [isZero, mag_neg]

theorem finite_not_nan {x : F32} (h : isFinite x = true) : isNaN x = false := by
  simp only [isFinite, isNaN, decide_eq_true_eq, decide_eq_false_iff_not] at *
  omega

theorem finite_not_inf {x : F32} (h : isFinite x = true) : isInf x = false := by
  simp only [isFinite, isInf, decide_eq_true_eq, decide_eq_false_iff_not] at *
  omega

theorem inf_not_nan {x : F32} (h : isInf x = true) : isNaN x = false := by
  simp only [isInf, isNaN, decide_eq_true_eq, decide_eq_false_iff_not] at *
  omega

/-! ### NaN propagation -/

@[simp] theorem isNaN_nan : isNaN nan = true := by decide

theorem add_nan (a b : F32) (h : isNaN a = true ∨ isNaN b = true) : add a b = nan := by
  have : (isNaN a || isNaN b) = true := by simpa using h
  simp only [add, this, if_true]

theorem sub_nan (a b : F32) (h : isNaN a = true ∨ isNaN b = true) : sub a b = nan :=
  add_nan a (neg b) (by rwa [isNaN_neg])

theorem mul_nan (a b : F32) (h : isNaN a = true ∨ isNaN b = true) : mul a b = nan := by
  have : (isNaN a || isNaN b) = true := by simpa using h
  simp only [mul, this, if_true]

theorem div_nan (a b : F32) (h : isNaN a = true ∨ isNaN b = true) : div a b = nan := by
  have : (isNaN a || isNaN b) = true := by simpa using h
  simp only [div, this, if_true]

/-! ### The value of a magnitude -/

/-- The value of bits 30:0 of a finite pattern, in units of 2^-149. -/
def magValue (m : Nat) : Nat := if m / 2 ^ 23 = 0 then m % 2 ^ 23 else (2 ^ 23 + m % 2 ^ 23) * 2 ^ (m / 2 ^ 23 - 1)

theorem magUnits_eq (x : F32) : magUnits x = magValue (mag x) := by
  simp only [magUnits, magValue, expBits_eq, fracBits_eq]

/-- The magnitudes of one exponent are evenly spaced, from the exponent's least value to the next exponent's. -/
theorem magValue_block (l k : Nat) (hk : k ≤ 2 ^ 24) (h : l = 0 ∨ 2 ^ 23 ≤ k) : magValue (l * 2 ^ 23 + k) = k * 2 ^ l := by
  unfold magValue
  rcases Nat.lt_or_ge k (2 ^ 23) with h1 | h1
  · obtain rfl : l = 0 := by omega
    rw [if_pos (by omega), Nat.pow_zero]
    omega
  · rw [if_neg (by omega)]
    rcases Nat.lt_or_ge k (2 ^ 24) with h2 | h2
    · rw [show (l * 2 ^ 23 + k) / 2 ^ 23 - 1 = l by omega, show 2 ^ 23 + (l * 2 ^ 23 + k) % 2 ^ 23 = k by omega]
    · obtain rfl : k = 2 ^ 24 := Nat.le_antisymm hk h2
      rw [show (l * 2 ^ 23 + 2 ^ 24) / 2 ^ 23 - 1 = l + 1 by omega,
        show 2 ^ 23 + (l * 2 ^ 23 + 2 ^ 24) % 2 ^ 23 = 2 ^ 23 by omega, Nat.pow_succ]
      omega

/-- A magnitude as a block and a place in it. -/
theorem mag_block (m : Nat) : ∃ l k, m = l * 2 ^ 23 + k ∧ k < 2 ^ 24 ∧ (l = 0 ∨ 2 ^ 23 ≤ k) := by
  rcases Nat.lt_or_ge m (2 ^ 23) with h | h
  · exact ⟨0, m, by omega, by omega, .inl rfl⟩
  · exact ⟨m / 2 ^ 23 - 1, 2 ^ 23 + m % 2 ^ 23, by omega, by omega, .inr (by omega)⟩

/-- A larger magnitude is a larger value. -/
theorem magValue_strictMono : StrictMono magValue := by
  apply strictMono_nat_of_lt_succ
  intro m
  obtain ⟨l, k, rfl, hk, h⟩ := mag_block m
  rw [magValue_block l k (by omega) h, show l * 2 ^ 23 + k + 1 = l * 2 ^ 23 + (k + 1) by omega,
    magValue_block l (k + 1) (by omega) (by omega)]
  have := Nat.pow_pos (n := l) (show 0 < 2 by decide)
  exact Nat.mul_lt_mul_of_pos_right (Nat.lt_succ_self k) this

theorem units_eq (x : F32) : units x = if sign x then -(magValue (mag x) : Int) else magValue (mag x) := by
  simp only [units, magUnits_eq]

/-- The order of the keys is the order of the values (R12). -/
theorem key_le_iff (x y : F32) : key x ≤ key y ↔ units x ≤ units y := by
  rw [units_eq, units_eq]
  unfold key
  have m := fun a b : Nat => magValue_strictMono.le_iff_le (a := a) (b := b)
  have z : magValue 0 = 0 := by decide
  have n := fun a : Nat => m a 0
  rw [z] at n
  cases sign x <;> cases sign y <;> simp only [if_true, if_false, Bool.false_eq_true]
  · have := m (mag x) (mag y); omega
  · have := n (mag x); have := n (mag y); omega
  · have := n (mag x); have := n (mag y); omega
  · have := m (mag y) (mag x); omega

theorem units_natAbs (x : F32) : (units x).natAbs = magUnits x := by
  unfold units
  split <;> omega

theorem magUnits_eq_zero (x : F32) : magUnits x = 0 ↔ isZero x = true := by
  have z : magValue 0 = 0 := by decide
  rw [magUnits_eq, isZero, decide_eq_true_eq, ← z]
  exact magValue_strictMono.injective.eq_iff

/-! ### Rounding -/

/-- Everything `roundMag` can do: with `B` the magnitude below the exact value `num / den`, it answers `B` or the next
one, whichever is nearer, the even one of two equally near; and infinity exactly from `overflowUnits` on. -/
theorem roundMag_cases (num den : Nat) (hd : 0 < den) :
    (Machine.overflowUnits * den ≤ num ∧ roundMag num den = infMag) ∨
    (num < Machine.overflowUnits * den ∧ roundMag num den < infMag ∧
      ∃ B, magValue B * den ≤ num ∧ num < magValue (B + 1) * den ∧
        ((roundMag num den = B ∧ 2 * num ≤ (magValue B + magValue (B + 1)) * den ∧
            (2 * num = (magValue B + magValue (B + 1)) * den → B % 2 = 0)) ∨
          (roundMag num den = B + 1 ∧ (magValue B + magValue (B + 1)) * den ≤ 2 * num ∧
            (2 * num = (magValue B + magValue (B + 1)) * den → (B + 1) % 2 = 0)))) := by
  have hov : Machine.overflowUnits ≤ 2 ^ 252 * 2 ^ 25 := by decide
  unfold roundMag
  simp only
  generalize hq : num / den = q
  have hnum : q * den ≤ num := hq ▸ Nat.div_mul_le_self num den
  have hnum' : num < (q + 1) * den := by
    rw [← hq, Nat.mul_comm]
    exact Nat.lt_mul_div_succ num hd
  split
  case isTrue hL =>
    left
    refine ⟨?_, rfl⟩
    have hq0 : q ≠ 0 := by
      rintro rfl
      exact absurd hL (by decide)
    have h1 : 2 ^ 252 * 2 ^ 25 ≤ q := by
      have split25 : Nat.log2 q = Nat.log2 q - 25 + 25 := by omega
      calc 2 ^ 252 * 2 ^ 25 ≤ 2 ^ (Nat.log2 q - 25) * 2 ^ 25 :=
            Nat.mul_le_mul_right _ (Nat.pow_le_pow_right (by decide) (by omega))
        _ = 2 ^ Nat.log2 q := by rw [← Nat.pow_add, ← split25]
        _ ≤ q := Nat.log2_self_le hq0
    exact le_trans (Nat.mul_le_mul_right den (le_trans hov h1)) hnum
  case isFalse hL =>
    generalize hl : Nat.log2 q - 23 = l
    generalize hdd : den * 2 ^ l = d
    have hd' : 0 < d := hdd ▸ Nat.mul_pos hd (Nat.pow_pos (by decide))
    generalize hm : num / d = m
    generalize hr : num % d = r
    have hsum : m * d + r = num := by
      rw [← hm, ← hr, Nat.mul_comm]
      exact Nat.div_add_mod num d
    have hrd : r < d := hr ▸ Nat.mod_lt _ hd'
    have hmq : m = q / 2 ^ l := by
      rw [← hm, ← hdd, ← hq, Nat.div_div_eq_div_mul]
    have hql : q < 2 ^ (Nat.log2 q + 1) := Nat.lt_log2_self
    have hm24 : m < 2 ^ 24 := by
      rw [hmq, Nat.div_lt_iff_lt_mul (Nat.pow_pos (by decide)), ← Nat.pow_add]
      exact lt_of_lt_of_le hql (Nat.pow_le_pow_right (by decide) (by omega))
    have hm23 : l = 0 ∨ 2 ^ 23 ≤ m := by
      rcases Nat.eq_zero_or_pos l with h | h
      · exact .inl h
      · right
        have hq0 : q ≠ 0 := by
          rintro rfl
          rw [show Nat.log2 0 = 0 by decide] at hl
          omega
        rw [hmq, Nat.le_div_iff_mul_le (Nat.pow_pos (by decide)), ← Nat.pow_add]
        exact (Nat.le_log2 hq0).mp (by omega)
    have hV : magValue (l * 2 ^ 23 + m) * den = m * d := by
      rw [magValue_block l m (by omega) hm23, ← hdd]
      ring
    have hV' : magValue (l * 2 ^ 23 + m + 1) * den = m * d + d := by
      rw [show l * 2 ^ 23 + m + 1 = l * 2 ^ 23 + (m + 1) by omega, magValue_block l (m + 1) (by omega) (by omega), ← hdd]
      ring
    have near : ∃ B, magValue B * den ≤ num ∧ num < magValue (B + 1) * den ∧
        ((l * 2 ^ 23 + (if d < 2 * r ∨ 2 * r = d ∧ m % 2 = 1 then m + 1 else m) = B ∧
            2 * num ≤ (magValue B + magValue (B + 1)) * den ∧
            (2 * num = (magValue B + magValue (B + 1)) * den → B % 2 = 0)) ∨
          (l * 2 ^ 23 + (if d < 2 * r ∨ 2 * r = d ∧ m % 2 = 1 then m + 1 else m) = B + 1 ∧
            (magValue B + magValue (B + 1)) * den ≤ 2 * num ∧
            (2 * num = (magValue B + magValue (B + 1)) * den → (B + 1) % 2 = 0))) := by
      refine ⟨l * 2 ^ 23 + m, by omega, by omega, ?_⟩
      rw [Nat.add_mul, hV, hV']
      split
      · right
        exact ⟨by omega, by omega, by omega⟩
      · left
        exact ⟨rfl, by omega, by omega⟩
    rcases Nat.lt_or_ge l 253 with h253 | h253
    · right
      refine ⟨?_, ?_, near⟩
      · have h1 : 2 ^ l ≤ 2 ^ 252 := Nat.pow_le_pow_right (by decide) (by omega)
        have h2 : d ≤ 2 ^ 252 * den := by
          rw [← hdd, Nat.mul_comm]
          exact Nat.mul_le_mul_right den h1
        have h3 : (m + 1) * d ≤ 2 ^ 24 * (2 ^ 252 * den) := Nat.mul_le_mul (by omega) h2
        have h4 : 2 ^ 24 * (2 ^ 252 * den) ≤ Machine.overflowUnits * den := by
          rw [← Nat.mul_assoc]
          exact Nat.mul_le_mul_right den (by decide)
        rw [Nat.add_mul, Nat.one_mul] at h3
        omega
      · unfold infMag
        split <;> omega
    · obtain rfl : l = 253 := by omega
      have hO : 2 * (Machine.overflowUnits * den) = (2 ^ 25 - 1) * d := by
        rw [← hdd, ← Nat.mul_assoc, Nat.mul_left_comm, Nat.mul_comm den, show 2 * Machine.overflowUnits = (2 ^ 25 - 1) * 2 ^ 253 by decide]
      rcases Nat.lt_or_ge m (2 ^ 24 - 1) with hm1 | hm1
      · have h1 : (m + 1) * d ≤ (2 ^ 24 - 1) * d := Nat.mul_le_mul_right d (by omega)
        rw [Nat.add_mul, Nat.one_mul] at h1
        right
        refine ⟨by omega, ?_, near⟩
        unfold infMag
        split <;> omega
      · obtain rfl : m = 2 ^ 24 - 1 := by omega
        rcases Nat.lt_or_ge (2 * r) d with h2 | h2
        · right
          refine ⟨by omega, ?_, near⟩
          unfold infMag
          split <;> omega
        · left
          refine ⟨by omega, ?_⟩
          unfold infMag
          rw [if_pos (by omega)]
          norm_num

/-- No magnitude is nearer to the exact value than the one `roundMag` answers, and of two equally near ones it answers
the even one. -/
theorem roundMag_nearest (num den : Nat) (hd : 0 < den) (h : num < Machine.overflowUnits * den) (c : Nat) :
    ((magValue (roundMag num den) * den : Int) - num).natAbs ≤ ((magValue c * den : Int) - num).natAbs ∧
    (c ≠ roundMag num den →
      ((magValue (roundMag num den) * den : Int) - num).natAbs = ((magValue c * den : Int) - num).natAbs →
      roundMag num den % 2 = 0) := by
  rcases roundMag_cases num den hd with ⟨h', -⟩ | ⟨-, -, B, hB, hB', hres⟩
  · omega
  have hmono := fun a b : Nat => magValue_strictMono.monotone (a := a) (b := b)
  have low : c ≤ B → magValue c * den ≤ magValue B * den := fun hc => Nat.mul_le_mul_right den (hmono _ _ hc)
  have high : B + 1 ≤ c → magValue (B + 1) * den ≤ magValue c * den := fun hc => Nat.mul_le_mul_right den (hmono _ _ hc)
  have low' : c < B → magValue c * den < magValue B * den := fun hc =>
    Nat.mul_lt_mul_of_pos_right (magValue_strictMono hc) hd
  have high' : B + 1 < c → magValue (B + 1) * den < magValue c * den := fun hc =>
    Nat.mul_lt_mul_of_pos_right (magValue_strictMono hc) hd
  rw [Nat.add_mul] at hres
  have cast : ∀ a : Nat, (magValue a * den : Int) = ((magValue a * den : Nat) : Int) := fun a => by push_cast; rfl
  simp only [cast]
  have eqB : c = B → magValue c * den = magValue B * den := fun hc => by rw [hc]
  have eqB' : c = B + 1 → magValue c * den = magValue (B + 1) * den := fun hc => by rw [hc]
  generalize magValue c * den = C at *
  rcases hres with ⟨hr, h1, h2⟩ | ⟨hr, h1, h2⟩ <;> rw [hr]
  all_goals
    generalize magValue B * den = X at *
    generalize magValue (B + 1) * den = Y at *
    rcases Nat.lt_or_ge c (B + 1) with hc | hc
  · have := low (by omega)
    exact ⟨by omega, fun hne he => by have := low' (by omega); omega⟩
  · have := high hc
    exact ⟨by omega, fun hne he => h2 (by omega)⟩
  · have := low (by omega)
    exact ⟨by omega, fun hne he => h2 (by omega)⟩
  · have := high hc
    exact ⟨by omega, fun hne he => by have := high' (by omega); omega⟩

/-- A value that is representable rounds to itself. -/
theorem roundMag_exact (m den : Nat) (hd : 0 < den) (hm : m < infMag) : roundMag (magValue m * den) den = m := by
  have le_iff := fun a b : Nat => magValue_strictMono.le_iff_le (a := a) (b := b)
  have small : magValue m * den < Machine.overflowUnits * den := by
    apply Nat.mul_lt_mul_of_pos_right _ hd
    have h1 : m ≤ infMag - 1 := by omega
    have h2 := (le_iff m (infMag - 1)).mpr h1
    exact lt_of_le_of_lt h2 (by decide)
  rcases roundMag_cases (magValue m * den) den hd with ⟨h, -⟩ | ⟨-, -, B, h1, h2, hres⟩
  · omega
  have hB : B ≤ m := (le_iff B m).mp (Nat.le_of_mul_le_mul_right h1 hd)
  have hB' : m < B + 1 := magValue_strictMono.lt_iff_lt.mp (Nat.lt_of_mul_lt_mul_right h2)
  obtain rfl : B = m := by omega
  rcases hres with ⟨hr, -⟩ | ⟨-, h3, -⟩
  · exact hr
  · rw [Nat.add_mul] at h3
    omega

/-- Rounding never answers a NaN's magnitude. -/
theorem roundMag_le (num den : Nat) (hd : 0 < den) : roundMag num den ≤ infMag := by
  rcases roundMag_cases num den hd with ⟨-, h⟩ | ⟨-, h, -⟩ <;> omega

/-- Bit 0 of a pattern is its magnitude's parity. -/
theorem bit0_eq (x : F32) : x.getLsbD 0 = decide (mag x % 2 = 1) := by
  have h : x.getLsbD 0 = decide (x.toNat % 2 = 1) := by simp [BitVec.getLsbD, Nat.testBit_zero]
  rw [h, mag_eq, decide_eq_decide]
  omega

/-- A value scaled, from its sign and magnitude. -/
theorem units_mul (c : F32) (den : Nat) :
    units c * den = if sign c then -((magValue (mag c) * den : Nat) : Int) else ((magValue (mag c) * den : Nat) : Int) := by
  rw [units_eq]
  split <;> push_cast <;> ring

/-- The rounded magnitude under the exact value's sign is the correctly rounded result (R12). -/
theorem rounds_pack (num : Int) (den : Nat) (hd : 0 < den) (s : Bool) (hs : num ≠ 0 → s = decide (num < 0)) :
    Machine.Rounds num den (pack s (roundMag num.natAbs den)) := by
  have hlt : roundMag num.natAbs den < 2 ^ 31 := lt_of_le_of_lt (roundMag_le num.natAbs den hd) (by decide)
  have hm := mag_pack s _ hlt
  have hsg := sign_pack s _ hlt
  have cases := roundMag_cases num.natAbs den hd
  have near := roundMag_nearest num.natAbs den hd
  generalize pack s (roundMag num.natAbs den) = r at hm hsg ⊢
  rw [← hm] at cases near
  have cast : ∀ m : Nat, (magValue m * den : Int) = ((magValue m * den : Nat) : Int) := fun m => by push_cast; rfl
  have apart : ∀ c : F32, ((magValue (mag c) * den : Int) - num.natAbs).natAbs ≤ (units c * den - num).natAbs := by
    intro c
    rw [units_mul, cast]
    generalize magValue (mag c) * den = X
    split <;> omega
  have self : ((magValue (mag r) * den : Int) - num.natAbs).natAbs = (units r * den - num).natAbs := by
    rw [units_mul, hsg, cast]
    generalize magValue (mag r) * den = X
    by_cases h0 : num = 0
    · split <;> omega
    · rw [hs h0]
      rcases Int.lt_or_gt_of_ne h0 with h1 | h1
      · rw [if_pos (decide_eq_true h1)]
        omega
      · rw [if_neg (by simp only [decide_eq_true_eq]; omega)]
        omega
  refine ⟨fun h0 => by rw [hsg, hs h0], fun h => ?_, fun h => ?_, fun h c _ => ?_, fun h c _ hne heq => ?_⟩
  · rcases cases with ⟨-, h2⟩ | ⟨h2, -⟩
    · exact decide_eq_true h2
    · omega
  · rcases cases with ⟨h2, -⟩ | ⟨-, h2, -⟩
    · omega
    · exact decide_eq_true h2
  · rw [← self]
    exact le_trans (near h (mag c)).1 (apart c)
  · have eqd : ((magValue (mag r) * den : Int) - num.natAbs).natAbs = ((magValue (mag c) * den : Int) - num.natAbs).natAbs := by
      have h1 := apart c
      have h2 := (near h (mag c)).1
      omega
    have even : mag r % 2 = 0 := by
      by_cases hmc : mag c = mag r
      · by_contra hodd
        have hpos : 0 < magValue (mag r) * den := by
          have h1 := magValue_strictMono (show 0 < mag r by omega)
          exact Nat.mul_pos (by omega) hd
        have zero := (near h 0).1
        rw [units_mul, units_mul, hmc] at heq
        rw [units_eq, units_eq, hmc] at hne
        have z : magValue 0 = 0 := by decide
        rw [z] at zero
        rw [cast] at zero
        generalize magValue (mag r) * den = X at *
        cases hc : sign c <;> cases hr : sign r <;> simp only [hc, hr, if_true, if_false, Bool.false_eq_true] at heq hne
        all_goals omega
      · exact (near h (mag c)).2 hmc eqd
    rw [bit0_eq, even]
    rfl

end Sys2Proof.F32
end

