-- ==== Sys2Proof/Laws/PerInstr.lean ====
section
/-! SUPPORT. Statements made per command. `OpcodeField`: the OP field of a command's word is the table's opcode of it. -/

namespace Sys2Proof.Laws.OpcodeField

/-- The word of a well-formed command carries the command's opcode in bits 31:27 (R71, R76). -/
def Statement (i : Instr) : Prop := i.wellFormed = true → opField (encode i) = i.opcode

/-- A word packed from an opcode and fitting fields carries that opcode. -/
theorem of_fields (op e f2 f1 f0 : Nat) (ho : op < 32) (he : e < 8) (h2 : f2 < 256) (h1 : f1 < 256) (h0 : f0 < 256) :
    opField (packWord op e f2 f1 f0) = op := opField_packWord ho he h2 h1 h0

/-- Every opcode fits OP. -/
theorem opcode_lt (i : Instr) : i.opcode < 32 := by
  cases i <;> simp [Instr.opcode]

theorem curve_fits (c : Option Curve) : c.elim 7 Curve.code < 256 := by
  rcases c with _ | c
  · decide
  · cases c <;> decide

theorem method_fits (m : Option Method) : m.elim 7 Method.code < 256 := by
  rcases m with _ | m
  · decide
  · cases m <;> decide

theorem kind_fits (k : Option Kind) : k.elim 3 Kind.code < 256 := by
  rcases k with _ | k
  · decide
  · cases k <;> decide

theorem nop : Statement .nop := fun _ => by decide

theorem setActive (e : Nat) (b : Bool) : Statement (.setActive e b) := fun h =>
  of_fields _ _ _ _ _ (opcode_lt _) (of_decide_eq_true h) (by decide) (by decide) (by cases b <;> decide)

theorem setMode (e : Nat) (m : Mode) : Statement (.setMode e m) := fun h =>
  of_fields _ _ _ _ _ (opcode_lt _) (of_decide_eq_true h) (by decide) (by decide) (by cases m <;> decide)

theorem setCurve (e : Nat) (c : Option Curve) : Statement (.setCurve e c) := fun h =>
  of_fields _ _ _ _ _ (opcode_lt _) (of_decide_eq_true h) (by decide) (by decide) (curve_fits c)

theorem setMethod (e : Nat) (m : Option Method) : Statement (.setMethod e m) := fun h =>
  of_fields _ _ _ _ _ (opcode_lt _) (of_decide_eq_true h) (by decide) (by decide) (method_fits m)

theorem setSrc (e k : Nat) : Statement (.setSrc e k) := fun h => by
  simp only [Instr.wellFormed, fitsEnv, fitsByte, Bool.and_eq_true, decide_eq_true_eq] at h
  exact of_fields _ _ _ _ _ (opcode_lt _) h.1 (by decide) (by decide) h.2

theorem setPair (e a b : Nat) : Statement (.setPair e a b) := fun h => by
  simp only [Instr.wellFormed, fitsEnv, fitsByte, Bool.and_eq_true, decide_eq_true_eq] at h
  exact of_fields _ _ _ _ _ (opcode_lt _) h.1.1 (by decide) h.1.2 h.2

theorem cfgBiq (e : Nat) (k : Option Kind) : Statement (.cfgBiq e k) := fun h =>
  of_fields _ _ _ _ _ (opcode_lt _) (of_decide_eq_true h) (by decide) (by decide) (kind_fits k)

theorem cfgFilt (e : Nat) : Statement (.cfgFilt e) := fun h =>
  of_fields _ _ _ _ _ (opcode_lt _) (of_decide_eq_true h) (by decide) (by decide) (by decide)

theorem biqProc (e : Nat) : Statement (.biqProc e) := fun h =>
  of_fields _ _ _ _ _ (opcode_lt _) (of_decide_eq_true h) (by decide) (by decide) (by decide)

theorem update (e : Nat) : Statement (.update e) := fun h =>
  of_fields _ _ _ _ _ (opcode_lt _) (of_decide_eq_true h) (by decide) (by decide) (by decide)

theorem updateAll : Statement .updateAll := fun _ => by decide

theorem applyOut (e ch v : Nat) : Statement (.applyOut e ch v) := fun h => by
  simp only [Instr.wellFormed, fitsEnv, fitsByte, Bool.and_eq_true, decide_eq_true_eq] at h
  exact of_fields _ _ _ _ _ (opcode_lt _) h.1.1 h.1.2 (by decide) h.2

end Sys2Proof.Laws.OpcodeField
end

