-- ==== Sys2Proof/Laws/Port.lean ====
section
/-! SUPPORT. The address map as equations: which register stands at each word index (spec 20_memory.md R53), and what
reading it returns. -/

namespace Sys2Proof.Machine

/-- A word index below 512 as a number. -/
theorem index_toNat (n : Nat) (h : n < 512) : (BitVec.ofNat 9 n).toNat = n := by
  rw [BitVec.toNat_ofNat]
  omega

/-- Byte addresses 0x024..0x0FC map nothing. -/
theorem regAt_global_reserved (p : Params) (n : Nat) (h9 : 9 ≤ n) (h : n < 64) :
    Reg.at p (BitVec.ofNat 9 n) = .reserved := by
  simp only [Reg.at, index_toNat n (by omega), if_pos h]
  split <;> first | omega | rfl

/-- The registers of unit `e`, and the reserved words after them. -/
theorem regAt_unit (p : Params) (e k : Nat) (hp : p.nEnv ≤ 8) (he : e < p.nEnv) (hk : k < 16) :
    Reg.at p (BitVec.ofNat 9 (64 + 16 * e + k)) = ((UnitReg.ofOffset k).elim .reserved (.unit e)) := by
  simp only [Reg.at, index_toNat _ (show 64 + 16 * e + k < 512 by omega)]
  rw [if_neg (by omega), if_pos (by omega), show 64 + 16 * e + k - 64 = 16 * e + k by omega,
    show (16 * e + k) / 16 = e by omega, show (16 * e + k) % 16 = k by omega, if_pos he]
  cases UnitReg.ofOffset k <;> rfl

/-- The words of units the configuration has not, and byte addresses 0x300..0x3FC, map nothing. -/
theorem regAt_units_reserved (p : Params) (n : Nat) (hn : 64 + 16 * p.nEnv ≤ n) (h : n < 256) :
    Reg.at p (BitVec.ofNat 9 n) = .reserved := by
  simp only [Reg.at, index_toNat n (by omega)]
  rw [if_neg (by omega), if_pos h]
  split
  · rw [if_neg (by omega)]
  · rfl

/-- The cache entries. -/
theorem regAt_lastSent (p : Params) (ch : Nat) (hp : p.nCh ≤ 255) (hc : ch < p.nCh) :
    Reg.at p (BitVec.ofNat 9 (256 + ch)) = .lastSent ch := by
  simp only [Reg.at, index_toNat _ (show 256 + ch < 512 by omega)]
  rw [if_neg (by omega), if_neg (by omega), if_neg (by omega), show 256 + ch - 256 = ch by omega, if_pos hc]

/-- The words after the cache map nothing. -/
theorem regAt_lastSent_reserved (p : Params) (ch : Nat) (hc : p.nCh ≤ ch) (h : ch ≤ 255) :
    Reg.at p (BitVec.ofNat 9 (256 + ch)) = .reserved := by
  simp only [Reg.at, index_toNat _ (show 256 + ch < 512 by omega)]
  rw [if_neg (by omega), if_neg (by omega), if_neg (by omega), show 256 + ch - 256 = ch by omega,
    if_neg (Nat.not_lt.mpr hc)]

/-- A register's own index leads back to it (R53), for a unit and a destination of the configuration. -/
theorem regAt_index_unit (p : Params) (e : Nat) (r : UnitReg) (hp : p.nEnv ≤ 8) (he : e < p.nEnv) :
    Reg.at p (Reg.unit e r).index = .unit e r := by
  have := regAt_unit p e r.offset hp he (by cases r <;> decide)
  rw [Reg.index, this]
  cases r <;> rfl

/-- Reading a register by its index reads the register. -/
theorem regRead_eq (s : State) (i : BitVec 9) : s.regRead i = s.readReg (Reg.at s.params i) := rfl

/-- A unit after reset is the reset unit, whether the configuration has it or not. -/
theorem unit_resetWith (p : Params) (e : Nat) : (State.resetWith p).unit e = EnvUnit.reset p e := by
  rcases Nat.lt_or_ge e p.nEnv with h | h <;> simp [State.unit, State.resetWith, h]

/-- Every cache entry after reset is NONE (R42). -/
theorem lastSentAt_resetWith (p : Params) (ch : Nat) : (State.resetWith p).lastSentAt ch = none := by
  rcases Nat.lt_or_ge ch p.nCh with h | h <;> simp [State.lastSentAt, State.resetWith, h]

end Sys2Proof.Machine
end

