-- ==== Sys2Proof/Machine/AssemblerText.lean ====
section
/-! DEFINITION. Reading a line of the spec's assembler (spec 30_encoding.md R80, R81): numbers, names, registers, and the
statement or pseudo-instruction a line is. Text the rule does not allow is no line (DESIGN CHOICE, log 16). -/

namespace Sys2Proof.Machine

/-! ### Words of a line -/

/-- The line up to its comment (R80). -/
def stripComment : List Char → List Char
  | [] => []
  | c :: cs => if c == ';' then [] else c :: stripComment cs

/-- The words of a line, split at blanks and commas; `word` is the word being read, last character first. -/
def wordsFrom (word : List Char) : List Char → List (List Char)
  | [] => if word.isEmpty then [] else [word.reverse]
  | c :: cs =>
    if c == ' ' || c == ',' then
      if word.isEmpty then wordsFrom [] cs else word.reverse :: wordsFrom [] cs
    else wordsFrom (c :: word) cs

/-! ### Numbers and names -/

def digitValue (c : Char) : Option Nat :=
  let n := c.toNat
  if 48 ≤ n ∧ n ≤ 57 then some (n - 48)
  else if 65 ≤ n ∧ n ≤ 70 then some (n - 55)
  else if 97 ≤ n ∧ n ≤ 102 then some (n - 87)
  else none

/-- The digits `cs` read in `base` after those that gave `n`. -/
def digitsFrom (base n : Nat) : List Char → Option Nat
  | [] => some n
  | c :: cs =>
    match digitValue c with
    | some d => if d < base then digitsFrom base (n * base + d) cs else none
    | none => none

/-- A decimal or 0x-hex integer (R80). -/
def readNat : List Char → Option Nat
  | [] => none
  | '0' :: 'x' :: c :: cs => digitsFrom 16 0 (c :: cs)
  | cs => digitsFrom 10 0 cs

/-- An operand below `bound`. -/
def readBelow (bound : Nat) (cs : List Char) : Option Nat :=
  (readNat cs).bind fun n => if n < bound then some n else none

/-- `fl` of the decimal `digits / 10^places` (R12, R80). -/
def decimalLiteral (neg : Bool) (digits places : Nat) : F32 := F32.pack neg (F32.roundMag (digits * 2 ^ 149) (10 ^ places))

/-- An unsigned decimal literal with a point. -/
def readDecimal (neg : Bool) (cs : List Char) : Option F32 :=
  match cs.span (· != '.') with
  | (c :: whole, '.' :: d :: frac) =>
    (digitsFrom 10 0 (c :: whole ++ d :: frac)).map fun n => decimalLiteral neg n (frac.length + 1)
  | _ => none

/-- A WR value (R80): a binary32 as a decimal literal or as a pattern tagged `f32:`, or an integer. -/
def readValue : List Char → Option Word
  | 'f' :: '3' :: '2' :: ':' :: cs => (readBelow (2 ^ 32) cs).map (BitVec.ofNat 32)
  | '-' :: cs => readDecimal true cs
  | cs => if cs.contains '.' then readDecimal false cs else (readBelow (2 ^ 32) cs).map (BitVec.ofNat 32)

/-- An enumeration operand: a name of R75, or its code where the field can hold it. -/
def readEnum (names : List (String × Nat)) (bound : Nat) (cs : List Char) : Option Nat :=
  match names.find? fun n => n.1.toList == cs with
  | some n => some n.2
  | none => readBelow bound cs

def modeNames : List (String × Nat) := [("SEF", 0), ("ARG", 1)]

def curveNames : List (String × Nat) :=
  [("LINEAR", 0), ("OPPOSITE_LINEAR", 1), ("EXPONENTIAL", 2), ("RANDOM", 3), ("LOWPASS", 4), ("HIGHPASS", 5),
    ("BANDPASS", 6)]

def methodNames : List (String × Nat) :=
  [("PLUS", 0), ("MIN", 1), ("PECK", 2), ("SHAV", 3), ("SQAR", 4), ("BABS", 5), ("TABS", 6)]

def kindNames : List (String × Nat) := [("LP", 0), ("HP", 1), ("BP", 2)]

/-! ### Registers (R53) -/

def globalNames : List (String × Reg) :=
  [("CMD", .cmd), ("STATUS", .status), ("FS", .fs), ("ARG_F", .argF), ("ARG_Q", .argQ), ("ARG_X", .argX),
    ("BIQ_Y", .biqY), ("RESULT", .result), ("PARAMS", .params)]

def unitNames : List (String × UnitReg) :=
  [("ECTRL", .ectrl), ("ESRC", .esrc), ("ELEVEL", .elevel), ("EFREQ", .efreq), ("EQ", .eq), ("B0", .b0), ("B1", .b1),
    ("B2", .b2), ("A1", .a1), ("A2", .a2), ("W1", .w1), ("W2", .w2)]

/-- A register name: a global one, `ECTRL[e]` and so on with the unit written in brackets, or `LASTSENT[ch]` (R80). -/
def readReg (cs : List Char) : Option Reg :=
  match cs.span (· != '[') with
  | (name, []) => (globalNames.find? fun n => n.1.toList == name).map Prod.snd
  | (name, _ :: index) =>
    if index.getLast? == some ']' then
      if name == "LASTSENT".toList then (readBelow 256 index.dropLast).map Reg.lastSent
      else
        (unitNames.find? fun n => n.1.toList == name).bind fun n =>
          (readBelow 8 index.dropLast).map fun e => Reg.unit e n.2
    else none

/-! ### Lines -/

/-- A line of a host program: a statement, or a pseudo-instruction (R80, R81). -/
inductive Line where
  | stmt (s : Stmt)
  | pseudo (p : Pseudo)
  deriving DecidableEq, Repr

def readUnit (cs : List Char) : Option Nat := readBelow 8 cs

/-- A command statement (R80). -/
def readCommand (name : List Char) (ops : List (List Char)) : Option Instr :=
  let is (s : String) : Bool := s.toList == name
  match ops with
  | [] => if is "NOP" then some .nop else if is "UPDATE_ALL" then some .updateAll else none
  | [e] =>
    (readUnit e).bind fun e =>
      if is "CFG_FILT" then some (.cfgFilt e)
      else if is "BIQ_PROC" then some (.biqProc e)
      else if is "UPDATE" then some (.update e)
      else none
  | [e, x] =>
    (readUnit e).bind fun e =>
      if is "SET_ACTIVE" then (readBelow 2 x).map fun n => .setActive e (n == 1)
      else if is "SET_MODE" then (readEnum modeNames 2 x).map fun n => .setMode e (Mode.ofCode n)
      else if is "SET_CURVE" then (readEnum curveNames 8 x).map fun n => .setCurve e (Curve.ofCode n)
      else if is "SET_METHOD" then (readEnum methodNames 8 x).map fun n => .setMethod e (Method.ofCode n)
      else if is "SET_SRC" then (readBelow 256 x).map fun n => .setSrc e n
      else if is "CFG_BIQ" then (readEnum kindNames 4 x).map fun n => .cfgBiq e (Kind.ofCode n)
      else none
  | [e, x, y] =>
    (readUnit e).bind fun e => (readBelow 256 x).bind fun x => (readBelow 256 y).bind fun y =>
      if is "SET_PAIR" then some (.setPair e x y)
      else if is "APPLY" then some (.applyOut e x y)
      else none
  | _ => none

/-- A pseudo-instruction (R81). -/
def readPseudo (name : List Char) (ops : List (List Char)) : Option Pseudo :=
  let is (s : String) : Bool := s.toList == name
  match ops with
  | [] => if is "CLRSTATUS" then some .clrStatus else none
  | [x] =>
    if is "SETFS" then (readValue x).map .setFs
    else
      (readUnit x).bind fun e =>
        if is "ACTIVATE" then some (.activate e)
        else if is "DEACTIVATE" then some (.deactivate e)
        else if is "CFG_LP" then some (.cfgLp e)
        else if is "CFG_HP" then some (.cfgHp e)
        else if is "CFG_BP" then some (.cfgBp e)
        else if is "TOGGLE_MODE" then some (.toggleMode e)
        else none
  | [e, x] => (readUnit e).bind fun e => if is "PROC" then (readValue x).map (.proc e) else none
  | [e, f, q] =>
    (readUnit e).bind fun e =>
      if is "TUNE" then (readValue f).bind fun f => (readValue q).map fun q => .tune e f q else none
  | [e, k, f, q] =>
    (readUnit e).bind fun e =>
      if is "DESIGN" then
        ((readEnum kindNames 3 k).bind Kind.ofCode).bind fun k =>
          (readValue f).bind fun f => (readValue q).map fun q => .designFor e k f q
      else none
  | _ => none

/-- The line a list of words is: WR, RD, a command, or a pseudo-instruction. -/
def readWords : List (List Char) → Option Line
  | [] => none
  | name :: ops =>
    if name == "WR".toList then
      match ops with
      | [r, v] => (readReg r).bind fun r => (readValue v).map fun v => .stmt (.wr r v)
      | _ => none
    else if name == "RD".toList then
      match ops with
      | [r] => (readReg r).map fun r => .stmt (.rd r)
      | _ => none
    else
      match readCommand name ops with
      | some i => some (.stmt (.cmd i))
      | none => (readPseudo name ops).map .pseudo

/-- The line a text is (R80): `none` for text that is no statement, an empty line or a comment among it. -/
def readLine (text : String) : Option Line := readWords (wordsFrom [] (stripComment text.toList))

end Sys2Proof.Machine
end

