-- ==== Sys2Proof/Tests/Slice0.lean ====
section
/-! SUPPORT. The model's own tests: ill-formed commands refused, words decoded as 30_encoding.md R82 and 95_test_vectors.md
V0 give them, one step per command with the results of the rules' examples and of 95_test_vectors.md, and a concrete state
or operand for the hypotheses of every claim. -/

namespace Sys2Proof.Tests

open Sys2Proof Sys2Proof.Machine

/-! ### WellFormed refuses what does not fit its field -/

theorem test_illFormed_setActive : (Instr.setActive 8 true).wellFormed = false := by decide
theorem test_illFormed_setMode : (Instr.setMode 8 .arg).wellFormed = false := by decide
theorem test_illFormed_setCurve : (Instr.setCurve 8 none).wellFormed = false := by decide
theorem test_illFormed_setMethod : (Instr.setMethod 8 none).wellFormed = false := by decide
theorem test_illFormed_setSrc_unit : (Instr.setSrc 8 0).wellFormed = false := by decide
theorem test_illFormed_setSrc_source : (Instr.setSrc 0 256).wellFormed = false := by decide
theorem test_illFormed_setPair_unit : (Instr.setPair 8 0 1).wellFormed = false := by decide
theorem test_illFormed_setPair_a : (Instr.setPair 0 256 1).wellFormed = false := by decide
theorem test_illFormed_setPair_b : (Instr.setPair 0 0 256).wellFormed = false := by decide
theorem test_illFormed_cfgBiq : (Instr.cfgBiq 8 none).wellFormed = false := by decide
theorem test_illFormed_cfgFilt : (Instr.cfgFilt 8).wellFormed = false := by decide
theorem test_illFormed_biqProc : (Instr.biqProc 8).wellFormed = false := by decide
theorem test_illFormed_update : (Instr.update 8).wellFormed = false := by decide
theorem test_illFormed_applyOut_unit : (Instr.applyOut 8 0 0).wellFormed = false := by decide
theorem test_illFormed_applyOut_ch : (Instr.applyOut 0 256 0).wellFormed = false := by decide
theorem test_illFormed_applyOut_value : (Instr.applyOut 0 0 256).wellFormed = false := by decide

/-! ### Decoding: words from V0 and R82, and by hand from R71 -/

theorem test_decode_nop_ignored : decodeWord 0x07FFFFFF#32 = .ok .nop := by decide
theorem test_decode_setActive : decodeWord 0x08000001#32 = .ok (.setActive 0 true) := by decide
theorem test_decode_setActive_bit0 : decodeWord 0x080000FE#32 = .ok (.setActive 0 false) := by decide
theorem test_decode_setMode : decodeWord 0x13000001#32 = .ok (.setMode 3 .arg) := by decide
theorem test_decode_setCurve : decodeWord 0x1AFFFF04#32 = .ok (.setCurve 2 (some .lowpass)) := by decide
theorem test_decode_setCurve_reserved : decodeWord 0x18000007#32 = .ok (.setCurve 0 none) := by decide
theorem test_decode_setMethod : decodeWord 0x21000004#32 = .ok (.setMethod 1 (some .sqar)) := by decide
theorem test_decode_setMethod_reserved : decodeWord 0x20000007#32 = .ok (.setMethod 0 none) := by decide
theorem test_decode_setSrc : decodeWord 0x2D00000C#32 = .ok (.setSrc 5 12) := by decide
theorem test_decode_setPair : decodeWord 0x31000304#32 = .ok (.setPair 1 3 4) := by decide
theorem test_decode_cfgBiq : decodeWord 0x38000001#32 = .ok (.cfgBiq 0 (some .hp)) := by decide
theorem test_decode_cfgBiq_reserved : decodeWord 0x38000003#32 = .ok (.cfgBiq 0 none) := by decide
theorem test_decode_cfgFilt : decodeWord 0x44000000#32 = .ok (.cfgFilt 4) := by decide
theorem test_decode_biqProc : decodeWord 0x48000000#32 = .ok (.biqProc 0) := by decide
theorem test_decode_update : decodeWord 0x51000000#32 = .ok (.update 1) := by decide
theorem test_decode_updateAll_ignored : decodeWord 0x5F123456#32 = .ok .updateAll := by decide
theorem test_decode_applyOut : decodeWord 0x61070040#32 = .ok (.applyOut 1 7 64) := by decide
theorem test_decode_applyOut_env7 : decodeWord 0x67000000#32 = .ok (.applyOut 7 0 0) := by decide
theorem test_decode_reserved_first : decodeWord 0x68000000#32 = .error (.reservedOpcode 0x0D) := by decide
theorem test_decode_reserved_last : decodeWord 0xF8000000#32 = .error (.reservedOpcode 0x1F) := by decide

/-- R55: byte lane 0 is bits 7:0, so APPLY 1, 7, 64 is carried as 40 00 07 61. -/
theorem test_decode_bytes : decode [0x40#8, 0x00#8, 0x07#8, 0x61#8, 0xAA#8] = .ok (.applyOut 1 7 64, [0xAA#8]) := by decide
theorem test_decode_truncated : decode [0x40#8, 0x00#8, 0x07#8] = .error (.truncated 3) := by decide
theorem test_tableWord : decodeTableWord 32 0x31000304 = some (.setPair 1 3 4) := by decide
theorem test_tableWord_reserved : decodeTableWord 32 0x68000000 = none := by decide

/-! ### Small states -/

/-- The state an outcome leads to, where it leads to one. -/
def nextOf : Host.Outcome State Fault Refusal → Option State
  | .next t => some t
  | .fault _ => none
  | .refused _ => none

/-- One command performed, and something of the state it leaves. -/
def after (i : Instr) (s : State) (see : State → α) : Option α := (nextOf (exec i s)).map see

/-- One step, and something of the state it leaves. -/
def afterStep (s : State) (see : State → α) : Option α := (nextOf (step s)).map see

/-- The reference instantiation of `cosF` and `sinF` (R12) at the angles of 95_test_vectors.md V1 used below: the correctly
rounded cosine and sine of w0 for 1000/44100, 20/44100 and 100/1000. -/
def refParams : Params :=
  { Params.default with
    trig := [(0x3E11E531#32, 0x3F7D67F4#32, 0x3E1166F5#32), (0x3B3ABEF7#32, 0x3F7FFFBC#32, 0x3B3ABEE6#32),
      (0x3F20D97C#32, 0x3F4F1BBD#32, 0x3F167918#32)] }

/-- Reset under `refParams` with FS = 44100.0. -/
def base : State := { State.resetWith refParams with fs := 0x472C4400#32 }

/-- One unit edited. -/
def editUnit (s : State) (e : Nat) (f : EnvUnit → EnvUnit) : State := s.setUnit e (f (s.unit e))

/-- The coefficients of LP 100/1000 (V1 row 7). -/
def lp100 : Coeffs F32 where
  b0 := 0x3D8A246C#32
  b1 := 0x3E0A246C#32
  b2 := 0x3D8A246C#32
  a1 := 0xBF924B86#32
  a2 := 0x3ED35285#32

/-- The environment reads `v` on source `k` and `w` on source `k + 1`. -/
def reads (s : State) (k : Nat) (v w : Reading) : State := { s with environ := { analog := [(k, v), (k + 1, w)] } }

/-- Pending accesses. -/
def withPort (s : State) (p : List Event) : State := { s with port := p }

/-- Unit 0 active, SEF, on curve `c`. -/
def sefUnit (c : Curve) : State := editUnit base 0 fun u => { u with active := true, curve := c, coef := lp100 }

/-- Unit 0 active, ARG, with method `m` and the reset pair (0, 1). -/
def argUnit (m : Method) : State := editUnit base 0 fun u => { u with active := true, mode := .arg, method := m }

/-! ### One step of each command -/

/-- R121: `NOP` leaves every register as it was. -/
theorem test_nop : after .nop base id = some base := by decide

/-- R122: `SET_ACTIVE 0, 1` gives ECTRL[0] bit 0 = 1. -/
theorem test_setActive : after (.setActive 0 true) base (·.regRead 64#9) = some 0x00000001#32 := by decide

/-- R123: `SET_MODE 3, ARG` gives ECTRL[3] bit 1 = 1 (0x100 + 3 * 0x40 is word 112). -/
theorem test_setMode : after (.setMode 3 .arg) base (·.regRead 112#9) = some 0x00000002#32 := by decide

/-- R124 and V1 row 1: at FS = 44100.0, `SET_CURVE 2, LOWPASS` gives CURVE[2] = 4, EFREQ[2] = 1000.0, the default Q and
the coefficients of LP 1000/44100. -/
theorem test_setCurve_biquad : after (.setCurve 2 (some .lowpass)) base
      (fun t => [96#9, 99#9, 100#9, 101#9, 102#9, 103#9, 104#9, 105#9].map t.regRead) =
    some [0x00000040#32, 0x447A0000#32, 0x3F34FDF4#32, 0x3B96DCB2#32, 0x3C16DCB2#32, 0x3B96DCB2#32, 0xBFE647FA#32,
      0x3F5146DA#32] := by decide

/-- V3: with FS = -44100.0, `SET_CURVE 0, HIGHPASS` sets EARG and CURVE[0] stays 0. -/
theorem test_setCurve_badFs : after (.setCurve 0 (some .highpass)) { base with fs := 0xC72C4400#32 }
    (fun t => (t.regRead 1#9, t.regRead 64#9)) = some (0x00000002#32, 0x00000000#32) := by decide

/-- R125: `SET_METHOD 1, SQAR` gives ECTRL[1] bits 10:8 = 4. -/
theorem test_setMethod : after (.setMethod 1 (some .sqar)) base (·.regRead 80#9) = some 0x00000400#32 := by decide

/-- V3: `SET_METHOD 0, 7` sets EINVAL. -/
theorem test_setMethod_reserved : after (.setMethod 0 none) base (·.regRead 1#9) = some 0x00000004#32 := by decide

/-- R126: `SET_SRC 5, 12` gives ESRC[5] bits 7:0 = 12; the reset pair (0, 1) stays. -/
theorem test_setSrc : after (.setSrc 5 12) base (·.regRead 145#9) = some 0x0001000C#32 := by decide

/-- V3: `SET_SRC 0, 16` sets EINVAL and leaves SRC[0]. -/
theorem test_setSrc_bad : after (.setSrc 0 16) base (fun t => (t.regRead 1#9, t.regRead 65#9)) =
    some (0x00000004#32, 0x00010000#32) := by decide

/-- R127: `SET_PAIR 1, 3, 4` gives PAIR_A[1] = 3 and PAIR_B[1] = 4; SRC[1] stays 1. -/
theorem test_setPair : after (.setPair 1 3 4) base (·.regRead 81#9) = some 0x00040301#32 := by decide

/-- R127: `SET_PAIR 1, 3, 3` sets EINVAL and keeps the old pair. -/
theorem test_setPair_equal : after (.setPair 1 3 3) base (fun t => (t.regRead 1#9, t.regRead 81#9)) =
    some (0x00000004#32, 0x00010001#32) := by decide

/-- R106 and V1 row 2: HP 1000/44100 at the default Q, KIND[0] = 1, STATUS unchanged. -/
theorem test_cfgBiq : after (.cfgBiq 0 (some .hp)) base
      (fun t => [1#9, 64#9, 69#9, 70#9, 71#9, 72#9, 73#9].map t.regRead) =
    some [0x00000000#32, 0x00000004#32, 0x3F6775B3#32, 0xBFE775B3#32, 0x3F6775B3#32, 0xBFE647FA#32, 0x3F5146DA#32] := by
  decide

/-- V3: with ARG_Q = -1.0, `CFG_BIQ 0, LP` sets EARG and changes nothing else. -/
theorem test_cfgBiq_badQ : after (.cfgBiq 0 (some .lp)) { base with argQ := 0xBF800000#32 } (fun t => (t.regRead 1#9, t.units)) =
    some (0x00000002#32, base.units) := by decide

/-- V2: with KIND = HP and ARG_F = 10.0, `CFG_FILT 0` gives EFREQ = 20.0, FCLAMP and HP at 20 Hz. -/
theorem test_cfgFilt : after (.cfgFilt 0) (editUnit { base with argF := 0x41200000#32 } 0 fun u => { u with kind := .hp })
      (fun t => [1#9, 67#9, 69#9, 70#9, 71#9, 72#9, 73#9].map t.regRead) =
    some [0x00000001#32, 0x41A00000#32, 0x3F7F7C10#32, 0xBFFF7C10#32, 0x3F7F7C10#32, 0xBFFF7BEE#32, 0x3F7EF864#32] := by
  decide

/-- V4 n = 0: LP 100/1000, taps 0, ARG_X = 127.0. -/
theorem test_biqProc : after (.biqProc 0) { sefUnit .lowpass with argX := 0x42FE0000#32 }
      (fun t => [6#9, 74#9, 75#9].map t.regRead) = some [0x41091023#32, 0x42FE0000#32, 0x00000000#32] := by decide

/-- V4, the identity section: ARG_X = 3.25 gives BIQ_Y = 3.25, W1 = 3.25, W2 = 0. -/
theorem test_biqProc_identity : after (.biqProc 0) { base with argX := 0x40500000#32 }
      (fun t => [6#9, 74#9, 75#9].map t.regRead) = some [0x40500000#32, 0x40500000#32, 0x00000000#32] := by decide

/-- R128's example: SEF, EXPONENTIAL, AnalogIn(0) = 812 gives LEVEL[0] = 78. -/
theorem test_update_exponential : after (.update 0) (reads (sefUnit .exponential) 0 812#10 0#10) (·.regRead 66#9) =
    some 0x0000004E#32 := by decide

/-- R134's example: LP 100/1000, taps 0, l = 127 gives LEVEL[0] = 8. -/
theorem test_update_biquad : after (.update 0) (reads (sefUnit .lowpass) 0 1023#10 0#10) (·.regRead 66#9) =
    some 0x00000008#32 := by decide

/-- R145's example: unit 0 LINEAR on source 0, unit 1 PLUS on the pair (0, 1), readings 512 and 1023. -/
theorem test_updateAll : after .updateAll
      (reads (editUnit (sefUnit .linear) 1 fun u => { u with active := true, mode := .arg }) 0 512#10 1023#10)
      (fun t => [66#9, 82#9, 98#9].map t.regRead) = some [63#32, 127#32, 0#32] := by decide

/-- R160's example: LEVEL[1] = 20, `APPLY 1, 7, 64` emits (7, 84) and RESULT = 0x00070154. -/
theorem test_applyOut : after (.applyOut 1 7 64) (editUnit base 1 fun u => { u with level := 20#7 })
      (fun t => (t.emissions, t.regRead 7#9, t.regRead 263#9)) =
    some ([{ ch := 7, val := 84#7 }], 0x00070154#32, 84#32) := by decide

/-- V11 step 2: the same APPLY with 84 in the cache emits nothing and RESULT = 0x00070054. -/
theorem test_applyOut_repeat : after (.applyOut 1 7 64)
      { (editUnit base 1 fun u => { u with level := 20#7 }) with lastSent := base.lastSent.set 7 (some 84#7) }
      (fun t => (t.emissions, t.regRead 7#9)) = some ([], 0x00070054#32) := by decide

/-! ### Shared procedures -/

/-- V10: PLUS, MIN, PECK, SHAV, SQAR, BABS, TABS of A = 100, B = 30, and of the source's own examples (W1). -/
theorem test_combine : [Method.plus, .min, .peck, .shav, .sqar, .babs, .tabs].map (fun m => (combine m 100#7 30#7).toNat) =
    [127, 70, 0, 7, 104, 3, 33] := by decide

/-- V10: the same with A = 127, B = 1 and with A = 5, B = 0. -/
theorem test_combine_corners : [Method.plus, .min, .peck, .shav, .sqar, .babs, .tabs].map
      (fun m => ((combine m 127#7 1#7).toNat, (combine m 5#7 0#7).toNat)) =
    [(127, 5), (126, 5), (0, 0), (12, 0), (127, 5), (127, 0), (127, 0)] := by decide

/-- V6: NaN, -inf, -0.5, -0.0, 126.99999, 127.0 and +inf. -/
theorem test_toLevel : [0x7FC00000#32, 0xFF800000#32, 0xBF000000#32, 0x80000000#32, 0x42FDFFFF#32, 0x42FE0000#32,
    0x7F800000#32].map (fun y => (toLevel y).toNat) = [0, 0, 0, 0, 126, 127, 127] := by decide

/-- By hand from IEEE 754: 1.0 + 2^-24 ties to the even 1.0, the least subnormal halved ties to zero, the largest finite
value doubled overflows, and 1.0 / 3.0 rounds up. -/
theorem test_rounding : (F32.add 0x3F800000#32 0x33800000#32, F32.mul 0x00000001#32 0x3F000000#32,
    F32.mul 0x7F7FFFFF#32 0x40000000#32, F32.div 0x3F800000#32 0x40400000#32) =
    (0x3F800000#32, 0x00000000#32, 0x7F800000#32, 0x3EAAAAAB#32) := by decide

/-- V3: STATUS = 0xF, `WR STATUS, 0x5` gives 0xA. -/
theorem test_statusWrite : afterStep (withPort { base with status := ⟨true, true, true, true⟩ }
      [{ access := .write 1#9 0x00000005#32 }]) (·.regRead 1#9) = some 0x0000000A#32 := by decide

/-- V12: PARAMS after reset. -/
theorem test_reset_params : State.reset.regRead 8#9 = 0x00101006#32 := by decide

/-- V12: a write to B0[0] is ignored. -/
theorem test_readOnlyWrite : afterStep (withPort base [{ access := .write 69#9 0x12345678#32 }]) (·.regRead 69#9) =
    some 0x3F800000#32 := by decide

/-- The host's word is performed by the very next step from reset (log 7): `SET_MODE 3, ARG`. -/
theorem test_withFetchWord : afterStep (State.reset.withFetchWord 32 0x13000001) (·.regRead 112#9) = some 2#32 := by decide

/-- R54, R55 with MK42_BASE = 0: the word at host address 0x008 is FS, and byte lane 3 of 44100.0 is 0x47. -/
theorem test_hostAddress : Access.ofHost base.params 0x008 none = some (.read 2#9) ∧ base.readByte 0x00B#11 = 0x47#8 := by decide

/-- Lines of 95_test_vectors.md part 3. -/
theorem test_readLine_wr : readLine "WR  ARG_Q, 0.707          ; 0x3F34FDF4" = some (.stmt (.wr .argQ 0x3F34FDF4#32)) := by decide
theorem test_readLine_proc : readLine "PROC 5, 127.0" = some (.pseudo (.proc 5 0x42FE0000#32)) := by decide
theorem test_readLine_curve : readLine "SET_CURVE 2, LOWPASS" = some (.stmt (.cmd (.setCurve 2 (some .lowpass)))) := by decide

/-! ### Every claim's hypotheses are met somewhere: one theorem per claim that has any -/

/-- The invariant as a check. -/
def good (s : State) : Bool :=
  decide (Legal s.params ∧ s.units.length = s.params.nEnv ∧ s.lastSent.length = s.params.nCh ∧
    ∀ u ∈ s.units, u.src.toNat < s.params.nSrc ∧ u.pairA.toNat < s.params.nSrc ∧ u.pairB.toNat < s.params.nSrc ∧
      u.pairA ≠ u.pairB)

theorem inv_of_good (s : State) (h : good s = true) : s.Inv := by
  obtain ⟨a, b, c, d⟩ := of_decide_eq_true h
  exact ⟨a, b, c, fun u hu => ⟨(d u hu).1, (d u hu).2.1, (d u hu).2.2.1, (d u hu).2.2.2⟩⟩

theorem next_of_isSome (o : Host.Outcome State Fault Refusal) (h : (nextOf o).isSome = true) : ∃ t, o = .next t := by
  cases o with
  | next t => exact ⟨t, rfl⟩
  | fault r => cases h
  | refused r => cases h

/-- A state with one pending access and another after it. -/
def pending (a : Access) (s : State) : State := withPort s [{ access := a }, { access := .read 1#9 }]

theorem witness_DecodeOfEncodeIsTheCommand :
    (Instr.applyOut 7 255 255).wellFormed = true ∧ (Instr.setPair 7 255 255).wellFormed = true ∧
      (Instr.setCurve 7 none).wellFormed = true := by decide

theorem witness_OpcodeSelectsTheCommand :
    opField 0x60000000#32 < 13 ∧ 13 ≤ opField 0x68000000#32 ∧ 13 ≤ opField 0xFFFFFFFF#32 := by decide

theorem witness_OperandsAreTheNamedFields : (7 < 8 ∧ 255 < 256 ∧ 255 < 256 ∧ 255 < 256) ∧ (0 < 8 ∧ 0 < 256) := by decide

theorem witness_IgnoredBitsChangeNothing :
    (opField 0x1A000004#32 = opField 0x1AFFFF04#32 ∧
      0x1A000004#32 &&& usedBits (opField 0x1A000004#32) = 0x1AFFFF04#32 &&& usedBits (opField 0x1A000004#32)) ∧
    (Instr.applyOut 7 255 255).wellFormed = true := by decide

theorem witness_ByteLanesCarryTheWord :
    decodeWord 0x67FF00FF#32 = .ok (.applyOut 7 255 255) ∧ decodeWord 0x68000000#32 = .error (.reservedOpcode 13) := by decide

theorem witness_StepPerformsTheWrittenCommand :
    (pending (.write 0#9 0x50000000#32) base).port =
      { access := .write 0#9 0x50000000#32, environ := {} } :: [{ access := .read 1#9 }] ∧
    decodeWord 0x50000000#32 = .ok (.update 0) := by decide

theorem witness_ReservedOpcodeSetsEcmdOnly :
    (pending (.write 0#9 0x68000000#32) base).port =
      { access := .write 0#9 0x68000000#32, environ := {} } :: [{ access := .read 1#9 }] ∧
    0x0D ≤ opField 0x68000000#32 ∧ 0x0D ≤ opField 0xFFFFFFFF#32 := by decide

/-- One index per clause, and both ends of the last clause's range. -/
theorem witness_RegisterWritesActByAddress :
    (∀ i : BitVec 9, (pending (.write i 0xFFFFFFFF#32) base).port =
      { access := .write i 0xFFFFFFFF#32, environ := {} } :: [{ access := .read 1#9 }]) ∧
    4 * (0#9).toNat = 0x000 ∧ decodeWord 0x00000000#32 = .ok .nop ∧ 4 * (1#9).toNat = 0x004 ∧ 4 * (2#9).toNat = 0x008 ∧ 4 * (3#9).toNat = 0x00C ∧ 4 * (4#9).toNat = 0x010 ∧
      4 * (5#9).toNat = 0x014 ∧ 0x018 ≤ 4 * (6#9).toNat ∧ 0x018 ≤ 4 * (511#9).toNat :=
  ⟨fun _ => rfl, by decide⟩

theorem witness_RegisterReadsHaveNoSideEffect :
    (pending (.read 511#9) base).port = { access := .read 511#9, environ := {} } :: [{ access := .read 1#9 }] ∧
    Reg.at base.params 511#9 = .reserved ∧ Reg.at base.params 9#9 = .reserved :=
  ⟨by decide, regAt_lastSent_reserved base.params 255 (by decide) (by decide), by decide⟩

/-- Legal configurations at both ends, and values at the ends of each clause's range. -/
theorem witness_RegisterMapByAddress :
    Legal base.params ∧ Legal { base.params with nEnv := 8, nSrc := 255, nCh := 255 } ∧
    Legal { base.params with nEnv := 1, nSrc := 2, nCh := 1 } ∧
    (9 ≤ 9 ∧ 63 < 64) ∧ (0 < base.params.nEnv ∧ 5 < base.params.nEnv) ∧ (12 ≤ 12 ∧ 15 < 16) ∧
    (64 + 16 * base.params.nEnv ≤ 160 ∧ 255 < 256) ∧ (0 < base.params.nCh ∧ 15 < base.params.nCh) ∧
    (base.params.nCh ≤ 16 ∧ 255 ≤ 255) := by decide

theorem witness_PackedRegisterFields : Legal base.params ∧ 5 < base.params.nEnv := by decide

theorem witness_ResetLeavesTheResetValues :
    Legal base.params ∧
    (pending .reset base).port = { access := .reset, environ := {} } :: [{ access := .read 1#9 }] ∧
    5 < base.params.nEnv ∧ 11 ∈ [2, 3, 4, 6, 7, 8, 9, 10, 11] ∧ 15 < base.params.nCh := by decide

/-- ARG_X written, then BIQ_PROC 5. -/
def stagedThenRun : State :=
  withPort base [{ access := .write 5#9 0x42FE0000#32 }, { access := .write 0#9 (encode (.biqProc 5)) }, { access := .read 6#9 }]

theorem witness_CommandSeesTheStagingWriteBefore :
    stagedThenRun.Inv ∧ 5 < stagedThenRun.params.nEnv ∧
    stagedThenRun.port = { access := .write 5#9 0x42FE0000#32, environ := {} } ::
      { access := .write 0#9 (encode (.biqProc 5)), environ := {} } :: [{ access := .read 6#9 }] :=
  ⟨inv_of_good _ (by decide), by decide, by decide⟩

/-- Each clause at the boundary of its range. -/
theorem witness_EinvalRefusals :
    base.params.nEnv ≤ 6 ∧ base.params.nSrc ≤ 16 ∧ base.params.nCh ≤ 16 ∧
    (base.params.nSrc ≤ 16 ∨ base.params.nSrc ≤ 0 ∨ 16 = 0) ∧ (base.params.nSrc ≤ 0 ∨ base.params.nSrc ≤ 16 ∨ 0 = 16) ∧
    (base.params.nSrc ≤ 2 ∨ base.params.nSrc ≤ 2 ∨ 2 = 2) := by decide

/-- A NaN frequency; Q zero, infinite and NaN; FS zero, negative and infinite. -/
theorem witness_EargRefusals :
    5 < base.params.nEnv ∧ F32.isNaN ({ base with argF := 0x7F800001#32 } : State).argF = true ∧
    F32.lt 0x00000000#32 ({ base with argQ := 0x00000000#32 } : State).argQ = false ∧
    F32.isFinite ({ base with argQ := 0x7F800000#32 } : State).argQ = false ∧
    F32.isFinite ({ base with argQ := 0x7FC00000#32 } : State).argQ = false ∧
    F32.lt 0x00000000#32 ({ base with fs := 0x80000000#32 } : State).fs = false ∧
    F32.isFinite ({ base with fs := 0x7F800000#32 } : State).fs = false ∧
    Curve.bandpass ∈ [Curve.lowpass, .highpass, .bandpass] := by decide

theorem witness_CommandsAreAllOrNothing :
    (∃ t, exec (.setSrc 0 16) base = .next t) ∧ (∃ t, exec (.cfgBiq 0 (some .lp)) { base with fs := 0#32 } = .next t) ∧
    ∃ t, exec (.cfgFilt 0) { base with argF := 0x41200000#32 } = .next t :=
  ⟨next_of_isSome _ (by decide), next_of_isSome _ (by decide), next_of_isSome _ (by decide)⟩

/-- ECMD set, and cleared by a STATUS write. -/
theorem witness_FlagsAreSticky :
    let s := pending (.write 1#9 0x00000008#32) { base with status := ⟨true, true, true, true⟩ }
    ∃ t, step s = .next t ∧ s.status.get .ecmd = true ∧ t.status.get .ecmd = false := ⟨_, rfl, rfl, rfl⟩

theorem witness_CommandsWriteOnlyTheirRegisters :
    mayWrite (.setSrc 0 3) (Reg.at base.params 64#9) = false ∧ mayWrite (.applyOut 0 3 9) (Reg.at base.params 258#9) = false ∧
    mayWrite .updateAll (Reg.at base.params 1#9) = false ∧ mayWrite .nop (Reg.at base.params 64#9) = false := by decide

theorem witness_UnitsAreIndependent :
    let us := (editUnit base 3 fun u => { u with level := 99#7, kind := .bp }).units
    unitOf (.update 0) = some 0 ∧ us.length = base.units.length ∧ us[0]? = base.units[0]? ∧ us ≠ base.units := by decide

theorem witness_TapsMoveOnlyByProcessingOrReset :
    let s := pending (.write 0#9 0x48000000#32) { base with argX := 0x40500000#32 }
    ∃ t, step s = .next t ∧ (t.unit 0).taps ≠ (s.unit 0).taps := ⟨_, rfl, by decide⟩

theorem witness_CacheChangesOnlyByApplyOrReset :
    let s := pending (.write 0#9 0x61070040#32) base
    ∃ t, step s = .next t ∧ t.lastSentAt 7 ≠ s.lastSentAt 7 := ⟨_, rfl, by decide⟩

/-- The environment of the step reads 1023 on source 0. -/
def tickPending : State :=
  withPort (sefUnit .linear) [{ access := .write 0#9 0x50000000#32, environ := { analog := [(0, 1023#10)] } }]

theorem witness_LevelsChangeOnlyByUpdateOrReset :
    ∃ t, step tickPending = .next t ∧ (t.unit 0).level ≠ (tickPending.unit 0).level := ⟨_, rfl, by decide⟩

theorem witness_ParametersNeverChange :
    (∃ t, step (pending .reset base) = .next t) ∧ Legal base.params := ⟨⟨_, rfl⟩, by decide⟩

/-- What the statements about one command on a unit assume: the invariant and a unit index at either end of its range, or
an index just outside it. -/
theorem base_inv : base.Inv := inv_of_good _ (by decide)

theorem witness_NopChangesNothing : opField 0x07FFFFFF#32 = 0x00 := by decide

theorem witness_SetActiveWritesActive :
    opField 0x0FFFFFFF#32 = 0x01 ∧ base.params.nEnv ≤ 6 ∧ base.Inv ∧ 5 < base.params.nEnv :=
  ⟨by decide, by decide, base_inv, by decide⟩

theorem witness_SetModeWritesMode :
    opField 0x17FFFFFF#32 = 0x02 ∧ base.params.nEnv ≤ 6 ∧ base.Inv ∧ 5 < base.params.nEnv :=
  ⟨by decide, by decide, base_inv, by decide⟩

theorem witness_SetMethodWritesMethod :
    opField 0x27FFFFFF#32 = 0x04 ∧ base.params.nEnv ≤ 6 ∧ base.Inv ∧ 5 < base.params.nEnv :=
  ⟨by decide, by decide, base_inv, by decide⟩

theorem witness_SetSrcWritesSrc :
    opField 0x2FFFFFFF#32 = 0x05 ∧ (base.params.nEnv ≤ 6 ∨ base.params.nSrc ≤ 0) ∧ (base.params.nEnv ≤ 0 ∨ base.params.nSrc ≤ 16) ∧
    base.Inv ∧ 5 < base.params.nEnv ∧ 15 < base.params.nSrc :=
  ⟨by decide, by decide, by decide, base_inv, by decide, by decide⟩

theorem witness_SetPairWritesPair :
    opField 0x37FFFFFF#32 = 0x06 ∧ (base.params.nEnv ≤ 6 ∨ base.params.nSrc ≤ 0 ∨ base.params.nSrc ≤ 1 ∨ 0 = 1) ∧
    (base.params.nEnv ≤ 0 ∨ base.params.nSrc ≤ 16 ∨ base.params.nSrc ≤ 0 ∨ 16 = 0) ∧
    (base.params.nEnv ≤ 0 ∨ base.params.nSrc ≤ 0 ∨ base.params.nSrc ≤ 16 ∨ 0 = 16) ∧
    (base.params.nEnv ≤ 0 ∨ base.params.nSrc ≤ 2 ∨ base.params.nSrc ≤ 2 ∨ 2 = 2) ∧
    base.Inv ∧ 5 < base.params.nEnv ∧ 15 < base.params.nSrc ∧ 0 < base.params.nSrc ∧ 15 ≠ 0 :=
  ⟨by decide, by decide, by decide, by decide, by decide, base_inv, by decide, by decide, by decide, by decide⟩

theorem witness_SetCurveReappliesTheDefaultDesign :
    base.params.nEnv ≤ 6 ∧ base.Inv ∧ 5 < base.params.nEnv ∧
    Curve.random ∈ [Curve.linear, .oppositeLinear, .exponential, .random] ∧
    (Curve.bandpass, Kind.bp) ∈ [(Curve.lowpass, Kind.lp), (.highpass, .hp), (.bandpass, .bp)] ∧
    ArgsOk 0x447A0000#32 base.fs 0x3F34FDF4#32 ∧ ¬ ArgsOk 0x447A0000#32 State.reset.fs 0x3F34FDF4#32 ∧ State.reset.Inv :=
  ⟨by decide, base_inv, by decide, by decide, by decide, by decide, by decide, inv_of_good _ (by decide)⟩

theorem witness_CfgBiqStoresTheNamedDesign :
    base.params.nEnv ≤ 6 ∧ base.Inv ∧ 5 < base.params.nEnv ∧ ArgsOk base.argF base.fs base.argQ ∧
    State.reset.Inv ∧ ¬ ArgsOk State.reset.argF State.reset.fs State.reset.argQ :=
  ⟨by decide, base_inv, by decide, by decide, inv_of_good _ (by decide), by decide⟩

theorem witness_CfgFiltKeepsTheKind :
    base.params.nEnv ≤ 6 ∧ base.Inv ∧ 5 < base.params.nEnv ∧ ArgsOk base.argF base.fs base.argQ ∧
    State.reset.Inv ∧ ¬ ArgsOk State.reset.argF State.reset.fs State.reset.argQ :=
  ⟨by decide, base_inv, by decide, by decide, inv_of_good _ (by decide), by decide⟩

theorem witness_BiqProcRunsOneSample : base.params.nEnv ≤ 6 ∧ base.Inv ∧ 5 < base.params.nEnv := ⟨by decide, base_inv, by decide⟩

theorem witness_UpdateIsGuardedByActive :
    base.params.nEnv ≤ 6 ∧ 5 < base.params.nEnv ∧ (base.unit 5).active = false := by decide

/-- Unit 0 active on a curve, or in ARG mode, keeps the invariant. -/
theorem sefUnit_inv (c : Curve) : (sefUnit c).Inv := by cases c <;> exact inv_of_good _ (by decide)
theorem argUnit_inv (m : Method) : (argUnit m).Inv := by cases m <;> exact inv_of_good _ (by decide)

theorem witness_UpdateSefStaticCurve :
    (∀ c, (sefUnit c).Inv) ∧ 0 < base.params.nEnv ∧
    ∀ c ∈ [Curve.linear, .oppositeLinear, .exponential, .random],
      ((sefUnit c).unit 0).active = true ∧ ((sefUnit c).unit 0).mode = .sef ∧ ((sefUnit c).unit 0).curve = c :=
  ⟨sefUnit_inv, by decide, by decide⟩

/-- Both ends of the closed interval, with the source at full scale. -/
theorem witness_RandomAdmitsTheClosedInterval :
    let s := reads (sefUnit .random) 0 1023#10 0#10
    s.Inv ∧ 0 < s.params.nEnv ∧ (s.unit 0).active = true ∧ (s.unit 0).mode = .sef ∧ (s.unit 0).curve = .random ∧
    0 ≤ (s.analogIn (s.unit 0).src.toNat).toNat * 127 / 1023 ∧ 127 ≤ (s.analogIn (s.unit 0).src.toNat).toNat * 127 / 1023 :=
  ⟨inv_of_good _ (by decide), by decide, by decide, by decide, by decide, by decide, by decide⟩

theorem witness_UpdateSefBiquadPath :
    (∀ c, (sefUnit c).Inv) ∧ 0 < base.params.nEnv ∧
    ∀ c ∈ [Curve.lowpass, .highpass, .bandpass],
      ((sefUnit c).unit 0).active = true ∧ ((sefUnit c).unit 0).mode = .sef ∧ ((sefUnit c).unit 0).curve = c :=
  ⟨sefUnit_inv, by decide, by decide⟩

theorem witness_UpdateArgCombines :
    (∀ m, (argUnit m).Inv) ∧ 0 < base.params.nEnv ∧
    ((argUnit .tabs).unit 0).active = true ∧ ((argUnit .tabs).unit 0).mode = .arg :=
  ⟨argUnit_inv, by decide, by decide, by decide⟩

theorem witness_UpdateAllTicksEveryUnit : (sefUnit .lowpass).Inv ∧ 5 < (sefUnit .lowpass).params.nEnv :=
  ⟨sefUnit_inv _, by decide⟩

theorem witness_ApplyEmitsOnChange :
    opField 0x67FFFFFF#32 = 0x0C ∧ (base.params.nEnv ≤ 6 ∨ base.params.nCh ≤ 0) ∧ (base.params.nEnv ≤ 0 ∨ base.params.nCh ≤ 16) ∧
    base.Inv ∧ 5 < base.params.nEnv ∧ 15 < base.params.nCh :=
  ⟨by decide, by decide, by decide, base_inv, by decide, by decide⟩

/-- Two units at level 0 and the same value, for the last destination. -/
theorem witness_RepeatedValueEmitsOnce :
    base.Inv ∧ 0 < base.params.nEnv ∧ 5 < base.params.nEnv ∧ 15 < base.params.nCh ∧
    (∃ t, exec (.applyOut 0 15 255) base = .next t) ∧
    min (127 + (base.unit 5).level.toNat) 127 = min (255 + (base.unit 0).level.toNat) 127 :=
  ⟨base_inv, by decide, by decide, by decide, ⟨_, rfl⟩, by decide⟩

theorem witness_AnalogMapIsLinearAndMonotone :
    (8#10).toNat ≤ (9#10).toNat ∧ (1015, 126) ∈ [(0, 0), (8, 0), (9, 1), (512, 63), (1015, 126), (1023, 127)] := by decide

/-- A NaN, both infinities, and finite values at and beside 127.0 and 0. -/
theorem witness_ToLevelTruncatesAndClamps :
    F32.isNaN 0x7F800001#32 = true ∧ F32.isInf 0x7F800000#32 = true ∧ F32.isInf 0xFF800000#32 = true ∧
    F32.isFinite 0x42FE0000#32 = true ∧ 127 * 2 ^ 149 ≤ F32.units 0x42FE0000#32 ∧
    F32.isFinite 0x80000000#32 = true ∧ F32.units 0x80000000#32 ≤ 0 ∧
    F32.isFinite 0x42FDFFFF#32 = true ∧ 0 < F32.units 0x42FDFFFF#32 ∧ F32.units 0x42FDFFFF#32 < 127 * 2 ^ 149 ∧
    F32.isFinite 0x00000001#32 = true ∧ 0 < F32.units 0x00000001#32 := by decide

/-- Finite operands at the ends of the format; a divisor that is not zero; and for `Rounds` a tie, whose two neighbours
are equally near (1.0 + 2^-24). -/
theorem witness_ArithmeticIsCorrectlyRounded :
    F32.isFinite 0x7F7FFFFF#32 = true ∧ F32.isFinite 0x00000001#32 = true ∧ F32.units 0x00000001#32 ≠ 0 ∧
    overflowUnits * 1 ≤ (F32.units 0x7F7FFFFF#32 + F32.units 0x7F7FFFFF#32).natAbs ∧
    (F32.units 0x3F800000#32 + F32.units 0x33800000#32).natAbs < overflowUnits * 1 ∧
    F32.units 0x3F800001#32 ≠ F32.units 0x3F800000#32 ∧
    (F32.units 0x3F800000#32 * 1 - (F32.units 0x3F800000#32 + F32.units 0x33800000#32)).natAbs =
      (F32.units 0x3F800001#32 * 1 - (F32.units 0x3F800000#32 + F32.units 0x33800000#32)).natAbs := by decide

theorem witness_SpecialValueArithmetic :
    F32.isNaN 0x7FC00000#32 = true ∧ F32.isInf 0x7F800000#32 = true ∧ F32.isInf 0xFF800000#32 = true ∧
    F32.sign 0x7F800000#32 ≠ F32.sign 0xFF800000#32 ∧ F32.isFinite 0x00000000#32 = true ∧
    F32.isZero 0x80000000#32 = true ∧ F32.isZero 0x00000001#32 = false ∧ F32.isFinite 0x00000001#32 = true ∧
    F32.isNaN (F32.mul 0x00000001#32 0xFF800000#32) = false ∧ F32.isNaN (F32.div 0x00000001#32 0xFF800000#32) = false ∧
    F32.units 0x3F800000#32 + F32.units 0xBF800000#32 = 0 ∧ F32.isFinite 0x80000000#32 = true ∧
    F32.isFinite 0x7F7FFFFF#32 = true := by decide

/-- The order at its corners: the two zeros are equal, negative values run downwards, infinity is beyond the largest finite
value, NaN is not comparable to itself (IEEE 754). -/
theorem test_order :
    F32.lt 0x80000000#32 0x00000000#32 = false ∧ F32.le 0x00000000#32 0x80000000#32 = true ∧
    F32.lt 0xC0000000#32 0xBF800000#32 = true ∧ F32.lt 0x7F7FFFFF#32 0x7F800000#32 = true ∧
    F32.le 0x7F800000#32 0x7F800000#32 = true ∧ F32.le 0x7FC00000#32 0x7FC00000#32 = false := by decide

/-- Just outside, at and inside the band; both zeros, a negative value. -/
theorem witness_FrequencyClampsToTheBand :
    Legal base.params ∧ F32.isNaN 0x419FFFFF#32 = false ∧ F32.lt 0x419FFFFF#32 base.params.fMin = true ∧
    F32.isNaN 0x469C4001#32 = false ∧ F32.lt base.params.fMax 0x469C4001#32 = true ∧
    F32.isNaN 0x41A00000#32 = false ∧ F32.lt 0x41A00000#32 base.params.fMin = false ∧
    F32.lt base.params.fMax 0x41A00000#32 = false ∧ F32.lt base.params.fMax 0x469C4000#32 = false ∧
    F32.isNaN 0x80000000#32 = false ∧ F32.isZero 0x80000000#32 = true ∧ F32.isNaN 0xFF800000#32 = false ∧
    F32.sign 0xFF800000#32 = true := by decide

theorem witness_DesignFollowsTheEquations : ∀ k : Kind, k = .lp ∨ k = .hp ∨ k = .bp := by
  intro k
  cases k <;> decide

theorem witness_ClampFloorEquivalence :
    base.Inv ∧ 5 < base.params.nEnv ∧ ArgsOk 0x41200000#32 base.fs base.argQ ∧
    F32.lt 0x41200000#32 base.params.fMin = true ∧ ArgsOk 0x7F800000#32 base.fs base.argQ ∧
    F32.lt base.params.fMax 0x7F800000#32 = true :=
  ⟨base_inv, by decide, by decide, by decide, by decide, by decide⟩

theorem witness_IdentitySectionBeforeDesign :
    let s : State := { base with argX := 0x7F7FFFFF#32 }
    s.Inv ∧ 5 < s.params.nEnv ∧ (s.unit 5).coef = Coeffs.identity ∧ F32.isFinite s.argX = true ∧
    F32.isFinite (s.unit 5).taps.w1 = true ∧ F32.isFinite (s.unit 5).taps.w2 = true ∧ F32.isZero s.argX = false :=
  ⟨inv_of_good _ (by decide), by decide, by decide, by decide, by decide, by decide, by decide⟩

/-- Unit 0 on the biquad path with a NaN in one tap. -/
def nanTap (w : Taps F32) : State := editUnit (sefUnit .highpass) 0 fun u => { u with taps := w }

/-- A NaN in W1 or in W2 of an active unit on a biquad curve; a step that performs UPDATE_ALL; and the reset input. -/
theorem witness_NanTapsPersist :
    (nanTap ⟨0x7FC00000#32, 0#32⟩).Inv ∧ (nanTap ⟨0#32, 0xFF800001#32⟩).Inv ∧ 0 < base.params.nEnv ∧
    F32.isNaN ((nanTap ⟨0x7FC00000#32, 0#32⟩).unit 0).taps.w1 = true ∧
    F32.isNaN ((nanTap ⟨0#32, 0xFF800001#32⟩).unit 0).taps.w2 = true ∧
    ((nanTap ⟨0x7FC00000#32, 0#32⟩).unit 0).active = true ∧ ((nanTap ⟨0x7FC00000#32, 0#32⟩).unit 0).mode = .sef ∧
    ((nanTap ⟨0x7FC00000#32, 0#32⟩).unit 0).curve ∈ [Curve.lowpass, .highpass, .bandpass] ∧
    (pending (.write 0#9 (encode .updateAll)) (nanTap ⟨0#32, 0xFF800001#32⟩)).Inv ∧
    (∃ t, step (pending (.write 0#9 (encode .updateAll)) (nanTap ⟨0#32, 0xFF800001#32⟩)) = .next t) ∧
    (∀ env rest, (pending (.write 0#9 (encode .updateAll)) (nanTap ⟨0#32, 0xFF800001#32⟩)).port ≠
      { access := .reset, environ := env } :: rest) ∧
    (pending .reset (nanTap ⟨0#32, 0xFF800001#32⟩)).port = { access := .reset, environ := {} } :: [{ access := .read 1#9 }] :=
  ⟨inv_of_good _ (by decide), inv_of_good _ (by decide), by decide, by decide, by decide, by decide, by decide, by decide,
    inv_of_good _ (by decide), ⟨_, rfl⟩, fun _ _ h => by simp [pending, withPort] at h, by decide⟩

theorem witness_ExactGainLaws : (1 : ℚ) + 0 ≠ 0 ∧ (1 : ℚ) + -2 ≠ 0 := by norm_num

theorem witness_PathsAreIsolated :
    (argUnit .sqar).Inv ∧ 0 < (argUnit .sqar).params.nEnv ∧ ((argUnit .sqar).unit 0).mode = .arg ∧
    (sefUnit .random).Inv ∧ ((sefUnit .random).unit 0).curve ∈ [Curve.linear, .oppositeLinear, .exponential, .random] ∧
    (sefUnit .lowpass).Inv ∧ ((sefUnit .lowpass).unit 0).mode = .sef :=
  ⟨argUnit_inv _, by decide, by decide, sefUnit_inv _, by decide, sefUnit_inv _, by decide⟩

theorem witness_InvariantHoldsAtReset :
    Legal Params.default ∧ Legal { Params.default with nEnv := 1, nSrc := 2, nCh := 1 } ∧
    Legal { Params.default with nEnv := 8, nSrc := 255, nCh := 255, fMax := 0x41A00000#32 } := by decide

theorem witness_StepsKeepTheInvariant :
    (pending (.write 0#9 0x31000304#32) base).Inv ∧ ∃ t, step (pending (.write 0#9 0x31000304#32) base) = .next t :=
  ⟨inv_of_good _ (by decide), _, rfl⟩

/-- Destination 7 has been sent 84, and `APPLY 1, 7, 64` at level 0 is pending. -/
def sentOnce : State :=
  pending (.write 0#9 0x61070040#32)
    { base with lastSent := base.lastSent.set 7 (some 84#7), emissions := [{ ch := 7, val := 84#7 }] }

theorem witness_StepsKeepTheEmissionGuarantee :
    sentOnce.Inv ∧ sentOnce.EmissionsOk ∧ ∃ t, step sentOnce = .next t := by
  refine ⟨inv_of_good _ (by decide), ⟨fun ch => ?_, by decide, by decide⟩, _, rfl⟩
  by_cases h : ch = 7
  · subst h
    decide
  · simp [emittedFor, sentOnce, pending, withPort, Ne.symm h]

end Sys2Proof.Tests
end

section
/-! PROOFS. The claims of 00_scope.md. Binary32 arithmetic operation by operation: which class of value each operand
pattern belongs to, one equation per path of each operation, the order of values (R12); then the step that performs a
written command (R7, R8) and the draws of the Random curve (R13). -/

namespace Sys2Proof.F32

/-! ### Classes of patterns -/

theorem inf_not_zero {x : F32} (h : isInf x = true) : isZero x = false := by
  simp only [isInf, isZero, decide_eq_true_eq, decide_eq_false_iff_not] at *
  omega

theorem zero_finite {x : F32} (h : isZero x = true) : isFinite x = true := by
  simp only [isZero, isFinite, decide_eq_true_eq] at *
  omega

@[simp] theorem isInf_pack_infMag (s : Bool) : isInf (pack s infMag) = true := by cases s <;> decide
@[simp] theorem isZero_pack_zero (s : Bool) : isZero (pack s 0) = true := by cases s <;> decide

@[simp] theorem roundMag_zero (den : Nat) : roundMag 0 den = 0 := by simp [roundMag]

theorem sign_pack_roundMag (s : Bool) (num den : Nat) (hd : 0 < den) : sign (pack s (roundMag num den)) = s :=
  sign_pack s _ (lt_of_le_of_lt (roundMag_le num den hd) (by decide))

/-! ### Values -/

@[simp] theorem units_neg (x : F32) : units (neg x) = -units x := by
  simp only [units_eq, sign_neg, mag_neg]
  cases sign x <;> simp

theorem units_eq_zero (x : F32) : units x = 0 ↔ isZero x = true := by
  rw [← magUnits_eq_zero, ← units_natAbs, Int.natAbs_eq_zero]

theorem magUnits_pos {x : F32} (h : isZero x = false) : 0 < magUnits x := by
  have := magUnits_eq_zero x
  rw [h] at this
  exact Nat.pos_of_ne_zero (by simpa using this)

/-- The sign bit of a value that is not zero is the value's sign. -/
theorem units_lt_zero_iff {x : F32} (h : units x ≠ 0) : units x < 0 ↔ sign x = true := by
  have hm : magUnits x ≠ 0 := by rwa [← units_natAbs, Int.natAbs_ne_zero]
  cases hs : sign x
  · simp [units, hs]
  · simp [units, hs, Nat.pos_of_ne_zero hm]

/-- The sign of a product that is not zero is the exclusive or of the signs (IEEE 754). -/
theorem sign_bne_eq_mul_neg {a b : F32} (h : units a * units b ≠ 0) :
    (sign a != sign b) = decide (units a * units b < 0) := by
  obtain ⟨ha, hb⟩ := mul_ne_zero_iff.mp h
  have hneg : units a * units b < 0 ↔ ¬ (units a < 0 ↔ units b < 0) := by
    rw [mul_neg_iff]
    omega
  rw [Bool.eq_iff_iff, decide_eq_true_eq, hneg, units_lt_zero_iff ha, units_lt_zero_iff hb]
  cases sign a <;> cases sign b <;> decide

/-! ### Addition and subtraction -/

/-- The sign of a finite sum: the exact sum's, and for an exact zero that of two negative operands. -/
def addSign (a b : F32) : Bool := if units a + units b = 0 then sign a && sign b else decide (units a + units b < 0)

theorem add_finite {a b : F32} (ha : isFinite a = true) (hb : isFinite b = true) :
    add a b = pack (addSign a b) (roundMag (units a + units b).natAbs 1) := by
  simp only [add, finite_not_nan ha, finite_not_nan hb, finite_not_inf ha, finite_not_inf hb, addSign]
  by_cases h : units a + units b = 0 <;> simp [h]

/-- An infinite operand is the sum, unless the other one is a NaN or the opposite infinity. -/
theorem add_inf_left {a b : F32} (ha : isInf a = true) (hb : isNaN b = false)
    (h : isInf b = true → sign a = sign b) : add a b = a := by
  simp only [add, inf_not_nan ha, ha, hb]
  cases hi : isInf b <;> simp_all

theorem add_inf_right {a b : F32} (ha : isFinite a = true) (hb : isInf b = true) : add a b = b := by
  simp [add, finite_not_nan ha, finite_not_inf ha, inf_not_nan hb, hb]

theorem add_opposite_inf {a b : F32} (ha : isInf a = true) (hb : isInf b = true) (h : sign a ≠ sign b) :
    add a b = nan := by
  simp [add, inf_not_nan ha, inf_not_nan hb, ha, hb, h]

/-! ### Multiplication -/

theorem mul_finite {a b : F32} (ha : isFinite a = true) (hb : isFinite b = true) :
    mul a b = pack (sign a != sign b) (roundMag (magUnits a * magUnits b) (2 ^ 149)) := by
  simp [mul, finite_not_nan ha, finite_not_nan hb, finite_not_inf ha, finite_not_inf hb]

/-- A product with an infinite operand: infinite, or NaN where the other one is zero. -/
theorem mul_inf {a b : F32} (hi : isInf a = true ∨ isInf b = true) (ha : isNaN a = false) (hb : isNaN b = false) :
    mul a b = if isZero a || isZero b then nan else pack (sign a != sign b) infMag := by
  have : (isInf a || isInf b) = true := by simpa using hi
  simp only [mul, ha, hb, this]
  rfl

/-! ### Division -/

theorem div_finite {a b : F32} (ha : isFinite a = true) (hb : isFinite b = true) (h0 : isZero b = false) :
    div a b = pack (sign a != sign b) (roundMag (magUnits a * 2 ^ 149) (magUnits b)) := by
  simp [div, finite_not_nan ha, finite_not_nan hb, finite_not_inf ha, finite_not_inf hb, h0]

theorem div_by_zero {a b : F32} (ha : isFinite a = true) (hb : isZero b = true) :
    div a b = if isZero a then nan else pack (sign a != sign b) infMag := by
  have hf := zero_finite hb
  simp [div, finite_not_nan ha, finite_not_nan hf, finite_not_inf ha, finite_not_inf hf, hb]

theorem div_inf_finite {a b : F32} (ha : isInf a = true) (hb : isFinite b = true) :
    div a b = pack (sign a != sign b) infMag := by
  simp [div, inf_not_nan ha, finite_not_nan hb, finite_not_inf hb, ha]

theorem div_finite_inf {a b : F32} (ha : isFinite a = true) (hb : isInf b = true) :
    div a b = pack (sign a != sign b) 0 := by
  simp [div, finite_not_nan ha, inf_not_nan hb, finite_not_inf ha, hb]

theorem div_inf_inf {a b : F32} (ha : isInf a = true) (hb : isInf b = true) : div a b = nan := by
  simp [div, inf_not_nan ha, inf_not_nan hb, ha, hb]

/-! ### The signs of products and quotients -/

/-- A pattern is a NaN, infinite or finite. -/
theorem class_cases (x : F32) : isNaN x = true ∨ isInf x = true ∨ isFinite x = true := by
  simp only [isNaN, isInf, isFinite, decide_eq_true_eq]
  omega

theorem sign_pack_infMag (s : Bool) : sign (pack s infMag) = s := sign_pack s _ (by decide)

theorem sign_of_mul {a b : F32} (h : isNaN (mul a b) = false) : sign (mul a b) = (sign a != sign b) := by
  have infinite (hi : isInf a = true ∨ isInf b = true) (ha : isNaN a = false) (hb : isNaN b = false) :
      sign (mul a b) = (sign a != sign b) := by
    rw [mul_inf hi ha hb] at h ⊢
    split at h
    · simp at h
    · rw [if_neg ‹_›, sign_pack_infMag]
  rcases class_cases a with ha | ha | ha
  · simp [mul_nan a b (.inl ha)] at h
  all_goals rcases class_cases b with hb | hb | hb
  · simp [mul_nan a b (.inr hb)] at h
  · exact infinite (.inl ha) (inf_not_nan ha) (inf_not_nan hb)
  · exact infinite (.inl ha) (inf_not_nan ha) (finite_not_nan hb)
  · simp [mul_nan a b (.inr hb)] at h
  · exact infinite (.inr hb) (finite_not_nan ha) (inf_not_nan hb)
  · rw [mul_finite ha hb, sign_pack_roundMag _ _ _ (by decide)]

theorem sign_of_div {a b : F32} (h : isNaN (div a b) = false) : sign (div a b) = (sign a != sign b) := by
  rcases class_cases a with ha | ha | ha
  · simp [div_nan a b (.inl ha)] at h
  all_goals rcases class_cases b with hb | hb | hb
  · simp [div_nan a b (.inr hb)] at h
  · simp [div_inf_inf ha hb] at h
  · rw [div_inf_finite ha hb, sign_pack_infMag]
  · simp [div_nan a b (.inr hb)] at h
  · rw [div_finite_inf ha hb, sign_pack _ _ (by decide)]
  · cases h0 : isZero b
    · rw [div_finite ha hb h0, sign_pack_roundMag _ _ _ (magUnits_pos h0)]
    · rw [div_by_zero ha h0] at h ⊢
      split at h
      · simp at h
      · rw [if_neg ‹_›, sign_pack_infMag]

/-! ### The order of values -/

theorem lt_of_not_nan {a b : F32} (ha : isNaN a = false) (hb : isNaN b = false) : lt a b = decide (key a < key b) := by
  simp [lt, ha, hb]

theorem le_of_not_nan {a b : F32} (ha : isNaN a = false) (hb : isNaN b = false) : le a b = decide (key a ≤ key b) := by
  simp [le, ha, hb]

theorem key_lt_iff (x y : F32) : key x < key y ↔ units x < units y := by
  rw [← not_le, ← not_le, key_le_iff]

theorem key_inf {x : F32} (h : isInf x = true) : key x = if sign x then -0x7F800000 else 0x7F800000 := by
  simp only [isInf, decide_eq_true_eq] at h
  simp only [key, h]
  rfl

/-- The keys of finite values lie between the infinities'. -/
theorem key_finite {x : F32} (h : isFinite x = true) : -0x7F800000 < key x ∧ key x < 0x7F800000 := by
  simp only [isFinite, decide_eq_true_eq] at h
  unfold key
  split <;> omega

/-! ### R12: correct rounding -/

theorem rounds_add {a b : F32} (ha : isFinite a = true) (hb : isFinite b = true) :
    Machine.Rounds (units a + units b) 1 (add a b) := by
  rw [add_finite ha hb]
  exact rounds_pack _ 1 (by decide) _ fun h => by rw [addSign, if_neg h]

theorem rounds_sub {a b : F32} (ha : isFinite a = true) (hb : isFinite b = true) :
    Machine.Rounds (units a - units b) 1 (sub a b) := by
  have h := rounds_add ha (b := neg b) (by rwa [isFinite_neg])
  rwa [units_neg, ← sub_eq_add_neg] at h

theorem rounds_mul {a b : F32} (ha : isFinite a = true) (hb : isFinite b = true) :
    Machine.Rounds (units a * units b) (2 ^ 149) (mul a b) := by
  rw [mul_finite ha hb, ← units_natAbs, ← units_natAbs, ← Int.natAbs_mul]
  exact rounds_pack _ _ (by decide) _ sign_bne_eq_mul_neg

/-- A positive factor does not move a number across zero. -/
theorem mul_pos_lt_zero_iff (x : Int) {c : Int} (hc : 0 < c) : x * c < 0 ↔ x < 0 := by
  rw [mul_neg_iff]
  omega

/-- The quotient's numerator carries the divisor's sign, so that its denominator is the divisor's magnitude. -/
theorem rounds_div {a b : F32} (ha : isFinite a = true) (hb : isFinite b = true) (h0 : units b ≠ 0) :
    Machine.Rounds ((units b).sign * units a * 2 ^ 149) (units b).natAbs (div a b) := by
  have hz : isZero b = false := by simpa [units_eq_zero] using h0
  have hmag : ((units b).sign * units a * 2 ^ 149).natAbs = magUnits a * 2 ^ 149 := by
    rw [Int.natAbs_mul, Int.natAbs_mul, Int.natAbs_sign_of_ne_zero h0, Nat.one_mul, units_natAbs]
    rfl
  have hden : (0 : Int) < (units b).natAbs := by omega
  have hsign : (units b).sign * units a * 2 ^ 149 < 0 ↔ units a * units b < 0 :=
    calc (units b).sign * units a * 2 ^ 149 < 0
      _ ↔ (units b).sign * units a < 0 := mul_pos_lt_zero_iff _ (by decide)
      _ ↔ (units b).sign * units a * (units b).natAbs < 0 := (mul_pos_lt_zero_iff _ hden).symm
      _ ↔ units a * units b < 0 := by rw [mul_right_comm, Int.sign_mul_natAbs, mul_comm]
  rw [div_finite ha hb hz, ← hmag, ← units_natAbs]
  refine rounds_pack _ _ (Int.natAbs_pos.mpr h0) _ fun hne => ?_
  have ha0 : units a ≠ 0 := by
    rintro h
    simp [h] at hne
  rw [sign_bne_eq_mul_neg (mul_ne_zero ha0 h0)]
  exact decide_eq_decide.mpr hsign.symm

/-! ### R12: the results and the order that rounding does not settle -/

theorem nan_of_nan_operand {a b : F32} (h : isNaN a = true ∨ isNaN b = true) :
    isNaN (add a b) = true ∧ isNaN (sub a b) = true ∧ isNaN (mul a b) = true ∧ isNaN (div a b) = true := by
  rw [add_nan a b h, sub_nan a b h, mul_nan a b h, div_nan a b h]
  exact ⟨isNaN_nan, isNaN_nan, isNaN_nan, isNaN_nan⟩

theorem results_of_two_infinities {a b : F32} (ha : isInf a = true) (hb : isInf b = true) :
    isNaN (div a b) = true ∧ isInf (mul a b) = true ∧
    (sign a = sign b → add a b = a ∧ isNaN (sub a b) = true) ∧
    (sign a ≠ sign b → sub a b = a ∧ isNaN (add a b) = true) := by
  have hb' : isInf (neg b) = true := by rwa [isInf_neg]
  refine ⟨?_, ?_, fun h => ⟨add_inf_left ha (inf_not_nan hb) fun _ => h, ?_⟩,
    fun h => ⟨add_inf_left ha (inf_not_nan hb') fun _ => ?_, ?_⟩⟩
  · rw [div_inf_inf ha hb, isNaN_nan]
  · simp [mul_inf (.inl ha) (inf_not_nan ha) (inf_not_nan hb), inf_not_zero ha, inf_not_zero hb]
  · rw [sub, add_opposite_inf ha hb' (by simp [h]), isNaN_nan]
  · rw [sign_neg]
    exact Bool.eq_not_of_ne h
  · rw [add_opposite_inf ha hb h, isNaN_nan]

theorem results_of_infinity_and_finite {a b : F32} (ha : isInf a = true) (hb : isFinite b = true) :
    add a b = a ∧ add b a = a ∧ sub a b = a ∧ sub b a = neg a ∧
    isInf (div a b) = true ∧ isZero (div b a) = true ∧
    (isZero b = true → isNaN (mul a b) = true ∧ isNaN (mul b a) = true) ∧
    (isZero b = false → isInf (mul a b) = true ∧ isInf (mul b a) = true) := by
  have add_finite_right {c : F32} (hc : isFinite c = true) : add a c = a :=
    add_inf_left ha (finite_not_nan hc) fun hi => by simp [finite_not_inf hc] at hi
  have hab := mul_inf (.inl ha) (inf_not_nan ha) (finite_not_nan hb)
  have hba := mul_inf (.inr ha) (finite_not_nan hb) (inf_not_nan ha)
  refine ⟨add_finite_right hb, add_inf_right hb ha, add_finite_right (by rwa [isFinite_neg]),
    add_inf_right hb (by rwa [isInf_neg]), ?_, ?_, fun h => ?_, fun h => ?_⟩
  · rw [div_inf_finite ha hb, isInf_pack_infMag]
  · rw [div_finite_inf hb ha, isZero_pack_zero]
  · simp [hab, hba, h]
  · simp [hab, hba, h, inf_not_zero ha]

theorem class_of_div_by_zero {a b : F32} (ha : isFinite a = true) (hb : isZero b = true) :
    (isZero a = true → isNaN (div a b) = true) ∧ (isZero a = false → isInf (div a b) = true) := by
  rw [div_by_zero ha hb]
  exact ⟨fun h => by simp [h], fun h => by simp [h]⟩

theorem add_of_exact_zero {a b : F32} (ha : isFinite a = true) (hb : isFinite b = true) (h : units a + units b = 0) :
    isZero (add a b) = true ∧ sign (add a b) = (sign a && sign b) := by
  rw [add_finite ha hb, addSign, if_pos h, h, Int.natAbs_zero, roundMag_zero]
  exact ⟨isZero_pack_zero _, sign_pack _ _ (by decide)⟩

theorem order_of_finite {a b : F32} (ha : isFinite a = true) (hb : isFinite b = true) :
    lt a b = decide (units a < units b) ∧ le a b = decide (units a ≤ units b) := by
  rw [lt_of_not_nan (finite_not_nan ha) (finite_not_nan hb), le_of_not_nan (finite_not_nan ha) (finite_not_nan hb)]
  exact ⟨decide_eq_decide.mpr (key_lt_iff a b), decide_eq_decide.mpr (key_le_iff a b)⟩

theorem order_of_infinity_and_finite {a b : F32} (ha : isInf a = true) (hb : isFinite b = true) :
    lt a b = sign a ∧ le a b = sign a ∧ lt b a = !sign a ∧ le b a = !sign a := by
  have hna := inf_not_nan ha
  have hnb := finite_not_nan hb
  obtain ⟨low, high⟩ := key_finite hb
  rw [lt_of_not_nan hna hnb, le_of_not_nan hna hnb, lt_of_not_nan hnb hna, le_of_not_nan hnb hna, key_inf ha]
  cases sign a <;> simp <;> omega

theorem order_of_infinities {a b : F32} (ha : isInf a = true) (hb : isInf b = true) :
    lt a b = (sign a && !sign b) ∧ le a b = (sign a || !sign b) := by
  rw [lt_of_not_nan (inf_not_nan ha) (inf_not_nan hb), le_of_not_nan (inf_not_nan ha) (inf_not_nan hb), key_inf ha,
    key_inf hb]
  cases sign a <;> cases sign b <;> decide

theorem nan_unordered {a b : F32} (h : isNaN a = true ∨ isNaN b = true) : lt a b = false ∧ le a b = false := by
  rcases h with h | h <;> simp [lt, le, h]

end Sys2Proof.F32

namespace Sys2Proof.Machine

/-- Settles O48: each operation packs the exact result's sign with the rounded magnitude of its absolute value. -/
theorem arithmeticIsCorrectlyRounded : Obligations.ArithmeticIsCorrectlyRounded := fun _ _ ha hb =>
  ⟨F32.rounds_add ha hb, F32.rounds_sub ha hb, F32.rounds_mul ha hb, F32.rounds_div ha hb⟩

/-- Settles O49, one lemma for each group of default results. -/
theorem specialValueArithmetic : Obligations.SpecialValueArithmetic := fun _ _ =>
  ⟨F32.nan_of_nan_operand, F32.results_of_two_infinities, F32.results_of_infinity_and_finite,
    F32.class_of_div_by_zero, F32.sign_of_mul, F32.sign_of_div, F32.add_of_exact_zero, F32.order_of_finite,
    F32.order_of_infinity_and_finite, F32.order_of_infinities, F32.nan_unordered⟩

/-! ### The step and the Random curve (R7, R8, R13, R70, R133) -/

/-- A step performs the access at the head of the port. -/
theorem step_of_port {s : State} {ev : Event} {rest : List Event} (hp : s.port = ev :: rest) :
    step s = perform ev.access (s.accept ev rest) := by
  simp only [step, hp]

/-- A write to CMD runs the command word (R70). -/
theorem perform_write_cmd (w : Word) (s : State) : perform (.write 0#9 w) s = runCommand w s := by
  simp only [perform, (reg_at_writable s.params 0#9).1.mpr rfl, writeReg]

theorem runCommand_of_decode {w : Word} {i : Instr} (hd : decodeWord w = .ok i) (s : State) :
    runCommand w s = exec i s := by
  simp only [runCommand, hd]

/-- Settles O7: the step takes the CMD write from the port, and the write runs the decoded command. -/
theorem stepPerformsTheWrittenCommand : Obligations.StepPerformsTheWrittenCommand := by
  intro s w env rest i hp hd
  rw [step_of_port hp, perform_write_cmd, runCommand_of_decode hd]
  rfl

/-- The state with `r` recorded as the draw of unit `e`, and no other draw (log 4). -/
def State.withDraw (s : State) (e r : Nat) : State := { s with environ := { s.environ with rand := [(e, r)] } }

/-- A recorded number of the interval is the draw (R13). -/
theorem randDraw_withDraw (s : State) {e l r : Nat} (h : r ≤ l) : (s.withDraw e r).randDraw e l = r := by
  simp [State.withDraw, State.randDraw, Nat.mod_eq_of_lt (Nat.lt_succ_of_le h)]

/-- UPDATE of an active unit on the Random curve writes the recorded number, where it is at most the mapped reading
(R128, R133). -/
theorem tickUnit_withDraw {s : State} {e r : Nat} (ha : (s.unit e).active = true) (hm : (s.unit e).mode = .sef)
    (hc : (s.unit e).curve = .random) (hr : r ≤ (analogMap (s.analogIn (s.unit e).src.toNat)).toNat) :
    (s.withDraw e r).tickUnit e = (s.withDraw e r).setLevel e (BitVec.ofNat 7 r) := by
  calc (s.withDraw e r).tickUnit e
    _ = (s.withDraw e r).sefTransfer e (analogMap (s.analogIn (s.unit e).src.toNat)) :=
        tick_sef (s := s.withDraw e r) ha hm
    _ = (s.withDraw e r).setLevel e (BitVec.ofNat 7 r) := by
        rw [sef_random (s := s.withDraw e r) _ hc, randDraw_withDraw s hr]

/-- Settles O38: the record that lists the wanted value as the unit's draw makes UPDATE leave it. -/
theorem randomAdmitsTheClosedInterval : Obligations.RandomAdmitsTheClosedInterval := by
  intro s e r hinv he hact hmode hcurve hr
  have hr' : r ≤ (analogMap (s.analogIn (s.unit e).src.toNat)).toNat := by rwa [analogMap_toNat]
  refine ⟨[(e, r)], _, exec_update (s := s.withDraw e r) he, ?_⟩
  rw [tickUnit_withDraw hact hmode hcurve hr', setLevel_unit (s.withDraw e r) e _ (hinv.unitCount ▸ he)]
  exact Nat.mod_eq_of_lt (lt_of_le_of_lt hr' (BitVec.isLt _))

end Sys2Proof.Machine
end

section
/-! PROOFS. The claims of 10_state.md about every command and every step. What one command leaves of each part of the state,
said once from `Performed`, and what one step leaves; from these the invariant (R20, R36, R37, R42, R45) and the "changed
only by" rules (R38, R40, R42). -/

namespace Sys2Proof.Machine

/-! ### What a command leaves of each part of the state -/

/-- What unit `e` can be after the command `i` is performed in `s`: the unit as it was, or with what a command that names it
writes, with the taps moved by BIQ_PROC, or as an envelope-tick of UPDATE_ALL leaves it. -/
inductive UnitAfter (i : Instr) (s : State) (e : Nat) : EnvUnit → Prop where
  | kept : UnitAfter i s e (s.unit e)
  | written (u : EnvUnit) (hi : unitOf i = some e) (hu : UnitStep i s e u) : UnitAfter i s e u
  | filtered (w : Taps F32) (hi : i = .biqProc e) : UnitAfter i s e { s.unit e with taps := w }
  | ticked (l : Level) (w : Taps F32) (hi : i = .updateAll) : UnitAfter i s e { s.unit e with level := l, taps := w }

section
variable {i : Instr} {s t : State} {e : Nat} {u : EnvUnit}

/-- Writing one unit with what a command may leave there is what that command may leave in every unit. -/
theorem unitAfter_setUnit (h : UnitAfter i s e u) (e' : Nat) : UnitAfter i s e' ((s.setUnit e u).unit e') := by
  rcases unit_setUnit_cases s e e' u with h' | ⟨rfl, h'⟩
  · rw [h']
    exact .kept
  · rw [h']
    exact h

theorem unitAfter_of_performed (h : Performed i s t) (e : Nat) : UnitAfter i s e (t.unit e) := by
  cases h with
  | einval => exact .kept
  | earg => exact .kept
  | nop => exact .kept
  | all hi =>
    obtain ⟨-, -, hin, hout⟩ := foldl_tick s s.params.nEnv
    rcases Nat.lt_or_ge e s.params.nEnv with he | he
    · obtain ⟨l, w, hw⟩ := tickUnit_write s e
      rw [hin e he, hw]
      exact unitAfter_setUnit (.ticked l w hi) e
    · rw [hout e he]
      exact .kept
  | unit e' u hi _ hu => exact unitAfter_setUnit (.written u hi hu) e
  | clamped e' u hi _ hu => exact unitAfter_setUnit (.written u hi hu) e
  | processed e' hi => exact unitAfter_setUnit (.filtered _ hi) e
  | output =>
    rw [applied_unit]
    exact .kept

/-- No command writes a parameter, a staging register or a field of the model's own (R29, R23-R26, log 11). -/
theorem performed_frame (h : Performed i s t) :
    { t with status := s.status, biqY := s.biqY, result := s.result, units := s.units, lastSent := s.lastSent,
             emissions := s.emissions } = s := by
  cases h with
  | all =>
    have hf := (foldl_tick s s.params.nEnv).1
    rw [eq_with_units hf]
  | output e ch v =>
    calc
      _ = { { applied s e ch v with result := s.result, lastSent := s.lastSent, emissions := s.emissions } with
            status := s.status, biqY := s.biqY, units := s.units } := rfl
      _ = s := by rw [applied_frame]
  | _ => rfl

theorem performed_params (h : Performed i s t) : t.params = s.params :=
  (congrArg State.params (performed_frame h) :)

theorem performed_unitCount (h : Performed i s t) : t.units.length = s.units.length := by
  cases h with
  | all => exact (foldl_tick s s.params.nEnv).2.1
  | output => rw [applied_units]
  | _ => simp [State.process]

/-- Only APPLY writes RESULT, the cache or the trace (R28, R42, R14). -/
theorem performed_output (h : Performed i s t) :
    (t.result = s.result ∧ t.lastSent = s.lastSent ∧ t.emissions = s.emissions) ∨
      ∃ e ch v, i = .applyOut e ch v ∧ t = applied s e ch v := by
  cases h with
  | all =>
    rw [eq_with_units (foldl_tick s s.params.nEnv).1]
    exact .inl ⟨rfl, rfl, rfl⟩
  | output e ch v hi => exact .inr ⟨e, ch, v, hi, rfl⟩
  | _ => exact .inl ⟨rfl, rfl, rfl⟩

/-- Only BIQ_PROC writes BIQ_Y (R27). -/
theorem performed_biqY (h : Performed i s t) : t.biqY = s.biqY ∨ ∃ e, i = .biqProc e := by
  cases h with
  | all =>
    rw [eq_with_units (foldl_tick s s.params.nEnv).1]
    exact .inl rfl
  | processed e hi => exact .inr ⟨e, hi⟩
  | output e ch v => exact .inl (congrArg State.biqY (applied_frame s e ch v) :)
  | _ => exact .inl rfl

/-- NOP and UPDATE_ALL set no flag (R22, R172). -/
theorem performed_status (h : Performed i s t) (hi : i = .nop ∨ i = .updateAll) : t.status = s.status := by
  cases h with
  | einval hn ha => exact (hi.elim hn ha).elim
  | earg hn ha => exact (hi.elim hn ha).elim
  | clamped e u hu => rcases hi with rfl | rfl <;> cases hu
  | all => rw [eq_with_units (foldl_tick s s.params.nEnv).1]
  | output => exact applied_status ..
  | _ => rfl

/-- A command keeps the number of cache entries (R42). -/
theorem performed_cacheSize (h : Performed i s t) : t.lastSent.length = s.lastSent.length := by
  rcases performed_output h with ⟨-, hl, -⟩ | ⟨e, ch, v, -, rfl⟩
  · rw [hl]
  · by_cases hs : s.lastSentAt ch = some (applyValue v (s.unit e).level)
    · rw [applied_same s e ch v hs]
    · rw [applied_changed s e ch v hs]
      exact List.length_set ..

/-- A cache entry is read from the cache alone. -/
theorem lastSentAt_congr (hl : t.lastSent = s.lastSent) (ch : Nat) : t.lastSentAt ch = s.lastSentAt ch := by
  simp only [State.lastSentAt, hl]

/-- A cache entry a command changes is the one an APPLY names; it is left a level, and that level is emitted (R42, R160). -/
theorem performed_cache (h : Performed i s t) (ch : Nat) (hne : t.lastSentAt ch ≠ s.lastSentAt ch) :
    ∃ e v nv, i = .applyOut e ch v ∧ t.lastSentAt ch = some nv ∧
      t.emissions = s.emissions ++ [{ ch := ch, val := nv }] := by
  rcases performed_output h with ⟨-, hl, -⟩ | ⟨e, ch', v, hi, rfl⟩
  · exact absurd (lastSentAt_congr hl ch) hne
  by_cases hs : s.lastSentAt ch' = some (applyValue v (s.unit e).level)
  · rw [applied_same s e ch' v hs] at hne
    exact absurd rfl hne
  rw [applied_changed s e ch' v hs] at hne ⊢
  by_cases hc : ch = ch'
  · subst hc
    rcases Nat.lt_or_ge ch s.lastSent.length with hlt | hge
    · exact ⟨e, v, _, hi, lastSentAt_emit_self s ch _ hlt, rfl⟩
    · refine absurd ?_ hne
      simp [State.lastSentAt, State.emit, List.set_eq_of_length_le hge]
  · exact absurd (lastSentAt_emit_other s ch' ch _ hc) hne

/-! ### What a command leaves of the level, the taps and the sources of a unit -/

/-- A command that writes its unit keeps the level and the taps, but for UPDATE (R38, R40). -/
theorem unitStep_level_taps (hi : unitOf i = some e) (hu : UnitStep i s e u) :
    (u.level = (s.unit e).level ∧ u.taps = (s.unit e).taps) ∨ i = .update e := by
  cases i with
  | update e' => exact .inr (by rw [Option.some.inj hi])
  | setActive => cases hu; exact .inl ⟨rfl, rfl⟩
  | setMode => cases hu; exact .inl ⟨rfl, rfl⟩
  | setCurve =>
    rcases hu with ⟨_, -, rfl⟩ | ⟨_, _, _, _, -, rfl⟩
    · exact .inl ⟨rfl, rfl⟩
    · exact .inl ⟨rfl, rfl⟩
  | setMethod => obtain ⟨_, -, rfl⟩ := hu; exact .inl ⟨rfl, rfl⟩
  | setSrc => obtain ⟨-, rfl⟩ := hu; exact .inl ⟨rfl, rfl⟩
  | setPair => obtain ⟨-, -, -, rfl⟩ := hu; exact .inl ⟨rfl, rfl⟩
  | cfgBiq => obtain ⟨_, _, _, -, rfl⟩ := hu; exact .inl ⟨rfl, rfl⟩
  | cfgFilt => obtain ⟨_, _, rfl⟩ := hu; exact .inl ⟨rfl, rfl⟩
  | _ => exact hu.elim

/-- Only BIQ_PROC, UPDATE and UPDATE_ALL move the taps (R40). -/
theorem unitAfter_taps (h : UnitAfter i s e u) (hne : u.taps ≠ (s.unit e).taps) :
    i = .biqProc e ∨ i = .update e ∨ i = .updateAll := by
  cases h with
  | kept => exact absurd rfl hne
  | written u hi hu =>
    rcases unitStep_level_taps hi hu with ⟨-, ht⟩ | hupd
    · exact absurd ht hne
    · exact .inr (.inl hupd)
  | filtered w hi => exact .inl hi
  | ticked l w hi => exact .inr (.inr hi)

/-- Only UPDATE and UPDATE_ALL change a level (R38). -/
theorem unitAfter_level (h : UnitAfter i s e u) (hne : u.level ≠ (s.unit e).level) :
    i = .update e ∨ i = .updateAll := by
  cases h with
  | kept => exact absurd rfl hne
  | written u hi hu =>
    rcases unitStep_level_taps hi hu with ⟨hl, -⟩ | hupd
    · exact absurd hl hne
    · exact .inl hupd
  | filtered w hi => exact absurd rfl hne
  | ticked l w hi => exact .inr hi

/-- Whether a unit's indices are legal depends on its sources alone. -/
theorem unitOk_of_sources {p : Params} {v : EnvUnit} (h : UnitOk p v) (hs : u.src = v.src) (ha : u.pairA = v.pairA)
    (hb : u.pairB = v.pairB) : UnitOk p u :=
  ⟨hs ▸ h.src, ha ▸ h.pairA, hb ▸ h.pairB, by rw [ha, hb]; exact h.distinct⟩

/-- An index below N_SRC fits the eight bits of SRC and PAIR (R6, R36, R37). -/
theorem sourceIndex_toNat {p : Params} (hp : Legal p) {k : Nat} (hk : k < p.nSrc) : (BitVec.ofNat 8 k).toNat = k := by
  obtain ⟨-, -, -, hsrc, -⟩ := hp
  rw [BitVec.toNat_ofNat]
  omega

/-- What a command writes into its unit leaves the unit's indices legal: SET_SRC and SET_PAIR check them, and no other
command writes them (R36, R37). -/
theorem unitOk_of_unitStep (hp : Legal s.params) (hok : UnitOk s.params (s.unit e)) (hu : UnitStep i s e u) :
    UnitOk s.params u := by
  cases i with
  | setSrc _ k =>
    obtain ⟨hk, rfl⟩ := hu
    exact ⟨by rwa [sourceIndex_toNat hp hk], hok.pairA, hok.pairB, hok.distinct⟩
  | setPair _ a b =>
    obtain ⟨ha, hb, hab, rfl⟩ := hu
    have hA := sourceIndex_toNat hp ha
    have hB := sourceIndex_toNat hp hb
    refine ⟨hok.src, by rwa [hA], by rwa [hB], fun heq => hab ?_⟩
    rw [← hA, ← hB]
    exact congrArg BitVec.toNat heq
  | setActive => cases hu; exact unitOk_of_sources hok rfl rfl rfl
  | setMode => cases hu; exact unitOk_of_sources hok rfl rfl rfl
  | setCurve =>
    rcases hu with ⟨_, -, rfl⟩ | ⟨_, _, _, _, -, rfl⟩
    · exact unitOk_of_sources hok rfl rfl rfl
    · exact unitOk_of_sources hok rfl rfl rfl
  | setMethod => obtain ⟨_, -, rfl⟩ := hu; exact unitOk_of_sources hok rfl rfl rfl
  | cfgBiq => obtain ⟨_, _, _, -, rfl⟩ := hu; exact unitOk_of_sources hok rfl rfl rfl
  | cfgFilt => obtain ⟨_, _, rfl⟩ := hu; exact unitOk_of_sources hok rfl rfl rfl
  | update => obtain ⟨_, _, rfl⟩ := hu; exact unitOk_of_sources hok rfl rfl rfl
  | _ => exact hu.elim

theorem unitOk_of_unitAfter (hp : Legal s.params) (hok : UnitOk s.params (s.unit e)) (h : UnitAfter i s e u) :
    UnitOk s.params u := by
  cases h with
  | kept => exact hok
  | written u hi hu => exact unitOk_of_unitStep hp hok hu
  | filtered => exact unitOk_of_sources hok rfl rfl rfl
  | ticked => exact unitOk_of_sources hok rfl rfl rfl

end

/-! ### What a step leaves of the block -/

/-- Of all accesses only the reset input and a command written to CMD change the units or the cache (R52, R190); a
read, a flag and a staging write leave them. -/
theorem step_keeps_or_resets_or_performs {s t : State} (h : step s = .next t) :
    (t.params = s.params ∧ t.units = s.units ∧ t.lastSent = s.lastSent) ∨
    (∃ env rest, s.port = { access := .reset, environ := env } :: rest ∧
      t = (s.accept { access := .reset, environ := env } rest).resetBlock) ∨
    (∃ w env rest i, s.port = { access := .write 0#9 w, environ := env } :: rest ∧ decodeWord w = .ok i ∧
      Performed i (s.accept { access := .write 0#9 w, environ := env } rest) t) := by
  cases stepped_of_step s t h with
  | reset env rest hp => exact .inr (.inl ⟨env, rest, hp, rfl⟩)
  | command w env rest i t hp hd hx => exact .inr (.inr ⟨w, env, rest, i, hp, hd, performed_of_exec i _ t hx⟩)
  | _ => exact .inl ⟨rfl, rfl, rfl⟩

/-- No step changes the configuration (R29, log 1). -/
theorem step_params {s t : State} (h : step s = .next t) : t.params = s.params := by
  rcases step_keeps_or_resets_or_performs h with ⟨hp, -⟩ | ⟨_, _, -, rfl⟩ | ⟨_, _, _, _, -, -, hx⟩
  · exact hp
  · rfl
  · exact (performed_params hx).trans (accept_params ..)

/-- A unit is read from the configuration and the list of units alone. -/
theorem unit_congr {s t : State} (hp : t.params = s.params) (hu : t.units = s.units) (e : Nat) : t.unit e = s.unit e := by
  simp only [State.unit, hp, hu]

/-- A unit a step changes was reset, or is one that a command written to CMD may leave so. -/
theorem reset_or_unitAfter_of_step {s t : State} {e : Nat} (h : step s = .next t) (hne : t.unit e ≠ s.unit e) :
    ∃ env rest, s.port = { access := .reset, environ := env } :: rest ∨
      ∃ w i, s.port = { access := .write 0#9 w, environ := env } :: rest ∧ decodeWord w = .ok i ∧
        UnitAfter i (s.accept { access := .write 0#9 w, environ := env } rest) e (t.unit e) := by
  rcases step_keeps_or_resets_or_performs h with ⟨hp, hu, -⟩ | ⟨env, rest, hp, -⟩ | ⟨w, env, rest, i, hp, hd, hx⟩
  · exact absurd (unit_congr hp hu e) hne
  · exact ⟨env, rest, .inl hp⟩
  · exact ⟨env, rest, .inr ⟨w, i, hp, hd, unitAfter_of_performed hx e⟩⟩

/-! ### The invariant (R20, R36, R37, R42, R45) -/

/-- The invariant speaks of the configuration, the units and the cache alone. -/
theorem inv_congr {s t : State} (h : s.Inv) (hp : t.params = s.params) (hu : t.units = s.units)
    (hl : t.lastSent = s.lastSent) : t.Inv :=
  ⟨hp ▸ h.legal, by rw [hu, hp]; exact h.unitCount, by rw [hl, hp]; exact h.cacheSize,
    by rw [hu, hp]; exact h.unitsOk⟩

/-- Taking an access from the port keeps the invariant. -/
theorem inv_accept {s : State} (h : s.Inv) (ev : Event) (rest : List Event) : (s.accept ev rest).Inv :=
  inv_congr h rfl rfl rfl

/-- A unit the state holds is read as it stands in the list. -/
theorem unit_eq_getElem (s : State) (e : Nat) (h : e < s.units.length) : s.unit e = s.units[e] := by
  simp [State.unit, h]

/-- Under the invariant each unit of the configuration has legal indices. -/
theorem inv_unitOk {s : State} (h : s.Inv) {e : Nat} (he : e < s.params.nEnv) : UnitOk s.params (s.unit e) := by
  have hlt : e < s.units.length := h.unitCount ▸ he
  rw [unit_eq_getElem s e hlt]
  exact h.unitsOk _ (List.getElem_mem hlt)

/-- A reset unit samples `e mod N_SRC` and the pair (0, 1), which N_SRC ≥ 2 makes legal (R36, R37, R45). -/
theorem unitOk_reset {p : Params} (hp : Legal p) (e : Nat) : UnitOk p (EnvUnit.reset p e) := by
  obtain ⟨-, -, htwo, -⟩ := id hp
  have hmod : e % p.nSrc < p.nSrc := Nat.mod_lt _ (by omega)
  exact ⟨(sourceIndex_toNat hp hmod).symm ▸ hmod, show 0 < p.nSrc by omega, show 1 < p.nSrc by omega,
    show (0#8 : BitVec 8) ≠ 1#8 by decide⟩

theorem inv_resetWith {p : Params} (hp : Legal p) : (State.resetWith p).Inv where
  legal := hp
  unitCount := by simp [State.resetWith]
  cacheSize := by simp [State.resetWith]
  unitsOk := by
    intro u hu
    obtain ⟨e, -, rfl⟩ := List.mem_map.mp hu
    exact unitOk_reset hp e

/-- After reset the trace is empty and every cache entry is NONE, so they agree (R42, R45). -/
theorem emissionsOk_resetWith (p : Params) : (State.resetWith p).EmissionsOk where
  noRepeat _ := List.IsChain.nil
  cached ch _ := lastSentAt_resetWith p ch
  inRange _ hm := nomatch hm

/-- Every command keeps the invariant: it keeps the configuration and both counts, and leaves each unit's indices legal. -/
theorem inv_of_performed {i : Instr} {s t : State} (h : s.Inv) (hx : Performed i s t) : t.Inv := by
  have hp := performed_params hx
  have hcount := (performed_unitCount hx).trans h.unitCount
  refine ⟨hp ▸ h.legal, by rw [hcount, hp], ?_, fun u hu => ?_⟩
  · rw [performed_cacheSize hx, hp]
    exact h.cacheSize
  · obtain ⟨e, he, rfl⟩ := List.getElem_of_mem hu
    rw [← unit_eq_getElem t e he, hp]
    exact unitOk_of_unitAfter h.legal (inv_unitOk h (hcount ▸ he)) (unitAfter_of_performed hx e)

/-- Settles O58: the reset state has the counts by construction, and its units are reset units. -/
theorem invariantHoldsAtReset : Obligations.InvariantHoldsAtReset :=
  ⟨fun p hp => ⟨inv_resetWith hp, emissionsOk_resetWith p⟩, inv_resetWith (by decide)⟩

/-- Settles O59: an access other than reset and a command leaves the configuration, the units and the cache; reset gives the
reset state's; a command keeps the invariant by what it may leave in each unit. -/
theorem stepsKeepTheInvariant : Obligations.StepsKeepTheInvariant := by
  intro s t hinv hstep
  rcases step_keeps_or_resets_or_performs hstep with ⟨hp, hu, hl⟩ | ⟨_, _, -, rfl⟩ | ⟨_, _, _, _, -, -, hx⟩
  · exact inv_congr hinv hp hu hl
  · exact inv_congr (inv_resetWith hinv.legal) rfl rfl rfl
  · exact inv_of_performed (inv_accept hinv ..) hx

/-! ### Changed only by (R38, R40, R42) -/

/-- Settles O22: a unit whose taps moved changed, and of the commands only these leave other taps. -/
theorem tapsMoveOnlyByProcessingOrReset : Obligations.TapsMoveOnlyByProcessingOrReset := by
  intro s t e hstep hne
  obtain ⟨env, rest, hreset | ⟨w, i, hp, hd, hu⟩⟩ :=
    reset_or_unitAfter_of_step hstep fun heq => hne (congrArg EnvUnit.taps heq)
  · exact ⟨env, rest, .inl hreset⟩
  · refine ⟨env, rest, .inr ⟨w, hp, ?_⟩⟩
    rcases unitAfter_taps hu hne with rfl | rfl | rfl
    · exact .inl hd
    · exact .inr (.inl hd)
    · exact .inr (.inr hd)

/-- Settles O24: a unit whose level changed changed, and of the commands only these leave another level. -/
theorem levelsChangeOnlyByUpdateOrReset : Obligations.LevelsChangeOnlyByUpdateOrReset := by
  intro s t e hstep hne
  obtain ⟨env, rest, hreset | ⟨w, i, hp, hd, hu⟩⟩ :=
    reset_or_unitAfter_of_step hstep fun heq => hne (congrArg EnvUnit.level heq)
  · exact ⟨env, rest, .inl hreset⟩
  · refine ⟨env, rest, .inr ⟨w, hp, ?_⟩⟩
    rcases unitAfter_level hu hne with rfl | rfl
    · exact .inl hd
    · exact .inr hd

/-- Settles O23: of the commands only an APPLY to the entry leaves another value there, and it emits that value. -/
theorem cacheChangesOnlyByApplyOrReset : Obligations.CacheChangesOnlyByApplyOrReset := by
  intro s t ch hstep hne
  rcases step_keeps_or_resets_or_performs hstep with ⟨-, -, hl⟩ | ⟨env, rest, hp, -⟩ | ⟨w, env, rest, i, hp, hd, hx⟩
  · exact absurd (lastSentAt_congr hl ch) hne
  · exact ⟨env, rest, .inl hp⟩
  · obtain ⟨e, v, nv, rfl, hnv, hem⟩ := performed_cache hx ch hne
    exact ⟨env, rest, .inr ⟨w, e, v, nv, hp, hd, hnv, hem⟩⟩

end Sys2Proof.Machine
end

section
/-! PROOFS. The claims of 10_state.md about registers as software reads them: the register frame over all commands
(R22-R42), the packed words (R22, R28-R37) and the reset values (R45). -/

namespace Sys2Proof.Machine

/-! ### Which registers of its unit a change leaves as they read (R53) -/

section
variable (u : EnvUnit) {r : UnitReg}

/-- ECTRL alone shows the flags and the enumerations (R31-R35). -/
theorem readReg_of_ne_ectrl (h : r ≠ .ectrl) (a : Bool) (m : Mode) (c : Curve) (me : Method) (k : Kind) :
    { u with active := a, mode := m, curve := c, method := me, kind := k }.readReg r = u.readReg r := by
  cases r with
  | ectrl => exact absurd rfl h
  | _ => rfl

/-- ESRC alone shows the sources (R36, R37). -/
theorem readReg_of_ne_esrc (h : r ≠ .esrc) (k a b : BitVec 8) :
    { u with src := k, pairA := a, pairB := b }.readReg r = u.readReg r := by
  cases r with
  | esrc => exact absurd rfl h
  | _ => rfl

/-- A design shows in its own registers alone (R39, R41). -/
theorem readReg_of_not_design (h : r.ofDesign = false) (d : Coeffs F32) (f q : F32) :
    { u with coef := d, efreq := f, eq := q }.readReg r = u.readReg r := by
  cases r with
  | ectrl | esrc | elevel | w1 | w2 => rfl
  | _ => cases h

/-- A tick shows in the level and the taps alone (R38, R40). -/
theorem readReg_of_not_tick (h : r.ofTick = false) (l : Level) (w : Taps F32) :
    { u with level := l, taps := w }.readReg r = u.readReg r := by
  cases r with
  | elevel | w1 | w2 => cases h
  | _ => rfl

/-- The taps show in W1 and W2 alone (R40). -/
theorem readReg_of_not_tap (h1 : r ≠ .w1) (h2 : r ≠ .w2) (w : Taps F32) :
    { u with taps := w }.readReg r = u.readReg r := by
  cases r with
  | w1 => exact absurd rfl h1
  | w2 => exact absurd rfl h2
  | _ => rfl

end

/-! ### The register frame over all commands -/

section
variable {i : Instr} {s t : State} {e : Nat} {u : EnvUnit} {r : UnitReg}

/-- A register a command may not write is another than one it may write. -/
theorem ne_of_mayWrite {r' : UnitReg} (hw : mayWrite i (.unit e r') = true) (hr : mayWrite i (.unit e r) = false) :
    r ≠ r' := by
  rintro rfl
  simp [hw] at hr

/-- A command that writes its unit leaves the registers it may not write. -/
theorem readReg_of_unitStep (hi : unitOf i = some e) (hu : UnitStep i s e u) (hr : mayWrite i (.unit e r) = false) :
    u.readReg r = (s.unit e).readReg r := by
  cases i with
  | setActive _ b =>
    obtain rfl := Option.some.inj hi
    cases hu
    exact readReg_of_ne_ectrl (s.unit _) (ne_of_mayWrite (by simp [mayWrite]) hr) ..
  | setMode =>
    obtain rfl := Option.some.inj hi
    cases hu
    exact readReg_of_ne_ectrl (s.unit _) (ne_of_mayWrite (by simp [mayWrite]) hr) ..
  | setMethod =>
    obtain rfl := Option.some.inj hi
    obtain ⟨_, -, rfl⟩ := hu
    exact readReg_of_ne_ectrl (s.unit _) (ne_of_mayWrite (by simp [mayWrite]) hr) ..
  | setCurve _ c =>
    obtain rfl := Option.some.inj hi
    obtain ⟨hne, hd⟩ : r ≠ .ectrl ∧ r.ofDesign = false := by simpa [mayWrite] using hr
    rcases hu with ⟨c', -, rfl⟩ | ⟨c', k, d, q, -, rfl⟩
    · exact readReg_of_ne_ectrl (s.unit _) hne ..
    · exact (readReg_of_not_design { s.unit _ with curve := c', kind := k } hd d q _).trans
        (readReg_of_ne_ectrl (s.unit _) hne ..)
  | setSrc =>
    obtain rfl := Option.some.inj hi
    obtain ⟨-, rfl⟩ := hu
    exact readReg_of_ne_esrc (s.unit _) (ne_of_mayWrite (by simp [mayWrite]) hr) ..
  | setPair =>
    obtain rfl := Option.some.inj hi
    obtain ⟨-, -, -, rfl⟩ := hu
    exact readReg_of_ne_esrc (s.unit _) (ne_of_mayWrite (by simp [mayWrite]) hr) ..
  | cfgBiq =>
    obtain rfl := Option.some.inj hi
    obtain ⟨hne, hd⟩ : r ≠ .ectrl ∧ r.ofDesign = false := by simpa [mayWrite] using hr
    obtain ⟨k, d, q, -, rfl⟩ := hu
    exact (readReg_of_not_design { s.unit _ with kind := k } hd d q _).trans (readReg_of_ne_ectrl (s.unit _) hne ..)
  | cfgFilt =>
    obtain rfl := Option.some.inj hi
    obtain ⟨d, q, rfl⟩ := hu
    exact readReg_of_not_design _ (by simpa [mayWrite] using hr) ..
  | update =>
    obtain rfl := Option.some.inj hi
    obtain ⟨l, w, rfl⟩ := hu
    exact readReg_of_not_tick _ (by simpa [mayWrite] using hr) ..
  | _ => exact hu.elim

theorem readReg_of_unitAfter (h : UnitAfter i s e u) (hr : mayWrite i (.unit e r) = false) :
    u.readReg r = (s.unit e).readReg r := by
  cases h with
  | kept => rfl
  | written u hi hu => exact readReg_of_unitStep hi hu hr
  | filtered w hi =>
    subst hi
    exact readReg_of_not_tap _ (ne_of_mayWrite (by simp [mayWrite]) hr) (ne_of_mayWrite (by simp [mayWrite]) hr) w
  | ticked l w hi =>
    subst hi
    exact readReg_of_not_tick _ hr l w

/-- Every command but NOP and UPDATE_ALL can be refused, and so write STATUS (R172). -/
theorem mayWrite_status (h : mayWrite i .status = false) : i = .nop ∨ i = .updateAll := by
  cases i with
  | nop => exact .inl rfl
  | updateAll => exact .inr rfl
  | _ => cases h

/-- A register a command may not write reads after it as before. -/
theorem readReg_of_performed (h : Performed i s t) {r : Reg} (hr : mayWrite i r = false) : t.readReg r = s.readReg r := by
  have hframe := performed_frame h
  cases r with
  | cmd => rfl
  | reserved => rfl
  | status => exact congrArg Status.toWord (performed_status h (mayWrite_status hr))
  | fs => exact (congrArg State.fs hframe :)
  | argF => exact (congrArg State.argF hframe :)
  | argQ => exact (congrArg State.argQ hframe :)
  | argX => exact (congrArg State.argX hframe :)
  | params => exact congrArg paramsWord (performed_params h)
  | unit e r => exact readReg_of_unitAfter (unitAfter_of_performed h e) hr
  | biqY =>
    rcases performed_biqY h with hy | ⟨e, rfl⟩
    · exact hy
    · cases hr
  | result =>
    rcases performed_output h with ⟨hres, -⟩ | ⟨e, ch, v, rfl, -⟩
    · exact congrArg Result.toWord hres
    · cases hr
  | lastSent ch =>
    refine congrArg lastSentWord (Classical.byContradiction fun hne => ?_)
    obtain ⟨e, v, nv, rfl, -⟩ := performed_cache h ch hne
    simp [mayWrite] at hr

end

/-- Settles O20: a command leaves every register it may not write, and the model's own fields are in the frame. -/
theorem commandsWriteOnlyTheirRegisters : Obligations.CommandsWriteOnlyTheirRegisters := by
  intro i s
  obtain ⟨t, hx, hp⟩ := exec_performed i s
  have hframe := performed_frame hp
  refine ⟨t, hx, fun index hr => ?_, performed_params hp, (congrArg State.readLog hframe :),
    (congrArg State.port hframe :), (congrArg State.environ hframe :), (congrArg State.seqNo hframe :)⟩
  rw [regRead_eq, regRead_eq, performed_params hp]
  exact readReg_of_performed hp hr

/-! ### The packed words (R22, R28, R29, R31-R37) -/

/-- The parts of a word laid side by side, as a number. -/
theorem append_toNat_eq_add {m n : Nat} (x : BitVec m) (y : BitVec n) : (x ++ y).toNat = x.toNat * 2 ^ n + y.toNat := by
  rw [BitVec.toNat_append, ← Nat.shiftLeft_add_eq_or_of_lt y.isLt, Nat.shiftLeft_eq]

theorem statusWord_toNat (st : Status) :
    st.toWord.toNat = st.fclamp.toNat + 2 * st.earg.toNat + 4 * st.einval.toNat + 8 * st.ecmd.toNat := by
  simp only [Status.toWord, append_toNat_eq_add, BitVec.toNat_ofBool, BitVec.toNat_ofNat]
  omega

theorem resultWord_toNat (r : Result) :
    r.toWord.toNat = r.value.toNat + 256 * r.changed.toNat + 65536 * r.ch.toNat := by
  simp only [Result.toWord, append_toNat_eq_add, BitVec.toNat_ofBool, BitVec.toNat_ofNat]
  omega

/-- The parameters of a legal configuration fit their fields (R6, R29). -/
theorem paramsWord_toNat {p : Params} (hp : Legal p) : (paramsWord p).toNat = p.nEnv + 256 * p.nSrc + 65536 * p.nCh := by
  obtain ⟨-, henv, -, hsrc, -, hch, -⟩ := hp
  simp only [paramsWord, append_toNat_eq_add, BitVec.toNat_ofNat]
  omega

theorem modeBit_toNat (m : Mode) : (modeBit m).toNat = m.code := by cases m <;> rfl

theorem curve_code_lt (c : Curve) : c.code < 8 := by cases c <;> decide

theorem method_code_lt (m : Method) : m.code < 8 := by cases m <;> decide

theorem kind_code_lt (k : Kind) : k.code < 4 := by cases k <;> decide

/-- The codes fit their fields of ECTRL (R75). -/
theorem ctrlWord_toNat (u : EnvUnit) :
    u.ctrlWord.toNat = u.active.toNat + 2 * u.mode.code + 4 * u.kind.code + 16 * u.curve.code + 256 * u.method.code := by
  have hc := curve_code_lt u.curve
  have hm := method_code_lt u.method
  have hk := kind_code_lt u.kind
  simp only [EnvUnit.ctrlWord, append_toNat_eq_add, BitVec.toNat_ofBool, BitVec.toNat_ofNat, modeBit_toNat]
  omega

theorem srcWord_toNat (u : EnvUnit) : u.srcWord.toNat = u.src.toNat + 256 * u.pairA.toNat + 65536 * u.pairB.toNat := by
  simp only [EnvUnit.srcWord, append_toNat_eq_add, BitVec.toNat_ofNat]
  omega

/-- Reading a unit register by its place in the map (R53). -/
theorem regRead_unit (s : State) {e : Nat} (hp : Legal s.params) (he : e < s.params.nEnv) (r : UnitReg) :
    s.regRead (BitVec.ofNat 9 (64 + 16 * e + r.offset)) = (s.unit e).readReg r := by
  obtain ⟨-, henv, -⟩ := hp
  exact congrArg s.readReg (regAt_index_unit s.params e r henv he)

/-- ESRC stands one word above ECTRL (R53). -/
theorem regRead_esrc (s : State) {e : Nat} (hp : Legal s.params) (he : e < s.params.nEnv) :
    s.regRead (BitVec.ofNat 9 (65 + 16 * e)) = (s.unit e).srcWord := by
  rw [show 65 + 16 * e = 64 + 16 * e + 1 by omega]
  exact regRead_unit s hp he .esrc

/-- Settles O12: each packed register reads as its word, and each word is the sum of its fields. -/
theorem packedRegisterFields : Obligations.PackedRegisterFields := by
  intro s hp
  refine ⟨statusWord_toNat s.status, resultWord_toNat s.result, paramsWord_toNat hp, fun e he => ⟨?_, ?_⟩⟩
  · exact (congrArg BitVec.toNat (regRead_unit s hp he .ectrl)).trans (ctrlWord_toNat _)
  · exact (congrArg BitVec.toNat (regRead_esrc s hp he)).trans (srcWord_toNat _)

/-- Settles O25: no step changes the configuration, and PARAMS is read from it alone. -/
theorem parametersNeverChange : Obligations.ParametersNeverChange :=
  ⟨fun _ _ h => ⟨step_params h, congrArg paramsWord (step_params h)⟩, fun _ hp => paramsWord_toNat hp⟩

/-! ### The reset values (R45) -/

/-- STATUS after reset. -/
theorem statusWord_reset (p : Params) : (State.resetWith p).status.toWord = 0#32 :=
  BitVec.eq_of_toNat_eq (statusWord_toNat _)

/-- RESULT after reset. -/
theorem resultWord_reset (p : Params) : (State.resetWith p).result.toWord = 0#32 :=
  BitVec.eq_of_toNat_eq (resultWord_toNat _)

/-- The registers of a unit after reset that read 0: all but ESRC and B0. -/
theorem readReg_reset_zero (p : Params) (e : Nat) {r : UnitReg} (hs : r ≠ .esrc) (hb : r ≠ .b0) :
    (EnvUnit.reset p e).readReg r = 0#32 := by
  cases r with
  | esrc => exact absurd rfl hs
  | b0 => exact absurd rfl hb
  | ectrl => exact BitVec.eq_of_toNat_eq (ctrlWord_toNat _)
  | _ => rfl

/-- ESRC after reset: the unit's own source and the pair (0, 1). -/
theorem srcWord_reset {p : Params} (hp : Legal p) (e : Nat) :
    (EnvUnit.reset p e).srcWord = BitVec.ofNat 32 (0x00010000 + e % p.nSrc) := by
  obtain ⟨-, -, htwo, hsrc, -⟩ := id hp
  have hmod : e % p.nSrc < p.nSrc := Nat.mod_lt _ (by omega)
  have hk : (EnvUnit.reset p e).src.toNat = e % p.nSrc := sourceIndex_toNat hp hmod
  have ha : (EnvUnit.reset p e).pairA.toNat = 0 := rfl
  have hb : (EnvUnit.reset p e).pairB.toNat = 1 := rfl
  apply BitVec.eq_of_toNat_eq
  rw [srcWord_toNat, hk, ha, hb, BitVec.toNat_ofNat]
  omega

/-- The reset input leaves each unit a reset unit (R190). -/
theorem unit_resetBlock (s : State) (e : Nat) : s.resetBlock.unit e = EnvUnit.reset s.params e :=
  unit_resetWith s.params e

theorem lastSentAt_resetBlock (s : State) (ch : Nat) : s.resetBlock.lastSentAt ch = none :=
  lastSentAt_resetWith s.params ch

/-- A unit register of the block after the reset input. -/
theorem regRead_resetBlock_unit (s : State) {e : Nat} (hp : Legal s.params) (he : e < s.params.nEnv) (r : UnitReg) :
    s.resetBlock.regRead (BitVec.ofNat 9 (64 + 16 * e + r.offset)) = (EnvUnit.reset s.params e).readReg r := by
  rw [← unit_resetBlock s e]
  exact regRead_unit s.resetBlock hp he r

/-- A word offset of a unit that reads 0 after reset carries such a register. -/
theorem regRead_resetBlock_zero (s : State) {e : Nat} (hp : Legal s.params) (he : e < s.params.nEnv) {k : Nat}
    (hk : k ∈ [2, 3, 4, 6, 7, 8, 9, 10, 11]) : s.resetBlock.regRead (BitVec.ofNat 9 (64 + 16 * e + k)) = 0#32 := by
  obtain ⟨r, rfl, hs, hb⟩ : ∃ r : UnitReg, k = r.offset ∧ r ≠ .esrc ∧ r ≠ .b0 := by
    simp only [List.mem_cons, List.not_mem_nil, or_false] at hk
    rcases hk with rfl | rfl | rfl | rfl | rfl | rfl | rfl | rfl | rfl
    · exact ⟨.elevel, by decide⟩
    · exact ⟨.efreq, by decide⟩
    · exact ⟨.eq, by decide⟩
    · exact ⟨.b1, by decide⟩
    · exact ⟨.b2, by decide⟩
    · exact ⟨.a1, by decide⟩
    · exact ⟨.a2, by decide⟩
    · exact ⟨.w1, by decide⟩
    · exact ⟨.w2, by decide⟩
  rw [regRead_resetBlock_unit s hp he r]
  exact readReg_reset_zero s.params e hs hb

/-- The registers of one unit after the reset input, in the words of R45. -/
theorem regRead_resetBlock_unit_values (s : State) (hp : Legal s.params) {e : Nat} (he : e < s.params.nEnv) :
    s.resetBlock.regRead (BitVec.ofNat 9 (64 + 16 * e)) = 0#32 ∧
    s.resetBlock.regRead (BitVec.ofNat 9 (65 + 16 * e)) = BitVec.ofNat 32 (0x00010000 + e % s.params.nSrc) ∧
    s.resetBlock.regRead (BitVec.ofNat 9 (69 + 16 * e)) = 0x3F800000#32 ∧
    ∀ k ∈ [2, 3, 4, 6, 7, 8, 9, 10, 11], s.resetBlock.regRead (BitVec.ofNat 9 (64 + 16 * e + k)) = 0#32 := by
  refine ⟨?_, ?_, ?_, fun k hk => regRead_resetBlock_zero s hp he hk⟩
  · exact (regRead_resetBlock_unit s hp he .ectrl).trans (readReg_reset_zero _ _ (by decide) (by decide))
  · rw [← srcWord_reset hp, ← unit_resetBlock s e]
    exact regRead_esrc s.resetBlock hp he
  · rw [show 69 + 16 * e = 64 + 16 * e + 5 by omega]
    exact regRead_resetBlock_unit s hp he .b0

/-- A cache entry after the reset input reads 0xFF (R42). -/
theorem regRead_resetBlock_lastSent (s : State) (hp : Legal s.params) {ch : Nat} (hc : ch < s.params.nCh) :
    s.resetBlock.regRead (BitVec.ofNat 9 (256 + ch)) = 0x000000FF#32 := by
  obtain ⟨-, -, -, -, -, hch, -⟩ := hp
  have hat : Reg.at s.resetBlock.params (BitVec.ofNat 9 (256 + ch)) = .lastSent ch := regAt_lastSent s.params ch hch hc
  rw [regRead_eq, hat]
  exact congrArg lastSentWord (lastSentAt_resetBlock s ch)

/-- Settles O13: the step takes the reset input from the port, and the reset block reads as R45 says, register by register. -/
theorem resetLeavesTheResetValues : Obligations.ResetLeavesTheResetValues := by
  intro s env rest hp hport
  refine ⟨(s.accept { access := .reset, environ := env } rest).resetBlock, step_of_port hport, rfl, rfl,
    statusWord_reset s.params, rfl, rfl, rfl, rfl, rfl, resultWord_reset s.params, rfl, fun e he => ?_, fun ch hc => ?_⟩
  · exact regRead_resetBlock_unit_values _ hp he
  · exact regRead_resetBlock_lastSent _ hp hc

end Sys2Proof.Machine
end

section
/-! PROOFS. A command on one unit reads and writes no other (R21): two states that agree on the unit and outside the units
still agree there after it. -/

namespace Sys2Proof.Machine

/-- `t` is `s` but for units other than `e`: the same outside the units, as many units, and the same unit `e`. -/
structure SameAt (e : Nat) (s t : State) : Prop where
  outside : { t with units := s.units } = s
  count : t.units.length = s.units.length
  unit : t.unit e = s.unit e

/-- Two outcomes are next states that agree on unit `e` and outside the units. -/
def AgreeAt (e : Nat) (o o' : Host.Outcome State Fault Refusal) : Prop :=
  ∃ t t', o = .next t ∧ o' = .next t' ∧ SameAt e t t'

/-! ### What the shared operations keep alike -/

section
variable {e : Nat} {s t : State} (h : SameAt e s t)
include h

/-- Unit `e` stands in both lists alike, or in neither. -/
theorem getElem?_sameAt : t.units[e]? = s.units[e]? := by
  rcases Nat.lt_or_ge e s.units.length with hlt | hge
  · have hlt' : e < t.units.length := h.count ▸ hlt
    simpa [State.unit, hlt, hlt'] using h.unit
  · rw [List.getElem?_eq_none hge, List.getElem?_eq_none (h.count ▸ hge)]

theorem sameAt_setFlag (f : Flag) : SameAt e (s.setFlag f) (t.setFlag f) :=
  ⟨congrArg (State.setFlag · f) h.outside, h.count, h.unit⟩

theorem sameAt_setUnit (u : EnvUnit) : SameAt e (s.setUnit e u) (t.setUnit e u) := by
  refine ⟨congrArg (State.setUnit · e u) h.outside, by simp [h.count], ?_⟩
  rcases Nat.lt_or_ge e s.units.length with hlt | hge
  · rw [unit_setUnit_self s e u hlt, unit_setUnit_self t e u (h.count ▸ hlt)]
  · have hge' : t.units.length ≤ e := h.count ▸ hge
    simpa [State.setUnit, List.set_eq_of_length_le, hge, hge'] using h.unit

theorem sameAt_setLevel (l : Level) : SameAt e (s.setLevel e l) (t.setLevel e l) := by
  simp only [State.setLevel, h.unit]
  exact sameAt_setUnit h _

theorem sameAt_setCurve (c : Curve) : SameAt e (s.setCurve e c) (t.setCurve e c) := by
  simp only [State.setCurve, h.unit]
  exact sameAt_setUnit h _

/-- The free NaN patterns belong to the step, not to the units (log 5). -/
theorem settle_sameAt (e' : Nat) (r : NanSlot) (v : F32) : t.settle e' r v = s.settle e' r v :=
  (congrArg (State.settle · e' r v) h.outside :)

theorem sameAt_storeDesign (k : Kind) (q : F32) (d : Designed) :
    SameAt e (s.storeDesign e k q d) (t.storeDesign e k q d) := by
  have hc : t.settleCoeffs e d.coef = s.settleCoeffs e d.coef :=
    (congrArg (State.settleCoeffs · e d.coef) h.outside :)
  simp only [State.storeDesign, h.unit, hc]
  split
  · exact sameAt_setFlag (sameAt_setUnit h _) .fclamp
  · exact sameAt_setUnit h _

theorem process_output_sameAt (x : F32) : (t.process e x).1 = (s.process e x).1 := by
  rw [(process_spec t e x).1, (process_spec s e x).1, h.unit]

theorem sameAt_process (x : F32) : SameAt e (s.process e x).2 (t.process e x).2 := by
  rw [(process_spec t e x).2, (process_spec s e x).2, h.unit, settle_sameAt h]
  exact sameAt_setUnit h _

theorem sameAt_result (r : Result) : SameAt e { s with result := r } { t with result := r } :=
  ⟨congrArg (fun x : State => { x with result := r }) h.outside, h.count, h.unit⟩

theorem sameAt_biqY (y : F32) : SameAt e { s with biqY := y } { t with biqY := y } :=
  ⟨congrArg (fun x : State => { x with biqY := y }) h.outside, h.count, h.unit⟩

theorem sameAt_emit (ch : Nat) (v : Level) : SameAt e (s.emit ch v) (t.emit ch v) :=
  ⟨congrArg (State.emit · ch v) h.outside, h.count, h.unit⟩

/-- An APPLY reads its unit's level and the cache, and writes outside the units (R160). -/
theorem sameAt_applied (ch v : Nat) : SameAt e (applied s e ch v) (applied t e ch v) := by
  have hlast : t.lastSentAt ch = s.lastSentAt ch := (congrArg (State.lastSentAt · ch) h.outside :)
  by_cases hs : s.lastSentAt ch = some (applyValue v (s.unit e).level)
  · have ht : t.lastSentAt ch = some (applyValue v (t.unit e).level) := by rw [hlast, h.unit, hs]
    rw [applied_same s e ch v hs, applied_same t e ch v ht, h.unit]
    exact sameAt_result h _
  · have ht : t.lastSentAt ch ≠ some (applyValue v (t.unit e).level) := by rwa [hlast, h.unit]
    rw [applied_changed s e ch v hs, applied_changed t e ch v ht, h.unit]
    exact sameAt_result (sameAt_emit h ch _) _

/-- A tick of a unit reads that unit and what is outside the units (R128). -/
theorem sameAt_tickUnit : SameAt e (s.tickUnit e) (t.tickUnit e) := by
  obtain ⟨-, hs⟩ := tickUnit_frame s e
  obtain ⟨-, ht⟩ := tickUnit_frame t e
  refine ⟨?_, by simp only [tickUnit_length, h.count], ?_⟩
  · calc { t.tickUnit e with units := (s.tickUnit e).units }
      _ = { { t.tickUnit e with units := t.units } with units := (s.tickUnit e).units } := rfl
      _ = { { t with units := s.units } with units := (s.tickUnit e).units } := by rw [ht]
      _ = { s with units := (s.tickUnit e).units } := by rw [h.outside]
      _ = s.tickUnit e := (eq_with_units hs).symm
  · rw [eq_with_units h.outside]
    exact tickUnit_local s e t.units h.count (getElem?_sameAt h)

/-! ### The commands -/

theorem agreeAt_refuse (f : Flag) : AgreeAt e (refuse f s) (refuse f t) :=
  ⟨_, _, rfl, rfl, sameAt_setFlag h f⟩

theorem agreeAt_next : AgreeAt e (.next s) (.next t) := ⟨s, t, rfl, rfl, h⟩

/-- Which units there are is outside the units (R20), so both runs act on the unit or both refuse. -/
theorem agreeAt_onUnit {act act' : EnvUnit → Host.Outcome State Fault Refusal}
    (hact : AgreeAt e (act (s.unit e)) (act' (s.unit e))) : AgreeAt e (onUnit e s act) (onUnit e t act') := by
  have henv : t.envOk e = s.envOk e := (congrArg (State.envOk · e) h.outside :)
  simp only [onUnit, henv, h.unit]
  split
  · exact hact
  · exact agreeAt_refuse h .einval

/-- A staged design reads the staging registers and FS, which are outside the units (R106, R107). -/
theorem agreeAt_designStaged (k : Kind) : AgreeAt e (designStaged e k s) (designStaged e k t) := by
  have ht := eq_with_units h.outside
  generalize t.units = us at ht
  subst ht
  simp only [designStaged]
  split
  · exact agreeAt_next (sameAt_storeDesign h ..)
  · exact agreeAt_refuse h .earg

/-- SET_CURVE reads FS and its unit (R124). -/
theorem agreeAt_setCurve (c : Option Curve) : AgreeAt e (execSetCurve e c s) (execSetCurve e c t) := by
  have ht := eq_with_units h.outside
  generalize t.units = us at ht
  subst ht
  refine agreeAt_onUnit h ?_
  cases c with
  | none => exact agreeAt_refuse h .einval
  | some c =>
    dsimp only
    cases curveKind c with
    | none => exact agreeAt_next (sameAt_setCurve h c)
    | some k =>
      dsimp only
      split
      · exact agreeAt_next (sameAt_setCurve (sameAt_storeDesign h ..) c)
      · exact agreeAt_refuse h .earg

/-- BIQ_PROC reads ARG_X and its unit (R108). -/
theorem agreeAt_biqProc : AgreeAt e (execBiqProc e s) (execBiqProc e t) := by
  have hx : t.argX = s.argX := (congrArg State.argX h.outside :)
  refine agreeAt_onUnit h ?_
  simp only [hx, process_output_sameAt h, settle_sameAt h]
  exact agreeAt_next (sameAt_biqY (sameAt_process h _) _)

/-- SET_SRC reads N_SRC (R126). -/
theorem agreeAt_setSrc (k : Nat) : AgreeAt e (execSetSrc e k s) (execSetSrc e k t) := by
  have hok : t.srcOk k = s.srcOk k := (congrArg (State.srcOk · k) h.outside :)
  refine agreeAt_onUnit h ?_
  simp only [hok]
  split
  · exact agreeAt_next (sameAt_setUnit h _)
  · exact agreeAt_refuse h .einval

/-- SET_PAIR reads N_SRC (R127). -/
theorem agreeAt_setPair (a b : Nat) : AgreeAt e (execSetPair e a b s) (execSetPair e a b t) := by
  have hok : t.pairOk a b = s.pairOk a b := (congrArg (State.pairOk · a b) h.outside :)
  refine agreeAt_onUnit h ?_
  simp only [hok]
  split
  · exact agreeAt_next (sameAt_setUnit h _)
  · exact agreeAt_refuse h .einval

/-- APPLY reads N_CH, the cache and its unit (R160). -/
theorem agreeAt_applyOut (ch v : Nat) : AgreeAt e (execApplyOut e ch v s) (execApplyOut e ch v t) := by
  have hok : t.chOk ch = s.chOk ch := (congrArg (State.chOk · ch) h.outside :)
  have happ := sameAt_applied h ch v
  simp only [applied, h.unit] at happ
  refine agreeAt_onUnit h ?_
  simp only [hok]
  split
  · exact agreeAt_next happ
  · exact agreeAt_refuse h .einval

/-- SET_ACTIVE reads its unit (R122). -/
theorem agreeAt_setActive (b : Bool) : AgreeAt e (execSetActive e b s) (execSetActive e b t) :=
  agreeAt_onUnit h (agreeAt_next (sameAt_setUnit h _))

/-- SET_MODE reads its unit (R123). -/
theorem agreeAt_setMode (m : Mode) : AgreeAt e (execSetMode e m s) (execSetMode e m t) :=
  agreeAt_onUnit h (agreeAt_next (sameAt_setUnit h _))

/-- CFG_FILT reads its unit's kind, and designs from outside the units (R107). -/
theorem agreeAt_cfgFilt : AgreeAt e (execCfgFilt e s) (execCfgFilt e t) :=
  agreeAt_onUnit h (agreeAt_designStaged h _)

/-- UPDATE ticks its unit (R128). -/
theorem agreeAt_update : AgreeAt e (execUpdate e s) (execUpdate e t) :=
  agreeAt_onUnit h (agreeAt_next (sameAt_tickUnit h))

/-- SET_METHOD reads its unit (R125). -/
theorem agreeAt_setMethod (m : Option Method) : AgreeAt e (execSetMethod e m s) (execSetMethod e m t) := by
  refine agreeAt_onUnit h ?_
  cases m with
  | none => exact agreeAt_refuse h .einval
  | some m => exact agreeAt_next (sameAt_setUnit h _)

/-- CFG_BIQ designs from outside the units (R106). -/
theorem agreeAt_cfgBiq (k : Option Kind) : AgreeAt e (execCfgBiq e k s) (execCfgBiq e k t) := by
  refine agreeAt_onUnit h ?_
  cases k with
  | none => exact agreeAt_refuse h .einval
  | some k => exact agreeAt_designStaged h k

/-- A command that names unit `e` reads that unit and what is outside the units, and nothing else (R21). -/
theorem agreeAt_exec {i : Instr} (hi : unitOf i = some e) : AgreeAt e (exec i s) (exec i t) := by
  cases i with
  | nop => cases hi
  | updateAll => cases hi
  | setActive _ b => cases hi; exact agreeAt_setActive h b
  | setMode _ m => cases hi; exact agreeAt_setMode h m
  | setCurve _ c => cases hi; exact agreeAt_setCurve h c
  | setMethod _ m => cases hi; exact agreeAt_setMethod h m
  | setSrc _ k => cases hi; exact agreeAt_setSrc h k
  | setPair _ a b => cases hi; exact agreeAt_setPair h a b
  | cfgBiq _ k => cases hi; exact agreeAt_cfgBiq h k
  | cfgFilt => cases hi; exact agreeAt_cfgFilt h
  | biqProc => cases hi; exact agreeAt_biqProc h
  | update => cases hi; exact agreeAt_update h
  | applyOut _ ch v => cases hi; exact agreeAt_applyOut h ch v

end

/-- A command leaves every unit it does not name (R21). -/
theorem unitAfter_of_not_named {i : Instr} {s : State} {e e' : Nat} {u : EnvUnit} (hi : unitOf i = some e) (hne : e' ≠ e)
    (h : UnitAfter i s e' u) : u = s.unit e' := by
  cases h with
  | kept => rfl
  | written u hi' => exact absurd (Option.some.inj (hi'.symm.trans hi)) hne
  | filtered w hi' => subst hi'; exact absurd (Option.some.inj hi) hne
  | ticked l w hi' => subst hi'; cases hi

/-- Settles O21: the two runs agree on the named unit and outside the units, and the other units are kept. -/
theorem unitsAreIndependent : Obligations.UnitsAreIndependent := by
  intro i e s us hi hl hu
  have hsame : SameAt e s { s with units := us } := ⟨rfl, hl, by simp only [State.unit, hu]⟩
  obtain ⟨t, t', ht, ht', hagree⟩ := agreeAt_exec hsame hi
  refine ⟨t, t', ht, ht', fun e' hne => ?_, hagree.unit, ?_⟩
  · exact unitAfter_of_not_named hi hne (unitAfter_of_performed (performed_of_exec i s t ht) e')
  · exact (congrArg (fun x : State => { x with units := [] }) hagree.outside :)

end Sys2Proof.Machine
end

section
/-! PROOFS. The claims of 20_memory.md. A command word by its byte lanes (R55); what each register access does, by address
(R51-R53), from the map's equations of Laws/Port; and a command after a staging write (R57), from what one step does. -/

namespace Sys2Proof.Machine

/-! ### Byte lanes (R55) -/

/-- The four byte lanes laid side by side again are the word. -/
theorem wordOfBytes_byteLanes (w : Word) :
    wordOfBytes (byteLane w 0) (byteLane w 1) (byteLane w 2) (byteLane w 3) = w := by
  apply BitVec.eq_of_toNat_eq
  simp only [wordOfBytes, append_toNat_eq_add, byteLane, field_toNat]
  omega

theorem decode_wordBytes (w : Word) (rest : List Byte) : decode (wordBytes w ++ rest) = (decodeWord w).map (·, rest) := by
  simp only [wordBytes, List.cons_append, List.nil_append, decode, wordOfBytes_byteLanes]

/-- Settles O6: the byte decoder is the word decoder with the rest carried along. -/
theorem byteLanesCarryTheWord : Obligations.ByteLanesCarryTheWord := by
  intro w rest
  rw [decode_wordBytes]
  exact ⟨fun i hd => by rw [hd]; rfl, fun x hd => by rw [hd]; rfl⟩

/-! ### Register writes (R52) -/

/-- A byte address `4 * n` is word index `n`. -/
theorem index_of_address {i : BitVec 9} (n : Nat) (h : 4 * i.toNat = 4 * n) : i = BitVec.ofNat 9 n := by
  rw [← Nat.eq_of_mul_eq_mul_left (by decide) h, BitVec.ofNat_toNat, BitVec.setWidth_eq]

/-- A write reaches one of the six writable registers or leaves the state as it is. -/
theorem writeReg_readOnly {r : Reg} (h : r ∉ [Reg.cmd, .status, .fs, .argF, .argQ, .argX]) (v : Word) (s : State) :
    writeReg r v s = .next s := by
  cases r with
  | cmd | status | fs | argF | argQ | argX => simp at h
  | biqY | result | params | unit | lastSent | reserved => rfl

/-- Every index from 6 on holds a read-only register or nothing. -/
theorem regAt_readOnly (p : Params) {i : BitVec 9} (h : 6 ≤ i.toNat) :
    Reg.at p i ∉ [Reg.cmd, .status, .fs, .argF, .argQ, .argX] := by
  obtain ⟨hcmd, hstatus, hfs, hargF, hargQ, hargX⟩ := reg_at_writable p i
  simp only [List.mem_cons, List.not_mem_nil, or_false, hcmd, hstatus, hfs, hargF, hargQ, hargX]
  rintro (rfl | rfl | rfl | rfl | rfl | rfl) <;> exact absurd h (by decide)

/-- Settles O9: the step writes the register the map puts at the index; below 0x018 that is the register named, above it
one that ignores the write. -/
theorem registerWritesActByAddress : Obligations.RegisterWritesActByAddress := by
  intro s i v env rest hp a
  have hstep : step s = writeReg (Reg.at s.params i) v a := step_of_port hp
  obtain ⟨hcmd, hstatus, hfs, hargF, hargQ, hargX⟩ := reg_at_writable s.params i
  rw [hstep]
  refine ⟨fun h j hd => ?_, fun h => ?_, fun h => ?_, fun h => ?_, fun h => ?_, fun h => ?_, fun h => ?_⟩
  · rw [hcmd.mpr (index_of_address 0 h)]
    exact runCommand_of_decode hd a
  · rw [hstatus.mpr (index_of_address 1 h)]; rfl
  · rw [hfs.mpr (index_of_address 2 h)]; rfl
  · rw [hargF.mpr (index_of_address 3 h)]; rfl
  · rw [hargQ.mpr (index_of_address 4 h)]; rfl
  · rw [hargX.mpr (index_of_address 5 h)]; rfl
  · exact writeReg_readOnly (regAt_readOnly s.params (by omega)) v a

/-! ### Register reads (R51, R53) -/

theorem regRead_reserved {s : State} {i : BitVec 9} (h : Reg.at s.params i = .reserved) : s.regRead i = 0#32 := by
  rw [regRead_eq, h]
  rfl

/-- Settles O10: the step takes the read from the port and logs the register, which taking an access leaves as it reads. -/
theorem registerReadsHaveNoSideEffect : Obligations.RegisterReadsHaveNoSideEffect :=
  fun _ _ _ _ hp => ⟨step_of_port hp, regRead_reserved⟩

/-- The last four words of a unit's sixteen map nothing (R53). -/
theorem unitReg_ofOffset_none {k : Nat} (h : 12 ≤ k) : UnitReg.ofOffset k = none := by
  obtain ⟨j, rfl⟩ := Nat.exists_eq_add_of_le' h
  rfl

theorem regRead_unit_reserved (s : State) {e k : Nat} (hp : Legal s.params) (he : e < s.params.nEnv) (h12 : 12 ≤ k)
    (h16 : k < 16) : s.regRead (BitVec.ofNat 9 (64 + 16 * e + k)) = 0#32 := by
  obtain ⟨-, henv, -⟩ := hp
  apply regRead_reserved
  rw [regAt_unit s.params e k henv he h16, unitReg_ofOffset_none h12]
  rfl

/-- NONE reads as 0xFF (R42). -/
theorem lastSentWord_eq_elim (x : Option Level) : lastSentWord x = x.elim 0xFF#32 (·.setWidth 32) := by
  cases x <;> rfl

theorem regRead_lastSent (s : State) {ch : Nat} (hp : Legal s.params) (hc : ch < s.params.nCh) :
    s.regRead (BitVec.ofNat 9 (256 + ch)) = lastSentWord (s.lastSentAt ch) := by
  obtain ⟨-, -, -, -, -, hch, -⟩ := hp
  rw [regRead_eq, regAt_lastSent s.params ch hch hc]
  rfl

/-- Settles O11, range by range of the map: the global registers, the units, the cache, and the reserved words after each. -/
theorem registerMapByAddress : Obligations.RegisterMapByAddress := by
  intro s hp
  refine ⟨rfl, rfl, rfl, rfl, rfl, rfl, rfl, rfl, rfl, fun n h9 h64 => ?_, fun e he => ?_, fun n hn h256 => ?_,
    fun ch hc => ?_, fun ch hc h255 => ?_⟩
  · exact regRead_reserved (regAt_global_reserved s.params n h9 h64)
  · have unitWord := regRead_unit s hp he
    exact ⟨unitWord .ectrl, unitWord .esrc, unitWord .elevel, unitWord .efreq, unitWord .eq, unitWord .b0, unitWord .b1,
      unitWord .b2, unitWord .a1, unitWord .a2, unitWord .w1, unitWord .w2, fun _ => regRead_unit_reserved s hp he⟩
  · exact regRead_reserved (regAt_units_reserved s.params n hn h256)
  · rw [regRead_lastSent s hp hc, lastSentWord_eq_elim]
  · exact regRead_reserved (regAt_lastSent_reserved s.params ch hc h255)

/-! ### A command after a staging write (R57, R60) -/

/-- BIQ_PROC's word decodes back, for every unit index its field holds (R71, R76). -/
theorem decodeWord_encode_biqProc {e : Nat} (he : e < 8) : decodeWord (encode (.biqProc e)) = .ok (.biqProc e) := by
  have hop : opField (encode (.biqProc e)) = 0x09 := Laws.OpcodeField.biqProc e (decide_eq_true he)
  have henv : envField (encode (.biqProc e)) = e :=
    envField_packWord (Laws.OpcodeField.opcode_lt _) he (by decide) (by decide) (by decide)
  simp only [decodeWord, hop, henv]

/-- A run goes on from where its first step ends. -/
theorem run_succ_of_step {M : Host.Core} {s t : M.State} (k : Nat) (h : M.step s = .next t) : M.run (k + 1) s = M.run k t := by
  simp only [Host.Core.run, h]

/-- Writing ARG_X stores the value, takes the access from the port, and leaves the configuration and the units. -/
theorem step_write_argX {s : State} {v : Word} {env : Environ} {rest : List Event}
    (hp : s.port = { access := .write 5#9 v, environ := env } :: rest) :
    ∃ t, step s = .next t ∧ t.argX = v ∧ t.port = rest ∧ t.params = s.params ∧ t.units = s.units := by
  obtain ⟨-, -, -, -, -, hargX, -⟩ := registerWritesActByAddress s 5#9 v env rest hp
  exact ⟨_, hargX rfl, rfl, rfl, rfl, rfl⟩

/-- BIQ_PROC leaves ARG_X, and in W1 the internal signal of the sample it found there (R104, R108). -/
theorem exec_biqProc_holds_signal {s : State} {e : Nat} (he : e < s.params.nEnv) (hlen : e < s.units.length) :
    ∃ t, exec (.biqProc e) s = .next t ∧ t.argX = s.argX ∧
      Holds (dfSignal binary32 (s.unit e).coef (s.unit e).taps s.argX) (t.unit e).taps.w1 := by
  refine ⟨_, exec_biqProc he, rfl, ?_⟩
  change Holds _ ((s.process e s.argX).2.unit e).taps.w1
  rw [(process_spec s e s.argX).2, unit_setUnit_self s e _ hlen]
  exact holds_settle ..

/-- Settles O15: the first step leaves `v` in ARG_X and the units as they are, and BIQ_PROC processes what it finds there. -/
theorem commandSeesTheStagingWriteBefore : Obligations.CommandSeesTheStagingWriteBefore := by
  intro s v e env env' rest hinv he hp
  obtain ⟨-, henv, -⟩ := hinv.legal
  obtain ⟨a, hwrite, rfl, hport, hparams, hunits⟩ := step_write_argX hp
  obtain ⟨t, hexec, hkept, hsignal⟩ := exec_biqProc_holds_signal (e := e)
    (s := a.accept { access := .write 0#9 (encode (.biqProc e)), environ := env' } rest)
    (hparams ▸ he) (hunits ▸ hinv.unitCount ▸ he)
  have hcommand : step a = .next t :=
    (stepPerformsTheWrittenCommand a _ env' rest _ hport (decodeWord_encode_biqProc (he.trans_le henv))).trans hexec
  refine ⟨t, (run_succ_of_step 1 hwrite).trans (run_succ_of_step 0 hcommand), hkept, ?_⟩
  rw [← unit_congr hparams hunits e]
  exact hsignal

end Sys2Proof.Machine
end

section
/-! PROOFS. The claims of 30_encoding.md. The decoder as one equation per opcode (R76) and on a packed word (R73); the
round trip, which is the case of the words the encoder packs (R71, R82); and the bits a format does not use (R72, R79). -/

namespace Sys2Proof

/-! ### The decoder, one equation per opcode (R76) -/

section
variable {w : Word}

theorem decodeWord_nop (h : opField w = 0x00) : decodeWord w = .ok .nop := by
  simp only [decodeWord, h]

theorem decodeWord_setActive (h : opField w = 0x01) :
    decodeWord w = .ok (.setActive (envField w) (f0Low1 w == 1)) := by
  simp only [decodeWord, h]

theorem decodeWord_setMode (h : opField w = 0x02) :
    decodeWord w = .ok (.setMode (envField w) (Mode.ofCode (f0Low1 w))) := by
  simp only [decodeWord, h]

theorem decodeWord_setCurve (h : opField w = 0x03) :
    decodeWord w = .ok (.setCurve (envField w) (Curve.ofCode (f0Low3 w))) := by
  simp only [decodeWord, h]

theorem decodeWord_setMethod (h : opField w = 0x04) :
    decodeWord w = .ok (.setMethod (envField w) (Method.ofCode (f0Low3 w))) := by
  simp only [decodeWord, h]

theorem decodeWord_setSrc (h : opField w = 0x05) : decodeWord w = .ok (.setSrc (envField w) (f0Field w)) := by
  simp only [decodeWord, h]

theorem decodeWord_setPair (h : opField w = 0x06) :
    decodeWord w = .ok (.setPair (envField w) (f1Field w) (f0Field w)) := by
  simp only [decodeWord, h]

theorem decodeWord_cfgBiq (h : opField w = 0x07) :
    decodeWord w = .ok (.cfgBiq (envField w) (Kind.ofCode (f0Low2 w))) := by
  simp only [decodeWord, h]

theorem decodeWord_cfgFilt (h : opField w = 0x08) : decodeWord w = .ok (.cfgFilt (envField w)) := by
  simp only [decodeWord, h]

theorem decodeWord_biqProc (h : opField w = 0x09) : decodeWord w = .ok (.biqProc (envField w)) := by
  simp only [decodeWord, h]

theorem decodeWord_update (h : opField w = 0x0A) : decodeWord w = .ok (.update (envField w)) := by
  simp only [decodeWord, h]

theorem decodeWord_updateAll (h : opField w = 0x0B) : decodeWord w = .ok .updateAll := by
  simp only [decodeWord, h]

theorem decodeWord_applyOut (h : opField w = 0x0C) :
    decodeWord w = .ok (.applyOut (envField w) (f2Field w) (f0Field w)) := by
  simp only [decodeWord, h]

/-- The opcodes from 0x0D on are reserved (R77). -/
theorem decodeWord_reserved (h : 13 ≤ opField w) : decodeWord w = .error (.reservedOpcode (opField w)) := by
  unfold decodeWord
  split
  case h_14 => rfl
  all_goals omega

end

/-! ### Well-formedness as bounds on the operands (R71, R73) -/

theorem wellFormed_setSrc {e k : Nat} : (Instr.setSrc e k).wellFormed = true ↔ e < 8 ∧ k < 256 := by
  simp only [Instr.wellFormed, fitsEnv, fitsByte, Bool.and_eq_true, decide_eq_true_eq]

theorem wellFormed_setPair {e a b : Nat} : (Instr.setPair e a b).wellFormed = true ↔ e < 8 ∧ a < 256 ∧ b < 256 := by
  simp only [Instr.wellFormed, fitsEnv, fitsByte, Bool.and_eq_true, decide_eq_true_eq, and_assoc]

theorem wellFormed_applyOut {e ch v : Nat} :
    (Instr.applyOut e ch v).wellFormed = true ↔ e < 8 ∧ ch < 256 ∧ v < 256 := by
  simp only [Instr.wellFormed, fitsEnv, fitsByte, Bool.and_eq_true, decide_eq_true_eq, and_assoc]

theorem envField_lt (w : Word) : envField w < 8 := BitVec.isLt _
theorem f2Field_lt (w : Word) : f2Field w < 256 := BitVec.isLt _
theorem f1Field_lt (w : Word) : f1Field w < 256 := BitVec.isLt _
theorem f0Field_lt (w : Word) : f0Field w < 256 := BitVec.isLt _

/-- Every opcode of the table decodes, to a well-formed command of that opcode (R76). -/
theorem exists_decodeWord_of_opField_lt {w : Word} (h : opField w < 13) :
    ∃ i, decodeWord w = .ok i ∧ i.opcode = opField w ∧ i.wellFormed = true := by
  have he : fitsEnv (envField w) = true := decide_eq_true (envField_lt w)
  interval_cases hop : opField w
  · exact ⟨_, decodeWord_nop hop, rfl, rfl⟩
  · exact ⟨_, decodeWord_setActive hop, rfl, he⟩
  · exact ⟨_, decodeWord_setMode hop, rfl, he⟩
  · exact ⟨_, decodeWord_setCurve hop, rfl, he⟩
  · exact ⟨_, decodeWord_setMethod hop, rfl, he⟩
  · exact ⟨_, decodeWord_setSrc hop, rfl, wellFormed_setSrc.mpr ⟨envField_lt w, f0Field_lt w⟩⟩
  · exact ⟨_, decodeWord_setPair hop, rfl, wellFormed_setPair.mpr ⟨envField_lt w, f1Field_lt w, f0Field_lt w⟩⟩
  · exact ⟨_, decodeWord_cfgBiq hop, rfl, he⟩
  · exact ⟨_, decodeWord_cfgFilt hop, rfl, he⟩
  · exact ⟨_, decodeWord_biqProc hop, rfl, he⟩
  · exact ⟨_, decodeWord_update hop, rfl, he⟩
  · exact ⟨_, decodeWord_updateAll hop, rfl, rfl⟩
  · exact ⟨_, decodeWord_applyOut hop, rfl, wellFormed_applyOut.mpr ⟨envField_lt w, f2Field_lt w, f0Field_lt w⟩⟩

/-- Settles O2: the table's opcodes decode, and the others are reserved. -/
theorem opcodeSelectsTheCommand : Obligations.OpcodeSelectsTheCommand :=
  fun _ => ⟨exists_decodeWord_of_opField_lt, decodeWord_reserved⟩

/-! ### The decoder on a packed word (R73) -/

section
variable {e f2 f1 f0 : Nat} (he : e < 8) (h2 : f2 < 256) (h1 : f1 < 256) (h0 : f0 < 256)
include he h2 h1 h0

theorem decodeWord_packWord_setActive :
    decodeWord (packWord 0x01 e f2 f1 f0) = .ok (.setActive e (decide (f0 % 2 = 1))) := by
  rw [decodeWord_setActive (opField_packWord (by decide) he h2 h1 h0), envField_packWord (by decide) he h2 h1 h0,
    f0Low1_packWord (by decide) he h2 h1 h0]
  rfl

theorem decodeWord_packWord_setMode :
    decodeWord (packWord 0x02 e f2 f1 f0) = .ok (.setMode e (Mode.ofCode (f0 % 2))) := by
  rw [decodeWord_setMode (opField_packWord (by decide) he h2 h1 h0), envField_packWord (by decide) he h2 h1 h0,
    f0Low1_packWord (by decide) he h2 h1 h0]

theorem decodeWord_packWord_setCurve :
    decodeWord (packWord 0x03 e f2 f1 f0) = .ok (.setCurve e (Curve.ofCode (f0 % 8))) := by
  rw [decodeWord_setCurve (opField_packWord (by decide) he h2 h1 h0), envField_packWord (by decide) he h2 h1 h0,
    f0Low3_packWord (by decide) he h2 h1 h0]

theorem decodeWord_packWord_setMethod :
    decodeWord (packWord 0x04 e f2 f1 f0) = .ok (.setMethod e (Method.ofCode (f0 % 8))) := by
  rw [decodeWord_setMethod (opField_packWord (by decide) he h2 h1 h0), envField_packWord (by decide) he h2 h1 h0,
    f0Low3_packWord (by decide) he h2 h1 h0]

theorem decodeWord_packWord_setSrc : decodeWord (packWord 0x05 e f2 f1 f0) = .ok (.setSrc e f0) := by
  rw [decodeWord_setSrc (opField_packWord (by decide) he h2 h1 h0), envField_packWord (by decide) he h2 h1 h0,
    f0Field_packWord (by decide) he h2 h1 h0]

theorem decodeWord_packWord_setPair : decodeWord (packWord 0x06 e f2 f1 f0) = .ok (.setPair e f1 f0) := by
  rw [decodeWord_setPair (opField_packWord (by decide) he h2 h1 h0), envField_packWord (by decide) he h2 h1 h0,
    f1Field_packWord (by decide) he h2 h1 h0, f0Field_packWord (by decide) he h2 h1 h0]

theorem decodeWord_packWord_cfgBiq :
    decodeWord (packWord 0x07 e f2 f1 f0) = .ok (.cfgBiq e (Kind.ofCode (f0 % 4))) := by
  rw [decodeWord_cfgBiq (opField_packWord (by decide) he h2 h1 h0), envField_packWord (by decide) he h2 h1 h0,
    f0Low2_packWord (by decide) he h2 h1 h0]

theorem decodeWord_packWord_cfgFilt : decodeWord (packWord 0x08 e f2 f1 f0) = .ok (.cfgFilt e) := by
  rw [decodeWord_cfgFilt (opField_packWord (by decide) he h2 h1 h0), envField_packWord (by decide) he h2 h1 h0]

theorem decodeWord_packWord_biqProc : decodeWord (packWord 0x09 e f2 f1 f0) = .ok (.biqProc e) := by
  rw [decodeWord_biqProc (opField_packWord (by decide) he h2 h1 h0), envField_packWord (by decide) he h2 h1 h0]

theorem decodeWord_packWord_update : decodeWord (packWord 0x0A e f2 f1 f0) = .ok (.update e) := by
  rw [decodeWord_update (opField_packWord (by decide) he h2 h1 h0), envField_packWord (by decide) he h2 h1 h0]

theorem decodeWord_packWord_applyOut : decodeWord (packWord 0x0C e f2 f1 f0) = .ok (.applyOut e f2 f0) := by
  rw [decodeWord_applyOut (opField_packWord (by decide) he h2 h1 h0), envField_packWord (by decide) he h2 h1 h0,
    f2Field_packWord (by decide) he h2 h1 h0, f0Field_packWord (by decide) he h2 h1 h0]

end

/-! ### Enumeration codes read back (R75) -/

/-- F0[0] set is ARG. -/
theorem Mode.ofCode_mod_two (n : Nat) : Mode.ofCode (n % 2) = if n % 2 = 1 then .arg else .sef := by
  rcases Nat.mod_two_eq_zero_or_one n with h | h <;> rw [h] <;> rfl

theorem decide_bool_toNat_mod_two (b : Bool) : decide (b.toNat % 2 = 1) = b := by
  cases b <;> rfl

theorem Mode.ofCode_code (m : Mode) : Mode.ofCode (m.code % 2) = m := by
  cases m <;> rfl

/-- The encoder writes the reserved code 7 for `none`, and it reads back as none. -/
theorem Curve.ofCode_code (c : Option Curve) : Curve.ofCode (c.elim 7 Curve.code % 8) = c := by
  rcases c with _ | c
  · rfl
  · cases c <;> rfl

theorem Method.ofCode_code (m : Option Method) : Method.ofCode (m.elim 7 Method.code % 8) = m := by
  rcases m with _ | m
  · rfl
  · cases m <;> rfl

theorem Kind.ofCode_code (k : Option Kind) : Kind.ofCode (k.elim 3 Kind.code % 4) = k := by
  rcases k with _ | k
  · rfl
  · cases k <;> rfl

theorem mode_fits (m : Mode) : m.code < 256 := by
  cases m <;> decide

/-- Settles O3: the decoder on a packed word, command by command. -/
theorem operandsAreTheNamedFields : Obligations.OperandsAreTheNamedFields := by
  intro e f2 f1 f0 he h2 h1 h0
  rw [← Mode.ofCode_mod_two]
  exact ⟨decodeWord_packWord_setActive he h2 h1 h0, decodeWord_packWord_setMode he h2 h1 h0,
    decodeWord_packWord_setCurve he h2 h1 h0, decodeWord_packWord_setMethod he h2 h1 h0,
    decodeWord_packWord_setSrc he h2 h1 h0, decodeWord_packWord_setPair he h2 h1 h0,
    decodeWord_packWord_cfgBiq he h2 h1 h0, decodeWord_packWord_cfgFilt he h2 h1 h0,
    decodeWord_packWord_biqProc he h2 h1 h0, decodeWord_packWord_update he h2 h1 h0,
    decodeWord_packWord_applyOut he h2 h1 h0⟩

/-! ### The round trip (R71, R73, R76, R82) -/

open Laws.OpcodeField (curve_fits method_fits kind_fits)

/-- Settles O1: the encoder packs each operand where the decoder reads it, and each code reads back as what it names. -/
theorem decodeOfEncodeIsTheCommand : Obligations.DecodeOfEncodeIsTheCommand := by
  have zero : 0 < 256 := by decide
  intro i h
  cases i with
  | nop => rfl
  | updateAll => rfl
  | setActive e b =>
    exact (decodeWord_packWord_setActive (of_decide_eq_true h) zero zero (b.toNat_lt.trans (by decide))).trans
      (by rw [decide_bool_toNat_mod_two])
  | setMode e m =>
    exact (decodeWord_packWord_setMode (of_decide_eq_true h) zero zero (mode_fits m)).trans (by rw [Mode.ofCode_code])
  | setCurve e c =>
    exact (decodeWord_packWord_setCurve (of_decide_eq_true h) zero zero (curve_fits c)).trans
      (by rw [Curve.ofCode_code])
  | setMethod e m =>
    exact (decodeWord_packWord_setMethod (of_decide_eq_true h) zero zero (method_fits m)).trans
      (by rw [Method.ofCode_code])
  | cfgBiq e k =>
    exact (decodeWord_packWord_cfgBiq (of_decide_eq_true h) zero zero (kind_fits k)).trans (by rw [Kind.ofCode_code])
  | setSrc e k =>
    obtain ⟨he, hk⟩ := wellFormed_setSrc.mp h
    exact decodeWord_packWord_setSrc he zero zero hk
  | setPair e a b =>
    obtain ⟨he, ha, hb⟩ := wellFormed_setPair.mp h
    exact decodeWord_packWord_setPair he zero ha hb
  | cfgFilt e => exact decodeWord_packWord_cfgFilt (of_decide_eq_true h) zero zero zero
  | biqProc e => exact Machine.decodeWord_encode_biqProc (of_decide_eq_true h)
  | update e => exact decodeWord_packWord_update (of_decide_eq_true h) zero zero zero
  | applyOut e ch v =>
    obtain ⟨he, hch, hv⟩ := wellFormed_applyOut.mp h
    exact decodeWord_packWord_applyOut he hch zero hv

/-- Settles O5: the fourteen commands are well formed and encode to the words printed, so those decode back. -/
theorem workedEncodingsDecode : Obligations.WorkedEncodingsDecode := by
  intro c hc
  obtain ⟨hwf, henc⟩ : c.1.wellFormed = true ∧ encode c.1 = c.2 := by
    revert c
    decide
  exact ⟨henc, henc ▸ decodeOfEncodeIsTheCommand c.1 hwf, rfl⟩

/-! ### Ignored bits (R72, R79) -/

section
variable {w w' m : Word} (h : w &&& m = w' &&& m)
include h

/-- Words that agree under a mask agree on every field the mask covers. -/
theorem field_eq_of_masked {s n : Nat} (hm : m.extractLsb' s n = BitVec.allOnes n) :
    (w.extractLsb' s n).toNat = (w'.extractLsb' s n).toNat := by
  have hfield := congrArg (BitVec.extractLsb' s n) h
  rw [BitVec.extractLsb'_and, BitVec.extractLsb'_and, hm, BitVec.and_allOnes, BitVec.and_allOnes] at hfield
  rw [hfield]

theorem envField_eq_of_masked (hm : m.extractLsb' 24 3 = BitVec.allOnes 3) : envField w = envField w' :=
  field_eq_of_masked h hm

theorem f2Field_eq_of_masked (hm : m.extractLsb' 16 8 = BitVec.allOnes 8) : f2Field w = f2Field w' :=
  field_eq_of_masked h hm

theorem f1Field_eq_of_masked (hm : m.extractLsb' 8 8 = BitVec.allOnes 8) : f1Field w = f1Field w' :=
  field_eq_of_masked h hm

theorem f0Field_eq_of_masked (hm : m.extractLsb' 0 8 = BitVec.allOnes 8) : f0Field w = f0Field w' :=
  field_eq_of_masked h hm

theorem f0Low3_eq_of_masked (hm : m.extractLsb' 0 3 = BitVec.allOnes 3) : f0Low3 w = f0Low3 w' :=
  field_eq_of_masked h hm

theorem f0Low2_eq_of_masked (hm : m.extractLsb' 0 2 = BitVec.allOnes 2) : f0Low2 w = f0Low2 w' :=
  field_eq_of_masked h hm

theorem f0Low1_eq_of_masked (hm : m.extractLsb' 0 1 = BitVec.allOnes 1) : f0Low1 w = f0Low1 w' :=
  field_eq_of_masked h hm

end

/-- The decoder reads no bit outside `usedBits` of the opcode. -/
theorem decodeWord_eq_of_usedBits_eq {w w' : Word} (hop : opField w = opField w')
    (h : w &&& usedBits (opField w) = w' &&& usedBits (opField w)) : decodeWord w = decodeWord w' := by
  rcases Nat.lt_or_ge (opField w) 13 with hlt | hge
  · interval_cases hw : opField w
    · rw [decodeWord_nop hw, decodeWord_nop hop.symm]
    · rw [decodeWord_setActive hw, decodeWord_setActive hop.symm, envField_eq_of_masked h rfl,
        f0Low1_eq_of_masked h rfl]
    · rw [decodeWord_setMode hw, decodeWord_setMode hop.symm, envField_eq_of_masked h rfl, f0Low1_eq_of_masked h rfl]
    · rw [decodeWord_setCurve hw, decodeWord_setCurve hop.symm, envField_eq_of_masked h rfl,
        f0Low3_eq_of_masked h rfl]
    · rw [decodeWord_setMethod hw, decodeWord_setMethod hop.symm, envField_eq_of_masked h rfl,
        f0Low3_eq_of_masked h rfl]
    · rw [decodeWord_setSrc hw, decodeWord_setSrc hop.symm, envField_eq_of_masked h rfl, f0Field_eq_of_masked h rfl]
    · rw [decodeWord_setPair hw, decodeWord_setPair hop.symm, envField_eq_of_masked h rfl, f1Field_eq_of_masked h rfl,
        f0Field_eq_of_masked h rfl]
    · rw [decodeWord_cfgBiq hw, decodeWord_cfgBiq hop.symm, envField_eq_of_masked h rfl, f0Low2_eq_of_masked h rfl]
    · rw [decodeWord_cfgFilt hw, decodeWord_cfgFilt hop.symm, envField_eq_of_masked h rfl]
    · rw [decodeWord_biqProc hw, decodeWord_biqProc hop.symm, envField_eq_of_masked h rfl]
    · rw [decodeWord_update hw, decodeWord_update hop.symm, envField_eq_of_masked h rfl]
    · rw [decodeWord_updateAll hw, decodeWord_updateAll hop.symm]
    · rw [decodeWord_applyOut hw, decodeWord_applyOut hop.symm, envField_eq_of_masked h rfl,
        f2Field_eq_of_masked h rfl, f0Field_eq_of_masked h rfl]
  · rw [decodeWord_reserved hge, decodeWord_reserved (hop ▸ hge), hop]

/-- Concatenations are disjoint where their parts are. -/
theorem append_and_append_eq_zero {n m : Nat} {x x' : BitVec n} {y y' : BitVec m} (hx : x &&& x' = 0#n)
    (hy : y &&& y' = 0#m) : (x ++ y) &&& (x' ++ y') = 0#(n + m) := by
  rw [BitVec.and_append, hx, hy, BitVec.zero_append_zero]

section
variable {op e f2 f1 f0 m2 m1 m0 : Nat}

/-- A command word with ENV is 0 in every ignored bit when each of its lower fields is. -/
theorem packWord_and_ignored_eq_zero (hm : ~~~usedBits op = packWord 0 0 m2 m1 m0)
    (h2 : BitVec.ofNat 8 f2 &&& BitVec.ofNat 8 m2 = 0#8) (h1 : BitVec.ofNat 8 f1 &&& BitVec.ofNat 8 m1 = 0#8)
    (h0 : BitVec.ofNat 8 f0 &&& BitVec.ofNat 8 m0 = 0#8) : packWord op e f2 f1 f0 &&& ~~~usedBits op = 0#32 := by
  rw [hm]
  exact append_and_append_eq_zero (append_and_append_eq_zero (append_and_append_eq_zero
    (append_and_append_eq_zero BitVec.and_zero BitVec.and_zero) h2) h1) h0

/-- The formats E and EI ignore F2 and F1 (R72). -/
theorem packWord_and_ignored_eq_zero_of_imm (hm : ~~~usedBits op = packWord 0 0 0xFF 0xFF m0)
    (h0 : BitVec.ofNat 8 f0 &&& BitVec.ofNat 8 m0 = 0#8) : packWord op e 0 0 f0 &&& ~~~usedBits op = 0#32 :=
  packWord_and_ignored_eq_zero hm BitVec.zero_and BitVec.zero_and h0

end

/-- An enumeration code has no bit outside the low bits its field takes (R73, R75). -/
theorem Curve.code_and_ignored (c : Option Curve) : BitVec.ofNat 8 (c.elim 7 Curve.code) &&& 0xF8#8 = 0#8 := by
  rcases c with _ | c
  · rfl
  · cases c <;> rfl

theorem Method.code_and_ignored (m : Option Method) : BitVec.ofNat 8 (m.elim 7 Method.code) &&& 0xF8#8 = 0#8 := by
  rcases m with _ | m
  · rfl
  · cases m <;> rfl

theorem Kind.code_and_ignored (k : Option Kind) : BitVec.ofNat 8 (k.elim 3 Kind.code) &&& 0xFC#8 = 0#8 := by
  rcases k with _ | k
  · rfl
  · cases k <;> rfl

theorem Mode.code_and_ignored (m : Mode) : BitVec.ofNat 8 m.code &&& 0xFE#8 = 0#8 := by
  cases m <;> rfl

theorem bool_toNat_and_ignored (b : Bool) : BitVec.ofNat 8 b.toNat &&& 0xFE#8 = 0#8 := by
  cases b <;> rfl

/-- The encoder writes 0 in every bit its command's format does not use. -/
theorem encode_and_ignored_eq_zero (i : Instr) : encode i &&& ~~~usedBits i.opcode = 0#32 := by
  cases i with
  | nop => rfl
  | updateAll => rfl
  | setActive e b => exact packWord_and_ignored_eq_zero_of_imm (op := 0x01) (by decide) (bool_toNat_and_ignored b)
  | setMode e m => exact packWord_and_ignored_eq_zero_of_imm (op := 0x02) (by decide) (Mode.code_and_ignored m)
  | setCurve e c => exact packWord_and_ignored_eq_zero_of_imm (op := 0x03) (by decide) (Curve.code_and_ignored c)
  | setMethod e m => exact packWord_and_ignored_eq_zero_of_imm (op := 0x04) (by decide) (Method.code_and_ignored m)
  | cfgBiq e k => exact packWord_and_ignored_eq_zero_of_imm (op := 0x07) (by decide) (Kind.code_and_ignored k)
  | setSrc e k => exact packWord_and_ignored_eq_zero_of_imm (op := 0x05) (m0 := 0) (by decide) BitVec.and_zero
  | cfgFilt e => exact packWord_and_ignored_eq_zero_of_imm (op := 0x08) (m0 := 0xFF) (by decide) BitVec.zero_and
  | biqProc e => exact packWord_and_ignored_eq_zero_of_imm (op := 0x09) (m0 := 0xFF) (by decide) BitVec.zero_and
  | update e => exact packWord_and_ignored_eq_zero_of_imm (op := 0x0A) (m0 := 0xFF) (by decide) BitVec.zero_and
  | setPair e a b =>
    exact packWord_and_ignored_eq_zero (op := 0x06) (m2 := 0xFF) (m1 := 0) (m0 := 0) (by decide)
      BitVec.zero_and BitVec.and_zero BitVec.and_zero
  | applyOut e ch v =>
    exact packWord_and_ignored_eq_zero (op := 0x0C) (m2 := 0) (m1 := 0xFF) (m0 := 0) (by decide)
      BitVec.and_zero BitVec.zero_and BitVec.and_zero

/-- Settles O4: the decoder reads and the encoder writes within `usedBits`. -/
theorem ignoredBitsChangeNothing : Obligations.IgnoredBitsChangeNothing :=
  ⟨fun _ _ => decodeWord_eq_of_usedBits_eq, fun i _ => encode_and_ignored_eq_zero i, rfl, rfl⟩

end Sys2Proof
end

section
/-! PROOFS. The claims of 40_biquad.md. Binary32 values that an operation leaves as they are (R12); the clamp, the design and
the two commands that store one (R101-R103, R106, R107, R110); BIQ_PROC and the sections it runs (R104, R108, R113, R114);
the level conversion (R105); and the section's laws over the rationals (R109, R111). -/

namespace Sys2Proof.F32

/-! ### Operations that leave a value as it is -/

theorem natAbs_key (x : F32) : (key x).natAbs = mag x := by
  unfold key
  split <;> omega

theorem key_eq_zero (x : F32) : key x = 0 ↔ isZero x = true := by
  rw [← Int.natAbs_eq_zero, natAbs_key, isZero, decide_eq_true_eq]

/-- Only the two zeros are different patterns of one value. -/
theorem eq_of_key_eq {x y : F32} (h : key x = key y) (hy : isZero y = false) : x = y := by
  have hmag : mag x = mag y := by rw [← natAbs_key, h, natAbs_key]
  have hne : mag y ≠ 0 := of_decide_eq_false hy
  refine ext_sign_mag x y ?_ hmag
  unfold key at h
  rw [hmag] at h
  cases hx : sign x <;> cases hs : sign y <;> simp only [hx, hs, if_true, if_false, Bool.false_eq_true] at h ⊢ <;> omega

theorem isFinite_of_key_eq {x y : F32} (h : key x = key y) (hy : isFinite y = true) : isFinite x = true := by
  rwa [isFinite, ← natAbs_key, h, natAbs_key]

/-- A finite magnitude is representable, so rounding leaves it. -/
theorem roundMag_magUnits_mul {x : F32} (h : isFinite x = true) {den : Nat} (hd : 0 < den) :
    roundMag (magUnits x * den) den = mag x := by
  rw [magUnits_eq]
  exact roundMag_exact (mag x) den hd (of_decide_eq_true h)

/-- Adding a zero of either sign leaves a finite value. -/
theorem key_add_zero {x z : F32} (hx : isFinite x = true) (hz : isZero z = true) : key (add x z) = key x := by
  have hz0 : units z = 0 := (units_eq_zero z).mpr hz
  have hmag : roundMag (units x + units z).natAbs 1 = mag x := by
    rw [hz0, Int.add_zero, units_natAbs, ← roundMag_magUnits_mul hx Nat.one_pos, Nat.mul_one]
  rw [add_finite hx (zero_finite hz), hmag]
  unfold key
  rw [mag_pack _ _ (mag_lt x), sign_pack _ _ (mag_lt x)]
  cases h0 : isZero x
  · have hne : units x ≠ 0 := by simpa [units_eq_zero] using h0
    simp only [addSign, hz0, Int.add_zero, if_neg hne, units_lt_zero_iff hne, Bool.decide_eq_true]
  · simp [of_decide_eq_true h0]

theorem key_sub_zero {x z : F32} (hx : isFinite x = true) (hz : isZero z = true) : key (sub x z) = key x :=
  key_add_zero hx (by rwa [isZero_neg])

theorem zero_mul_finite {z x : F32} (hz : isZero z = true) (hx : isFinite x = true) : isZero (mul z x) = true := by
  rw [mul_finite (zero_finite hz) hx, (magUnits_eq_zero z).mpr hz, Nat.zero_mul, roundMag_zero, isZero_pack_zero]

/-- 1.0 times a finite value is that value, bit for bit. -/
theorem one_mul_finite {x : F32} (hx : isFinite x = true) : mul 0x3F800000#32 x = x := by
  have hone : magUnits 0x3F800000#32 = 2 ^ 149 := by decide
  rw [mul_finite (by decide) hx, hone, Nat.mul_comm, roundMag_magUnits_mul hx (by decide)]
  refine ext_sign_mag _ x ?_ (mag_pack _ _ (mag_lt x))
  rw [sign_pack _ _ (mag_lt x), show sign 0x3F800000#32 = false by decide, Bool.false_bne]

/-- Every value at or below zero is below every value above it. -/
theorem lt_of_nonpositive {x y : F32} (hx : isNaN x = false) (h : isZero x = true ∨ sign x = true)
    (hy : lt 0x00000000#32 y = true) : lt x y = true := by
  have hny : isNaN y = false := by
    cases hn : isNaN y
    · rfl
    · rw [(nan_unordered (.inr hn)).1] at hy
      cases hy
  have hkx : key x ≤ 0 := by
    rcases h with h | h
    · exact le_of_eq ((key_eq_zero x).mpr h)
    · simp [key, h]
  rw [lt_of_not_nan (by decide) hny, decide_eq_true_eq, show key 0x00000000#32 = 0 by decide] at hy
  rw [lt_of_not_nan hx hny]
  exact decide_eq_true (lt_of_le_of_lt hkx hy)

theorem lt_irrefl (x : F32) : lt x x = false := by simp [lt]

/-- A value beyond one end of an interval is not beyond the other. -/
theorem lt_asymm_of_le {a b x : F32} (hab : le a b = true) (h : lt b x = true) : lt x a = false := by
  simp only [le, lt, Bool.and_eq_true, Bool.not_eq_true', decide_eq_true_eq] at hab h
  have hkey : ¬ key x < key a := by omega
  simp [lt, hkey]

theorem not_lt_of_le {a b : F32} (h : le a b = true) : lt b a = false := by
  simp only [le, Bool.and_eq_true, Bool.not_eq_true', decide_eq_true_eq] at h
  simp [lt, h.2]

/-- The integer part of a finite value's magnitude, as an interval. -/
theorem truncMag_bounds (x : F32) : truncMag x * 2 ^ 149 ≤ magUnits x ∧ magUnits x < (truncMag x + 1) * 2 ^ 149 :=
  ⟨Nat.div_mul_le_self .., by rw [Nat.mul_comm]; exact Nat.lt_mul_div_succ _ (by decide)⟩

end Sys2Proof.F32

namespace Sys2Proof.Machine

/-! ### The clamp (R101) -/

section
variable {p : Params} {f : F32}

theorem clampF_below (h : F32.lt f p.fMin = true) : clampF p f = (p.fMin, true) := by
  simp only [clampF, h, if_true]

theorem clampF_inside (hl : F32.lt f p.fMin = false) (hu : F32.lt p.fMax f = false) : clampF p f = (f, false) := by
  simp [clampF, hl, hu]

variable (hp : Legal p)
include hp

theorem clampF_above (h : F32.lt p.fMax f = true) : clampF p f = (p.fMax, true) := by
  obtain ⟨-, -, -, -, -, -, -, -, -, hband⟩ := hp
  simp [clampF, F32.lt_asymm_of_le hband h, h]

/-- The bounds are in the band. -/
theorem clampF_fMin : clampF p p.fMin = (p.fMin, false) := by
  obtain ⟨-, -, -, -, -, -, -, -, -, hband⟩ := hp
  exact clampF_inside (F32.lt_irrefl _) (F32.not_lt_of_le hband)

theorem clampF_fMax : clampF p p.fMax = (p.fMax, false) := by
  obtain ⟨-, -, -, -, -, -, -, -, -, hband⟩ := hp
  exact clampF_inside (F32.not_lt_of_le hband) (F32.lt_irrefl _)

/-- Infinity is beyond every finite bound. -/
theorem fMax_lt_inf : F32.lt p.fMax 0x7F800000#32 = true := by
  obtain ⟨-, -, -, -, -, -, -, hmax, -⟩ := hp
  obtain ⟨-, -, habove, -⟩ := F32.order_of_infinity_and_finite (a := 0x7F800000#32) (by decide) hmax
  exact habove

end

/-- Settles O50: F_MIN is positive, F_MAX finite and not below it, so each frequency falls on one side of the band or in it. -/
theorem frequencyClampsToTheBand : Obligations.FrequencyClampsToTheBand := by
  intro p f hp hnan
  obtain ⟨-, -, -, -, -, -, -, -, hpos, -⟩ := id hp
  exact ⟨clampF_below, clampF_above hp, clampF_inside, fun h => clampF_below (F32.lt_of_nonpositive hnan h hpos),
    clampF_above hp (fMax_lt_inf hp)⟩

/-! ### The design (R103) -/

/-- A design reads the frequency through the clamp alone; only whether it clamped is kept beside it. -/
theorem design_eq (p : Params) (k : Kind) (f fs q : F32) :
    design p k f fs q =
      { coef := coefficients binary32 k (cosF p (omega (clampF p f).1 fs))
          (F32.div (sinF p (omega (clampF p f).1 fs)) (F32.mul 0x40000000#32 q))
        fc := (clampF p f).1
        clamped := (clampF p f).2 } := rfl

/-- Settles O51, kind by kind: the numerator terms of the kind, each divided by a0; -2.0 is 2.0 negated. -/
theorem designFollowsTheEquations : Obligations.DesignFollowsTheEquations := by
  intro p k f fs q fc w0 cw alpha a0 d
  have hd : d = { coef := coefficients binary32 k cw alpha, fc := fc, clamped := (clampF p f).2 } := design_eq p k f fs q
  rw [hd]
  refine ⟨?_, ?_, ?_, rfl, rfl, rfl, rfl⟩
  · rintro rfl; exact ⟨rfl, rfl, rfl⟩
  · rintro rfl; exact ⟨rfl, rfl, rfl⟩
  · rintro rfl; exact ⟨rfl, rfl, rfl⟩

/-! ### CFG_BIQ and CFG_FILT (R106, R107) -/

/-- A design from the staging registers, of a unit the state holds: refused for invalid arguments, and stored for valid ones. -/
theorem designStaged_spec {s : State} {e : Nat} (k : Kind) (hlen : e < s.units.length) :
    (¬ ArgsOk s.argF s.fs s.argQ →
      designStaged e k s = .next { s with status := { s.status with earg := true } }) ∧
    (ArgsOk s.argF s.fs s.argQ →
      ∃ t, designStaged e k s = .next t ∧ DesignStored e k s.argQ (design s.params k s.argF s.fs s.argQ) s t) :=
  ⟨designStaged_bad e k s, fun hv => ⟨_, designStaged_ok e k s hv, storeDesign_spec s e k _ _ hlen⟩⟩

/-- Under the invariant the state holds every unit of the configuration. -/
theorem inv_lt_length {s : State} (h : s.Inv) {e : Nat} (he : e < s.params.nEnv) : e < s.units.length :=
  h.unitCount ▸ he

/-- Settles O33: an absent unit and the reserved kind are refused with EINVAL, and a named kind is a staged design of it. -/
theorem cfgBiqStoresTheNamedDesign : Obligations.CfgBiqStoresTheNamedDesign := by
  intro s e
  refine ⟨fun k he => exec_absent (.cfgBiq e k) s e rfl he, ?_, fun hinv he k => ?_⟩
  · rcases Nat.lt_or_ge e s.params.nEnv with he | he
    · exact exec_cfgBiq_reserved he
    · exact exec_absent (.cfgBiq e none) s e rfl he
  · rw [exec_cfgBiq he]
    exact designStaged_spec k (inv_lt_length hinv he)

/-- Settles O34: CFG_FILT is a staged design of the unit's own kind. -/
theorem cfgFiltKeepsTheKind : Obligations.CfgFiltKeepsTheKind := by
  intro s e
  refine ⟨exec_absent (.cfgFilt e) s e rfl, fun hinv he => ?_⟩
  rw [exec_cfgFilt he]
  exact designStaged_spec (s.unit e).kind (inv_lt_length hinv he)

/-- The units after a design is stored: whether it clamped does not show in them. -/
theorem storeDesign_units (s : State) (e : Nat) (k : Kind) (q : F32) (d : Designed) :
    (s.storeDesign e k q d).units =
      s.units.set e { s.unit e with coef := s.settleCoeffs e d.coef, kind := k, efreq := d.fc, eq := q } := by
  obtain ⟨u, rfl, hc | hc⟩ := storeDesign_cases s e k q d <;> rw [hc] <;> rfl

/-- Two frequencies that clamp to the same value give CFG_FILT the same design to store. -/
theorem exec_cfgFilt_units_congr {s : State} {e : Nat} {f g : F32} (he : e < s.params.nEnv)
    (hf : ArgsOk f s.fs s.argQ) (hg : ArgsOk g s.fs s.argQ) (hfg : (clampF s.params f).1 = (clampF s.params g).1) :
    ∃ t t', exec (.cfgFilt e) { s with argF := f } = .next t ∧ exec (.cfgFilt e) { s with argF := g } = .next t' ∧
      t.units = t'.units := by
  refine ⟨_, _, (exec_cfgFilt (s := { s with argF := f }) he).trans (designStaged_ok e _ { s with argF := f } hf),
    (exec_cfgFilt (s := { s with argF := g }) he).trans (designStaged_ok e _ { s with argF := g } hg), ?_⟩
  rw [storeDesign_units, storeDesign_units, design_eq, design_eq]
  simp only [hfg]
  rfl

/-- Settles O52: the bound is in the band, so it and the frequency beyond it clamp to the same value. -/
theorem clampFloorEquivalence : Obligations.ClampFloorEquivalence := by
  intro s e f hinv he hargs
  have hp := hinv.legal
  obtain ⟨-, -, -, -, -, -, hmin, hmax, -, -⟩ := id hp
  obtain ⟨-, hq, hfs⟩ := id hargs
  refine ⟨fun hlt => ?_, fun hlt => ?_⟩
  · exact exec_cfgFilt_units_congr he hargs ⟨F32.finite_not_nan hmin, hq, hfs⟩ (by rw [clampF_below hlt, clampF_fMin hp])
  · exact exec_cfgFilt_units_congr he hargs ⟨F32.finite_not_nan hmax, hq, hfs⟩
      (by rw [clampF_above hp hlt, clampF_fMax hp])

/-! ### BIQ_PROC (R104, R108) -/

/-- What BIQ_PROC leaves in a unit the state holds: the taps moved on, the output in BIQ_Y, and nothing else. -/
theorem exec_biqProc_spec {s : State} {e : Nat} (he : e < s.params.nEnv) (hlen : e < s.units.length) :
    let sig := dfSignal binary32 (s.unit e).coef (s.unit e).taps s.argX
    ∃ t, exec (.biqProc e) s = .next t ∧
      t.biqY = s.settle e .biqY (dfOutput binary32 (s.unit e).coef (s.unit e).taps sig) ∧
      t.unit e = { s.unit e with taps := { w1 := s.settle e .w1 sig, w2 := (s.unit e).taps.w1 } } ∧
      OnlyUnit e s { t with biqY := s.biqY } :=
  ⟨_, exec_biqProc he, rfl, unit_setUnit_self s e _ hlen, onlyUnit_setUnit s e _⟩

/-- Settles O35: the stored output and signal hold the section's, which are these operations. -/
theorem biqProcRunsOneSample : Obligations.BiqProcRunsOneSample := by
  intro s e
  refine ⟨exec_absent (.biqProc e) s e rfl, fun hinv he => ?_⟩
  obtain ⟨t, ht, hy, hu, hframe⟩ := exec_biqProc_spec he (inv_lt_length hinv he)
  refine ⟨t, ht, ?_, ?_, by rw [hu], by rw [hu], hframe⟩
  · rw [hy, dfOutput_binary32, dfSignal_binary32]
    exact holds_settle ..
  · rw [hu, dfSignal_binary32]
    exact holds_settle ..

/-! ### The undesigned section (R113) -/

section
variable {w : Taps F32} {x : F32} (h1 : F32.isFinite w.w1 = true) (h2 : F32.isFinite w.w2 = true)
  (hx : F32.isFinite x = true)
include h1 h2 hx

/-- The feedback terms of the identity section are zeros, so the internal signal is the sample. -/
theorem key_dfSignal_identity : F32.key (dfSignal binary32 Coeffs.identity w x) = F32.key x := by
  rw [dfSignal_binary32]
  have hinner : F32.key (F32.sub x (F32.mul Coeffs.identity.a1 w.w1)) = F32.key x :=
    F32.key_sub_zero hx (F32.zero_mul_finite (by decide) h1)
  exact (F32.key_sub_zero (F32.isFinite_of_key_eq hinner hx) (F32.zero_mul_finite (by decide) h2)).trans hinner

/-- Its output is 1.0 times the signal, and two zeros. -/
theorem key_dfOutput_identity : F32.key (dfOutput binary32 Coeffs.identity w x) = F32.key x := by
  rw [dfOutput_binary32]
  have hinner : F32.key (F32.add (F32.mul Coeffs.identity.b0 x) (F32.mul Coeffs.identity.b1 w.w1)) = F32.key x := by
    rw [show Coeffs.identity.b0 = 0x3F800000#32 from rfl, F32.one_mul_finite hx]
    exact F32.key_add_zero hx (F32.zero_mul_finite (by decide) h1)
  exact (F32.key_add_zero (F32.isFinite_of_key_eq hinner hx) (F32.zero_mul_finite (by decide) h2)).trans hinner

end

/-- A finite result is stored as it is. -/
theorem settle_of_finite (s : State) (e : Nat) (r : NanSlot) {v : F32} (h : F32.isFinite v = true) :
    s.settle e r v = v :=
  settle_of_not_nan s e r v (F32.finite_not_nan h)

/-- Settles O53: signal and output have the sample's value, so they are finite, stored as they are, and its pattern unless
it is a zero. -/
theorem identitySectionBeforeDesign : Obligations.IdentitySectionBeforeDesign := by
  intro s e hinv he hcoef hx h1 h2
  obtain ⟨t, ht, hy, hu, -⟩ := exec_biqProc_spec he (inv_lt_length hinv he)
  rw [hcoef] at hy hu
  have hsig := key_dfSignal_identity h1 h2 hx
  have hfin := F32.isFinite_of_key_eq hsig hx
  have hout := (key_dfOutput_identity h1 h2 hfin).trans hsig
  rw [settle_of_finite s e _ hfin] at hu
  rw [settle_of_finite s e _ (F32.isFinite_of_key_eq hout hx)] at hy
  have hvalue : F32.key t.biqY = F32.key s.argX := by rw [hy, hout]
  have htap : F32.key (t.unit e).taps.w1 = F32.key s.argX := by rw [hu, hsig]
  exact ⟨t, ht, hvalue, htap, by rw [hu], fun h0 => ⟨F32.eq_of_key_eq hvalue h0, F32.eq_of_key_eq htap h0⟩⟩

/-! ### NaN in the taps (R114) -/

/-- A tap is NaN. -/
abbrev Taps.HasNaN (w : Taps F32) : Prop := F32.isNaN w.w1 = true ∨ F32.isNaN w.w2 = true

/-- Either tap reaches the internal signal through a product. -/
theorem dfSignal_nan {w : Taps F32} (h : w.HasNaN) (c : Coeffs F32) (x : F32) : dfSignal binary32 c w x = F32.nan := by
  rw [dfSignal_binary32]
  rcases h with h | h
  · rw [F32.mul_nan _ _ (.inr h), F32.sub_nan x _ (.inr F32.isNaN_nan), F32.sub_nan _ _ (.inl F32.isNaN_nan)]
  · rw [F32.mul_nan _ w.w2 (.inr h), F32.sub_nan _ _ (.inr F32.isNaN_nan)]

theorem dfOutput_nan (c : Coeffs F32) (w : Taps F32) : dfOutput binary32 c w F32.nan = F32.nan := by
  rw [dfOutput_binary32, F32.mul_nan _ _ (.inr F32.isNaN_nan), F32.add_nan _ _ (.inl F32.isNaN_nan),
    F32.add_nan _ _ (.inl F32.isNaN_nan)]

section
variable {s : State} {e : Nat} (hn : (s.unit e).taps.HasNaN)
include hn

theorem process_output_nan (x : F32) : (s.process e x).1 = F32.nan := by
  rw [(process_spec s e x).1, dfSignal_nan hn, dfOutput_nan]

/-- Processing a sample leaves NaN in W1 of a unit the state holds. -/
theorem process_w1_nan (hlen : e < s.units.length) (x : F32) :
    F32.isNaN ((s.process e x).2.unit e).taps.w1 = true := by
  rw [(process_spec s e x).2, unit_setUnit_self s e _ hlen, isNaN_settle, dfSignal_nan hn, F32.isNaN_nan]

end

/-- Writing a level leaves the taps. -/
theorem setLevel_taps (s : State) (e : Nat) (l : Level) : ((s.setLevel e l).unit e).taps = (s.unit e).taps := by
  rcases unit_setUnit_cases s e e { s.unit e with level := l } with h | ⟨-, h⟩ <;> rw [State.setLevel, h]

section
variable {s : State} {e : Nat} (hlen : e < s.units.length) (hn : (s.unit e).taps.HasNaN)
include hlen hn

/-- On the biquad path the output is NaN, which is level 0, and the signal left in W1 is NaN. -/
theorem sefTransfer_biquad_nan (l : Level) (hc : (s.unit e).curve = .lowpass ∨ (s.unit e).curve = .highpass ∨
    (s.unit e).curve = .bandpass) :
    ((s.sefTransfer e l).unit e).level = 0#7 ∧ F32.isNaN ((s.sefTransfer e l).unit e).taps.w1 = true := by
  have hlen' : e < (s.process e (F32.ofLevel l)).2.units.length := by simpa [State.process] using hlen
  rw [sef_biquad l hc, process_output_nan hn, setLevel_unit _ e _ hlen']
  exact ⟨rfl, process_w1_nan hn hlen _⟩

/-- Every curve leaves a NaN in the taps: the static ones leave the taps, the biquad ones process a sample. -/
theorem sefTransfer_hasNaN (l : Level) : ((s.sefTransfer e l).unit e).taps.HasNaN := by
  have biquad (hc : (s.unit e).curve = .lowpass ∨ (s.unit e).curve = .highpass ∨ (s.unit e).curve = .bandpass) :
      ((s.sefTransfer e l).unit e).taps.HasNaN := .inl (sefTransfer_biquad_nan hlen hn l hc).2
  cases hc : (s.unit e).curve with
  | linear => rwa [sef_linear l hc, setLevel_taps]
  | oppositeLinear => rwa [sef_oppositeLinear l hc, setLevel_taps]
  | exponential => rwa [sef_exponential l hc, setLevel_taps]
  | random => rwa [sef_random l hc, setLevel_taps]
  | lowpass => exact biquad (.inl hc)
  | highpass => exact biquad (.inr (.inl hc))
  | bandpass => exact biquad (.inr (.inr hc))

/-- An envelope-tick leaves a NaN in the taps. -/
theorem tickUnit_hasNaN : ((s.tickUnit e).unit e).taps.HasNaN := by
  cases ha : (s.unit e).active with
  | false => rwa [tick_inactive ha]
  | true =>
    cases hm : (s.unit e).mode with
    | arg => rwa [tick_arg ha hm, setLevel_taps]
    | sef =>
      rw [tick_sef ha hm]
      exact sefTransfer_hasNaN hlen hn _

variable (he : e < s.params.nEnv)
include he

theorem exec_biqProc_nan :
    ∃ t, exec (.biqProc e) s = .next t ∧ F32.isNaN t.biqY = true ∧ F32.isNaN (t.unit e).taps.w1 = true := by
  refine ⟨_, exec_biqProc he, ?_, process_w1_nan hn hlen _⟩
  change F32.isNaN (s.settle e .biqY (s.process e s.argX).1) = true
  rw [isNaN_settle, process_output_nan hn, F32.isNaN_nan]

/-- The commands that move the taps of unit `e` leave a NaN there. -/
theorem exec_hasNaN {i : Instr} (hi : i = .biqProc e ∨ i = .update e ∨ i = .updateAll) {t : State}
    (h : exec i s = .next t) : (t.unit e).taps.HasNaN := by
  rcases hi with rfl | rfl | rfl
  · obtain ⟨t', ht', -, hw⟩ := exec_biqProc_nan hlen hn he
    cases ht'.symm.trans h
    exact .inl hw
  · cases (exec_update he).symm.trans h
    exact tickUnit_hasNaN hlen hn
  · obtain ⟨-, -, hticked, -⟩ := foldl_tick s s.params.nEnv
    cases h
    rw [hticked e he]
    exact tickUnit_hasNaN hlen hn

/-- A step that is not the reset input keeps the taps, or performs one of the three commands that move them. -/
theorem step_hasNaN {t : State} (h : step s = .next t)
    (hreset : ∀ env rest, s.port ≠ { access := .reset, environ := env } :: rest) : (t.unit e).taps.HasNaN := by
  by_cases htaps : (t.unit e).taps = (s.unit e).taps
  · rwa [htaps]
  obtain ⟨env, rest, hp | ⟨w, hp, hd⟩⟩ := tapsMoveOnlyByProcessingOrReset s t e h htaps
  · exact absurd hp (hreset env rest)
  obtain ⟨i, hdec, hi⟩ : ∃ i, decodeWord w = .ok i ∧ (i = .biqProc e ∨ i = .update e ∨ i = .updateAll) := by
    rcases hd with hd | hd | hd
    · exact ⟨_, hd, .inl rfl⟩
    · exact ⟨_, hd, .inr (.inl rfl)⟩
    · exact ⟨_, hd, .inr (.inr rfl)⟩
  have hexec : exec i (s.accept { access := .write 0#9 w, environ := env } rest) = .next t :=
    (stepPerformsTheWrittenCommand s w env rest i hp hdec).symm.trans h
  exact exec_hasNaN (s := s.accept { access := .write 0#9 w, environ := env } rest) hlen hn he hi hexec

end

/-- Settles O54: BIQ_PROC and the biquad path process a sample, any other access leaves the taps or a NaN in them, and the
reset unit's taps are +0.0. -/
theorem nanTapsPersist : Obligations.NanTapsPersist := by
  intro s e hinv he hn
  have hlen := inv_lt_length hinv he
  refine ⟨exec_biqProc_nan hlen hn he, fun ha hm hc => ?_, fun t => step_hasNaN hlen hn he, fun env rest hp => ?_⟩
  · refine ⟨_, exec_update he, ?_⟩
    rw [tick_sef ha hm]
    exact sefTransfer_biquad_nan hlen hn _ (by simpa using hc)
  · refine ⟨_, step_of_port hp, ?_⟩
    exact congrArg EnvUnit.taps (unit_resetBlock (s.accept { access := .reset, environ := env } rest) e)

/-! ### The level conversion (R105) -/

theorem toLevel_of_nan {y : F32} (h : F32.isNaN y = true) : toLevel y = 0#7 := by
  simp only [toLevel, h, if_true]

/-- The conversion of a value that is not NaN, from its place beside 127.0 and 0. -/
theorem toLevel_of_not_nan {y : F32} (h : F32.isNaN y = false) :
    toLevel y = if F32.le 0x42FE0000#32 y then 127#7 else if F32.le y 0x00000000#32 then 0#7
      else BitVec.ofNat 7 (F32.truncMag y) := by
  simp [toLevel, h]

theorem toLevel_of_inf {y : F32} (h : F32.isInf y = true) : toLevel y = if F32.sign y then 0#7 else 127#7 := by
  obtain ⟨-, -, -, hhigh⟩ := F32.order_of_infinity_and_finite h (b := 0x42FE0000#32) (by decide)
  obtain ⟨-, hlow, -, -⟩ := F32.order_of_infinity_and_finite h (b := 0x00000000#32) (by decide)
  rw [toLevel_of_not_nan (F32.inf_not_nan h), hhigh, hlow]
  cases F32.sign y <;> rfl

/-- The conversion of a finite value, in units of 2^-149. -/
theorem toLevel_of_finite {y : F32} (h : F32.isFinite y = true) :
    toLevel y = if 127 * 2 ^ 149 ≤ F32.units y then 127#7 else if F32.units y ≤ 0 then 0#7
      else BitVec.ofNat 7 (F32.truncMag y) := by
  obtain ⟨-, hhigh⟩ := F32.order_of_finite (a := 0x42FE0000#32) (by decide) h
  obtain ⟨-, hlow⟩ := F32.order_of_finite h (b := 0x00000000#32) (by decide)
  have hv : F32.units 0x42FE0000#32 = 127 * 2 ^ 149 := by decide
  have hz : F32.units 0x00000000#32 = 0 := by decide
  simp only [toLevel_of_not_nan (F32.finite_not_nan h), hhigh, hlow, hv, hz, decide_eq_true_eq]

/-- Between 0 and 127.0 the level is the integer part, which fits its seven bits. -/
theorem toLevel_bounds {y : F32} (h : F32.isFinite y = true) (hpos : 0 < F32.units y)
    (hlt : F32.units y < 127 * 2 ^ 149) :
    ((toLevel y).toNat : Int) * 2 ^ 149 ≤ F32.units y ∧ F32.units y < (((toLevel y).toNat : Int) + 1) * 2 ^ 149 := by
  have hmag : F32.units y = F32.magUnits y := by
    rw [← F32.units_natAbs]
    omega
  obtain ⟨hlow, hhigh⟩ := F32.truncMag_bounds y
  have hlevel : (toLevel y).toNat = F32.truncMag y := by
    rw [toLevel_of_finite h, if_neg (by omega), if_neg (by omega), BitVec.toNat_ofNat]
    omega
  rw [hlevel, hmag]
  omega

/-- Settles O47, class by class. -/
theorem toLevelTruncatesAndClamps : Obligations.ToLevelTruncatesAndClamps := by
  intro y
  refine ⟨toLevel_of_nan, toLevel_of_inf, fun h => ⟨fun hge => ?_, fun hle => ?_, toLevel_bounds h⟩⟩
  · rw [toLevel_of_finite h, if_pos hge]
  · rw [toLevel_of_finite h, if_neg (by omega), if_pos hle]

/-! ### The laws over the rationals (R109, R111) -/

/-- Settles O55: over the common denominator a0 each law is one of polynomials in `cw` and `alpha`. -/
theorem exactGainLaws : Obligations.ExactGainLaws := by
  intro cw alpha h
  simp only [coefficients, numerator, exact]
  refine ⟨?_, ?_, ?_, ?_, ?_⟩ <;> field_simp <;> ring

/-- Settles O56: the internal signal cancels from the difference equation, whatever the taps. -/
theorem exactDifferenceEquation : Obligations.ExactDifferenceEquation := by
  intro c w x0 x1 x2
  simp only [dfSignal, dfOutput, exact]
  ring

end Sys2Proof.Machine
end

section
/-! PROOFS. The claims of 41_envelope.md. The configuration commands, each one write of its unit (R121-R127); the unit an
envelope-tick leaves, one equation per path of UPDATE (R128-R135), and what each path reads (R144, R145); then the levels the
paths compute, on natural numbers (R120, R135-R142). -/

namespace Sys2Proof

/-! ### Operand fields as bits and remainders of the word (R71, R73) -/

theorem f0Low1_eq (w : Word) : f0Low1 w = (w.getLsbD 0).toNat := by
  rw [f0Low1, field_toNat, BitVec.getLsbD, Nat.testBit_zero, pow_zero, Nat.div_one]
  rcases Nat.mod_two_eq_zero_or_one w.toNat with h | h <;> simp [h]

theorem f0Low3_eq (w : Word) : f0Low3 w = w.toNat % 8 := by
  simp [f0Low3]

theorem f0Field_eq (w : Word) : f0Field w = w.toNat % 256 := by
  simp [f0Field]

theorem f1Field_eq (w : Word) : f1Field w = w.toNat / 256 % 256 := field_toNat w 8 8

end Sys2Proof

namespace Sys2Proof.Machine

/-! ### The configuration commands (R121-R123, R125-R127) -/

/-- Settles O26: NOP's meaning is the state it finds. -/
theorem nopChangesNothing : Obligations.NopChangesNothing :=
  ⟨fun _ => rfl, fun _ => decodeWord_nop, by decide⟩

/-- A command that is one write of a unit the state holds leaves that unit there and nothing else. -/
theorem next_setUnit_spec {s : State} {e : Nat} {u : EnvUnit} {o : Host.Outcome State Fault Refusal}
    (hlen : e < s.units.length) (ho : o = .next (s.setUnit e u)) :
    ∃ t, o = .next t ∧ t.unit e = u ∧ OnlyUnit e s t :=
  ⟨_, ho, unit_setUnit_self s e u hlen, onlyUnit_setUnit s e u⟩

/-- A command that is refused with EINVAL on its unit wherever the configuration has that unit is refused so on every unit,
because it is refused so for a unit the configuration has not (R172, R175). -/
theorem exec_einval {i : Instr} {s : State} {e : Nat} (hi : unitOf i = some e)
    (h : e < s.params.nEnv → exec i s = .next (s.setFlag .einval)) : exec i s = .next (s.setFlag .einval) :=
  (Nat.lt_or_ge e s.params.nEnv).elim h (exec_absent i s e hi)

/-- A source of a legal configuration fits its eight bits. -/
theorem source_toNat {p : Params} (hp : Legal p) {k : Nat} (hk : k < p.nSrc) : (BitVec.ofNat 8 k).toNat = k := by
  obtain ⟨-, -, -, hsrc, -⟩ := hp
  exact Nat.mod_eq_of_lt (by omega)

/-- Settles O27: F0[0] is the operand, and the command is one write of the unit. -/
theorem setActiveWritesActive : Obligations.SetActiveWritesActive := by
  refine ⟨fun w hop => ?_, fun s e b => ⟨exec_absent _ s e rfl, fun hinv he => ?_⟩⟩
  · rw [decodeWord_setActive hop, f0Low1_eq]
    cases w.getLsbD 0 <;> rfl
  · exact next_setUnit_spec (inv_lt_length hinv he) (exec_setActive he b)

/-- Settles O28: F0[0] is the mode's code, and the command is one write of the unit. -/
theorem setModeWritesMode : Obligations.SetModeWritesMode := by
  refine ⟨fun w hop => ?_, fun s e m => ⟨exec_absent _ s e rfl, fun hinv he => ?_⟩⟩
  · rw [decodeWord_setMode hop, f0Low1_eq]
    cases w.getLsbD 0 <;> rfl
  · exact next_setUnit_spec (inv_lt_length hinv he) (exec_setMode he m)

/-- Settles O29: the reserved code is refused on every unit, and a method is one write of the unit. -/
theorem setMethodWritesMethod : Obligations.SetMethodWritesMethod := by
  refine ⟨fun w hop => by rw [decodeWord_setMethod hop, f0Low3_eq], rfl, fun s e =>
    ⟨fun m => exec_absent (.setMethod e m) s e rfl, exec_einval (i := .setMethod e none) rfl exec_setMethod_reserved,
      fun hinv he m => ?_⟩⟩
  exact next_setUnit_spec (inv_lt_length hinv he) (exec_setMethod he m)

/-- Settles O30: the unit and the source are checked, and a legal source keeps its value in SRC's eight bits. -/
theorem setSrcWritesSrc : Obligations.SetSrcWritesSrc := by
  refine ⟨fun w hop => by rw [decodeWord_setSrc hop, f0Field_eq], fun s e k => ⟨fun hbad => ?_, fun hinv he hk => ?_⟩⟩
  · exact exec_einval (i := .setSrc e k) rfl fun he => exec_setSrc_bad he k (hbad.resolve_left (Nat.not_le.mpr he))
  · obtain ⟨t, ht, hu, hframe⟩ := next_setUnit_spec (inv_lt_length hinv he) (exec_setSrc he k hk)
    exact ⟨t, ht, by rw [hu]; exact source_toNat hinv.legal hk, by rw [hu], hframe⟩

/-- Settles O31: the unit and the pair are checked, and two legal sources keep their values in the pair's eight bits each. -/
theorem setPairWritesPair : Obligations.SetPairWritesPair := by
  refine ⟨fun w hop => by rw [decodeWord_setPair hop, f1Field_eq, f0Field_eq], fun s e a b =>
    ⟨fun hbad => ?_, fun hinv he ha hb hne => ?_⟩⟩
  · exact exec_einval (i := .setPair e a b) rfl fun he => exec_setPair_bad he a b (by omega)
  · obtain ⟨t, ht, hu, hframe⟩ := next_setUnit_spec (inv_lt_length hinv he) (exec_setPair he a b ⟨ha, hb, hne⟩)
    exact ⟨t, ht, by rw [hu]; exact source_toNat hinv.legal ha, by rw [hu]; exact source_toNat hinv.legal hb,
      by rw [hu], hframe⟩

/-! ### SET_CURVE (R124) -/

/-- A biquad curve is refused whole under an invalid FS; else the default design of its kind is stored, and then the curve. -/
theorem exec_setCurve_biquad_spec {s : State} {e : Nat} (he : e < s.params.nEnv) (hlen : e < s.units.length) {c : Curve}
    {k : Kind} (hk : curveKind c = some k) :
    (¬ ArgsOk Config.fDefault s.fs Config.qDefault → exec (.setCurve e (some c)) s = .next (s.setFlag .earg)) ∧
    (ArgsOk Config.fDefault s.fs Config.qDefault →
      ∃ t, exec (.setCurve e (some c)) s = .next (t.setCurve e c) ∧
        DesignStored e k Config.qDefault (design s.params k Config.fDefault s.fs Config.qDefault) s t ∧
        (t.setCurve e c).unit e = { t.unit e with curve := c } ∧ OnlyUnit e t (t.setCurve e c)) := by
  refine ⟨exec_setCurve_bad he c k hk, fun hv => ⟨_, exec_setCurve_biquad he c k hk hv, storeDesign_spec s e k _ _ hlen,
    unit_setUnit_self _ e _ ?_, onlyUnit_setUnit _ e _⟩⟩
  rw [storeDesign_units, List.length_set]
  exact hlen

/-- Settles O32: a static curve is one write of the unit, a biquad curve a stored design and then one. -/
theorem setCurveReappliesTheDefaultDesign : Obligations.SetCurveReappliesTheDefaultDesign := by
  intro s e
  refine ⟨fun c => exec_absent (.setCurve e c) s e rfl, exec_einval (i := .setCurve e none) rfl exec_setCurve_reserved,
    fun hinv he => ?_⟩
  have hlen := inv_lt_length hinv he
  refine ⟨fun c hc => ?_, fun ck hck => ?_⟩
  · have hstatic : curveKind c = none := by
      revert c
      decide
    exact next_setUnit_spec hlen (exec_setCurve_static he c hstatic)
  · have hkind : curveKind ck.1 = some ck.2 := by
      revert ck
      decide
    exact exec_setCurve_biquad_spec he hlen hkind

/-! ### The unit an envelope-tick leaves, path by path (R128-R135) -/

/-- What a static curve makes of the level `l` in unit `e` (R130-R133); a biquad curve filters it instead (R134). -/
def staticLevel (s : State) (e : Nat) (l : Level) : Curve → Option Level
  | .linear => some l
  | .oppositeLinear => some (oppositeLinear l)
  | .exponential => some (exponential l)
  | .random => some (BitVec.ofNat 7 (s.randDraw e l.toNat))
  | .lowpass | .highpass | .bandpass => none

/-- Every curve is a static one or a biquad one (R129). -/
theorem staticLevel_cases (s : State) (e : Nat) (l : Level) (c : Curve) :
    (∃ v, staticLevel s e l c = some v) ∨ c ∈ [Curve.lowpass, .highpass, .bandpass] := by
  cases c <;> simp [staticLevel]

theorem exists_staticLevel (s : State) (e : Nat) (l : Level) {c : Curve}
    (hc : c ∈ [Curve.linear, .oppositeLinear, .exponential, .random]) : ∃ v, staticLevel s e l c = some v :=
  (staticLevel_cases s e l c).resolve_right (by revert c; decide)

/-- The SEF path of a static curve is one write of the level (R129). -/
theorem sefTransfer_static {s : State} {e : Nat} {l v : Level} (hv : staticLevel s e l (s.unit e).curve = some v) :
    s.sefTransfer e l = s.setLevel e v := by
  generalize hc : (s.unit e).curve = c at hv
  cases c with
  | linear => cases hv; exact sef_linear l hc
  | oppositeLinear => cases hv; exact sef_oppositeLinear l hc
  | exponential => cases hv; exact sef_exponential l hc
  | random => cases hv; exact sef_random l hc
  | lowpass => cases hv
  | highpass => cases hv
  | bandpass => cases hv

/-- What an envelope-tick of unit `e` leaves there where it finds `u`. -/
def State.ticked (s : State) (e : Nat) (u : EnvUnit) : EnvUnit := ((s.setUnit e u).tickUnit e).unit e

section
variable {s : State} {e : Nat} (hlen : e < s.units.length)
include hlen

/-- The unit a tick leaves, by the unit it finds. -/
theorem tickUnit_unit : (s.tickUnit e).unit e = s.ticked e (s.unit e) := by
  rw [State.ticked, setUnit_self s e hlen]

/-- Writing a level over a unit just written. -/
theorem setLevel_setUnit {u : EnvUnit} (v : Level) : ((s.setUnit e u).setLevel e v).unit e = { u with level := v } := by
  rw [setLevel_unit _ e v (by simpa using hlen), unit_setUnit_self s e u hlen]

variable (u : EnvUnit)

theorem ticked_inactive (ha : u.active = false) : s.ticked e u = u := by
  have hself := unit_setUnit_self s e u hlen
  rw [State.ticked, tick_inactive (by rw [hself, ha]), hself]

theorem ticked_arg (ha : u.active = true) (hm : u.mode = .arg) :
    s.ticked e u = { u with
      level := combine u.method (analogMap (s.analogIn u.pairA.toNat)) (analogMap (s.analogIn u.pairB.toNat)) } := by
  have hself := unit_setUnit_self s e u hlen
  rw [State.ticked, tick_arg (by rw [hself, ha]) (by rw [hself, hm]), setLevel_setUnit hlen, hself]
  rfl

theorem ticked_static (ha : u.active = true) (hm : u.mode = .sef) {v : Level}
    (hv : staticLevel s e (analogMap (s.analogIn u.src.toNat)) u.curve = some v) :
    s.ticked e u = { u with level := v } := by
  have hself := unit_setUnit_self s e u hlen
  rw [State.ticked, tick_sef (by rw [hself, ha]) (by rw [hself, hm]), sefTransfer_static (by rw [hself]; exact hv),
    setLevel_setUnit hlen]

/-- The mapped reading goes through the unit's section as one sample: the level is the output's, and the taps move on. -/
theorem ticked_biquad (ha : u.active = true) (hm : u.mode = .sef)
    (hc : u.curve ∈ [Curve.lowpass, .highpass, .bandpass]) :
    let sig := dfSignal binary32 u.coef u.taps (F32.ofLevel (analogMap (s.analogIn u.src.toNat)))
    s.ticked e u = { u with
      level := toLevel (dfOutput binary32 u.coef u.taps sig)
      taps := { w1 := s.settle e .w1 sig, w2 := u.taps.w1 } } := by
  intro sig
  have hself := unit_setUnit_self s e u hlen
  rw [State.ticked, tick_sef (by rw [hself, ha]) (by rw [hself, hm]), sef_biquad _ (by rw [hself]; simpa using hc),
    (process_spec _ e _).1, (process_spec _ e _).2, setUnit_setUnit, setLevel_setUnit hlen, hself]
  rfl

end

/-! ### UPDATE and UPDATE_ALL (R128-R135, R145) -/

/-- Settles O36: an absent unit is refused before its tick, and an inactive unit's tick changes nothing. -/
theorem updateIsGuardedByActive : Obligations.UpdateIsGuardedByActive := by
  refine fun s e => ⟨exec_absent (.update e) s e rfl, fun he ha => ?_⟩
  rw [exec_update he, tick_inactive ha]

/-- Settles O40: the ARG path's equation, and the frame of every tick. -/
theorem updateArgCombines : Obligations.UpdateArgCombines := by
  intro s e hinv he ha hm
  have hlen := inv_lt_length hinv he
  have hu := (tickUnit_unit hlen).trans (ticked_arg hlen _ ha hm)
  exact ⟨_, exec_update he, by rw [hu], by rw [hu], tickUnit_frame s e⟩

/-- Settles O37: the level is the curve's, which is this formula of the mapped reading. -/
theorem updateSefStaticCurve : Obligations.UpdateSefStaticCurve := by
  intro s e hinv he ha hm l hc
  have hlen := inv_lt_length hinv he
  have hl : (analogMap (s.analogIn (s.unit e).src.toNat)).toNat = l := analogMap_toNat _
  obtain ⟨v, hv⟩ := exists_staticLevel s e (analogMap (s.analogIn (s.unit e).src.toNat)) hc
  have hu := (tickUnit_unit hlen).trans (ticked_static hlen _ ha hm hv)
  refine ⟨_, exec_update he, by rw [hu], tickUnit_frame s e, ?_⟩
  rw [hu]
  refine ⟨fun hk => ?_, fun hk => ?_, fun hk => ?_, fun hk => ?_⟩ <;> rw [hk] at hv <;> cases hv
  · exact hl
  · rw [oppositeLinear_toNat, hl]
  · rw [exponential_toNat, hl]
  · have hdraw := randDraw_le s e l
    have hfit := analog_le (s.analogIn (s.unit e).src.toNat)
    rw [hl, BitVec.toNat_ofNat, Nat.mod_eq_of_lt (by omega)]
    exact ⟨rfl, hdraw⟩

/-- Settles O41: each tick of UPDATE_ALL reads its unit and what is outside the units, which the other ticks leave. -/
theorem updateAllTicksEveryUnit : Obligations.UpdateAllTicksEveryUnit := by
  intro s _
  obtain ⟨hframe, hcount, hticked, -⟩ := foldl_tick s s.params.nEnv
  exact ⟨_, rfl, hframe, hcount, fun e he => ⟨_, exec_update he, hticked e he⟩⟩

/-! ### What each path reads (R144) -/

section
variable {s : State} {e : Nat} (hlen : e < s.units.length) {u : EnvUnit}
include hlen

/-- In ARG mode or on a static curve the level is the same whatever the section holds, and the section stays. -/
theorem ticked_section (hp : u.mode = .arg ∨ u.curve ∈ [Curve.linear, .oppositeLinear, .exponential, .random])
    (c : Coeffs F32) (w : Taps F32) :
    s.ticked e { u with coef := c, taps := w } = { u with coef := c, taps := w, level := (s.ticked e u).level } := by
  rcases Bool.eq_false_or_eq_true u.active with ha | ha
  · obtain hm | hm : u.mode = .arg ∨ u.mode = .sef := by cases u.mode <;> simp
    · rw [ticked_arg hlen u ha hm]
      exact ticked_arg hlen { u with coef := c, taps := w } ha hm
    · obtain ⟨v, hv⟩ := exists_staticLevel s e (analogMap (s.analogIn u.src.toNat)) (hp.resolve_left (by simp [hm]))
      rw [ticked_static hlen u ha hm hv]
      exact ticked_static hlen { u with coef := c, taps := w } ha hm hv
  · rw [ticked_inactive hlen u ha]
    exact ticked_inactive hlen { u with coef := c, taps := w } ha

/-- In SEF mode the level and the taps are the same whatever the pair and the method are. -/
theorem ticked_pair_method (hm : u.mode = .sef) (a b : BitVec 8) (m : Method) :
    s.ticked e { u with pairA := a, pairB := b, method := m } = { u with
      pairA := a, pairB := b, method := m, level := (s.ticked e u).level, taps := (s.ticked e u).taps } := by
  rcases Bool.eq_false_or_eq_true u.active with ha | ha
  · rcases staticLevel_cases s e (analogMap (s.analogIn u.src.toNat)) u.curve with ⟨v, hv⟩ | hc
    · rw [ticked_static hlen u ha hm hv]
      exact ticked_static hlen { u with pairA := a, pairB := b, method := m } ha hm hv
    · rw [ticked_biquad hlen u ha hm hc]
      exact ticked_biquad hlen { u with pairA := a, pairB := b, method := m } ha hm hc
  · rw [ticked_inactive hlen u ha]
    exact ticked_inactive hlen { u with pairA := a, pairB := b, method := m } ha

/-- In ARG mode the level is the same whatever the source and the curve are, and the taps stay. -/
theorem ticked_src_curve (hm : u.mode = .arg) (k : BitVec 8) (c : Curve) :
    s.ticked e { u with src := k, curve := c } = { u with
      src := k, curve := c, level := (s.ticked e u).level, taps := (s.ticked e u).taps } := by
  rcases Bool.eq_false_or_eq_true u.active with ha | ha
  · rw [ticked_arg hlen u ha hm]
    exact ticked_arg hlen { u with src := k, curve := c } ha hm
  · rw [ticked_inactive hlen u ha]
    exact ticked_inactive hlen { u with src := k, curve := c } ha

end

/-- Settles O57: both runs tick the unit, and what it leaves does not depend on the fields the path does not read. -/
theorem pathsAreIsolated : Obligations.PathsAreIsolated := by
  intro s e v hinv he u
  have hlen := inv_lt_length hinv he
  refine ⟨fun hp => ?_, fun hm => ?_, fun hm => ?_⟩ <;>
    refine ⟨_, _, exec_update he, exec_update (s := s.setUnit e _) he, ?_⟩ <;> rw [tickUnit_unit hlen]
  · have hself := ticked_section hlen hp u.coef u.taps
    have hother := ticked_section hlen hp v.coef v.taps
    exact ⟨(congrArg EnvUnit.taps hself :), (congrArg EnvUnit.coef hself :), (congrArg EnvUnit.level hother :)⟩
  · have hother := ticked_pair_method hlen hm v.pairA v.pairB v.method
    exact ⟨(congrArg EnvUnit.level hother :), (congrArg EnvUnit.taps hother :)⟩
  · have hother := ticked_src_curve hlen hm v.src v.curve
    exact ⟨(congrArg EnvUnit.level hother :), (congrArg EnvUnit.taps hother :)⟩

end Sys2Proof.Machine

namespace Sys2Proof.F32

/-! ### A level as a sample (R12, R134) -/

/-- Every whole number of 24 bits is a finite binary32 value: the units of 2^-149 it counts are some finite magnitude's. -/
theorem exists_magValue_of_whole {n : Nat} (hn : n < 2 ^ 24) : ∃ m < infMag, magValue m = n * 2 ^ 149 := by
  rcases Nat.eq_zero_or_pos n with rfl | hpos
  · exact ⟨0, by decide, by decide⟩
  have hlog : Nat.log2 n < 24 := (Nat.log2_lt (by omega)).mpr hn
  obtain ⟨k, hk⟩ : ∃ k, Nat.log2 n + k = 23 := ⟨23 - Nat.log2 n, by omega⟩
  have hlow : 2 ^ 23 ≤ n * 2 ^ k := by
    rw [← hk, pow_add]
    exact Nat.mul_le_mul_right _ (Nat.log2_self_le (by omega))
  have hhigh : n * 2 ^ k < 2 ^ 24 := by
    rw [show 24 = Nat.log2 n + 1 + k by omega, pow_add]
    exact Nat.mul_lt_mul_of_pos_right Nat.lt_log2_self (by positivity)
  refine ⟨(126 + Nat.log2 n) * 2 ^ 23 + n * 2 ^ k, ?_, ?_⟩
  · unfold infMag
    omega
  · rw [magValue_block _ _ hhigh.le (.inr hlow), mul_assoc, ← pow_add, show k + (126 + Nat.log2 n) = 149 by omega]

theorem exists_ofLevel_eq_pack (l : Level) :
    ∃ m < infMag, ofLevel l = pack false m ∧ magValue m = l.toNat * 2 ^ 149 := by
  obtain ⟨m, hm, hval⟩ := exists_magValue_of_whole (n := l.toNat) (by omega)
  refine ⟨m, hm, ?_, hval⟩
  rw [ofLevel, ← hval, ← Nat.mul_one (magValue m), roundMag_exact m 1 Nat.one_pos hm]

/-- A level's sample is its value exactly, under sign bit 0. -/
theorem ofLevel_spec (l : Level) :
    isFinite (ofLevel l) = true ∧ units (ofLevel l) = (l.toNat : Int) * 2 ^ 149 ∧ sign (ofLevel l) = false := by
  obtain ⟨m, hm, hpack, hval⟩ := exists_ofLevel_eq_pack l
  have hm31 : m < 2 ^ 31 := lt_trans hm (by decide)
  have hsign : sign (ofLevel l) = false := by rw [hpack, sign_pack _ _ hm31]
  have hmag : mag (ofLevel l) = m := by rw [hpack, mag_pack _ _ hm31]
  refine ⟨?_, ?_, hsign⟩
  · rw [isFinite, hmag]
    exact decide_eq_true hm
  · rw [units_eq, hsign, hmag, hval]
    push_cast
    rfl

end Sys2Proof.F32

namespace Sys2Proof.Machine

/-- Settles O39: the biquad path's equation, where the stored signal holds the section's. -/
theorem updateSefBiquadPath : Obligations.UpdateSefBiquadPath := by
  refine ⟨F32.ofLevel_spec, fun s e hinv he ha hm hc => ?_⟩
  intro c w1 w2 x w y
  have hlen := inv_lt_length hinv he
  have hu := (tickUnit_unit hlen).trans (ticked_biquad hlen _ ha hm hc)
  rw [dfOutput_binary32, dfSignal_binary32] at hu
  refine ⟨_, exec_update he, by rw [hu], ?_, by rw [hu], by rw [hu], tickUnit_frame s e⟩
  rw [hu]
  exact holds_settle ..

/-! ### Levels (R120, R136-R139, R141, R142) -/

/-- Settles O44: the map's formula, in which a larger reading gives no smaller quotient. -/
theorem analogMapIsLinearAndMonotone : Obligations.AnalogMapIsLinearAndMonotone := by
  refine ⟨analogMap_toNat, fun a b hab => ?_, by decide⟩
  rw [analogMap_toNat, analogMap_toNat]
  exact Nat.div_le_div_right (Nat.mul_le_mul_right 127 hab)

/-- `clamp7` of a natural number. -/
theorem clamp7_natCast (n : Nat) : (clamp7 (n : Int)).toNat = min n 127 := by
  rw [clamp7_toNat]
  omega

/-- `clamp7` of a truncated quotient of a difference: a difference below zero counts as zero (R139). -/
theorem clamp7_sub_tdiv (a b d : Nat) : (clamp7 (((a : Int) - b).tdiv d)).toNat = min ((a - b) / d) 127 := by
  rcases Nat.le_total b a with h | h
  · rw [← Nat.cast_sub h, ← Int.ofNat_tdiv, clamp7_natCast]
  · have hneg : ((a : Int) - b).tdiv d = -(((b - a) / d : Nat) : Int) := by
      rw [← neg_sub (b : Int), ← Nat.cast_sub h, Int.neg_tdiv, ← Int.ofNat_tdiv]
    rw [hneg, clamp7_toNat, Nat.sub_eq_zero_of_le h, Nat.zero_div]
    generalize (b - a) / d = q
    omega

section
variable (a b : Level)

theorem combine_plus_toNat : (combine .plus a b).toNat = min (a.toNat + b.toNat) 127 :=
  clamp7_natCast (a.toNat + b.toNat)

theorem combine_min_toNat : (combine .min a b).toNat = a.toNat - b.toNat := by
  simp only [combine, clamp7_toNat]
  omega

theorem combine_peck_toNat : (combine .peck a b).toNat = b.toNat - a.toNat := by
  simp only [combine, clamp7_toNat]
  omega

theorem combine_shav_toNat : (combine .shav a b).toNat = (a.toNat - b.toNat) / 10 := by
  refine (clamp7_sub_tdiv a.toNat b.toNat 10).trans ?_
  omega

/-- By a divisor that is not zero the quotient is that of natural numbers (R141). -/
theorem combine_babs_eq (hb : b.toNat ≠ 0) : combine .babs a b = clamp7 ((a.toNat / b.toNat : Nat) : Int) := by
  rw [Int.ofNat_tdiv]
  exact if_neg (Nat.cast_ne_zero.mpr hb)

/-- The product is taken before the quotient (R142). -/
theorem combine_tabs_eq (hb : b.toNat ≠ 0) : combine .tabs a b = clamp7 ((10 * a.toNat / b.toNat : Nat) : Int) := by
  rw [Int.ofNat_tdiv, Nat.cast_mul]
  exact if_neg (Nat.cast_ne_zero.mpr hb)

theorem combine_babs_toNat : (combine .babs a b).toNat = if b.toNat = 0 then 0 else a.toNat / b.toNat := by
  split
  case isTrue hb => simp [combine, hb]
  case isFalse hb =>
    have hle := Nat.div_le_self a.toNat b.toNat
    rw [combine_babs_eq a b hb, clamp7_natCast]
    omega

theorem combine_tabs_toNat :
    (combine .tabs a b).toNat = if b.toNat = 0 then 0 else min (10 * a.toNat / b.toNat) 127 := by
  split
  case isTrue hb => simp [combine, hb]
  case isFalse hb => rw [combine_tabs_eq a b hb, clamp7_natCast]

theorem combine_sqar_toNat : (combine .sqar a b).toNat = min (sqar a.toNat b.toNat) 127 := clamp7_natCast _

end

/-- Settles O45, method by method. -/
theorem combineMethodsOnLevels : Obligations.CombineMethodsOnLevels := fun a b =>
  ⟨combine_plus_toNat a b, combine_min_toNat a b, combine_peck_toNat a b, combine_shav_toNat a b,
    combine_babs_toNat a b, combine_tabs_toNat a b⟩

/-! ### The rounded square root (R10, R140) -/

/-- Each bit tried halves the interval the square root lies in. -/
theorem isqrtFrom_spec (s k n : Nat) (hlow : n * n ≤ s) (hhigh : s < (n + 2 ^ k) * (n + 2 ^ k)) :
    isqrtFrom s k n * isqrtFrom s k n ≤ s ∧ s < (isqrtFrom s k n + 1) * (isqrtFrom s k n + 1) := by
  induction k generalizing n with
  | zero => exact ⟨hlow, hhigh⟩
  | succ k ih =>
    rw [isqrtFrom]
    split
    case isTrue hbit => exact ih _ hbit (by rwa [add_assoc, ← two_mul, ← pow_succ'])
    case isFalse hbit => exact ih n hlow (Nat.not_le.mp hbit)

theorem isqrt_spec (s : Nat) : isqrt s * isqrt s ≤ s ∧ s < (isqrt s + 1) * (isqrt s + 1) := by
  refine isqrtFrom_spec s _ 0 (Nat.zero_le s) ?_
  calc s < 2 ^ (Nat.log2 s + 1) := Nat.lt_log2_self
    _ ≤ 2 ^ ((Nat.log2 s / 2 + 1) + (Nat.log2 s / 2 + 1)) := Nat.pow_le_pow_right (by decide) (by omega)
    _ = (0 + 2 ^ (Nat.log2 s / 2 + 1)) * (0 + 2 ^ (Nat.log2 s / 2 + 1)) := by rw [Nat.zero_add, pow_add]

/-- The root moved up past `n * n + n` is within one half of the root of `s`, squares and halves cleared. -/
theorem sqar_nearest (a b : Nat) :
    4 * (a * a + b * b) < (2 * sqar a b + 1) * (2 * sqar a b + 1) ∧
    (sqar a b = 0 ∨ (2 * sqar a b - 1) * (2 * sqar a b - 1) < 4 * (a * a + b * b)) := by
  obtain ⟨hlow, hhigh⟩ := isqrt_spec (a * a + b * b)
  unfold sqar
  simp only
  generalize a * a + b * b = s at *
  generalize isqrt s = n at *
  split
  case isTrue hup =>
    rw [show 2 * (n + 1) - 1 = 2 * n + 1 by omega]
    exact ⟨by nlinarith, .inr (by nlinarith)⟩
  case isFalse hdown =>
    rw [Nat.add_zero]
    refine ⟨by nlinarith, ?_⟩
    cases n with
    | zero => exact .inl rfl
    | succ m =>
      rw [show 2 * (m + 1) - 1 = 2 * m + 1 by omega]
      exact .inr (by nlinarith)

/-- Settles O46: the root before the clamp is the number that is asked for. -/
theorem sqarRoundsToNearest : Obligations.SqarRoundsToNearest := fun a b =>
  ⟨sqar a.toNat b.toNat, combine_sqar_toNat a b, sqar_nearest a.toNat b.toNat⟩

end Sys2Proof.Machine
end

section
/-! PROOFS. The claims of 42_output.md. What an APPLY leaves of RESULT, the cache and the trace (R160); what emitting does to the
values of each destination, and from it the emission guarantee over every command and every step (R161). -/

namespace Sys2Proof

theorem f2Field_eq (w : Word) : f2Field w = w.toNat / 65536 % 256 := field_toNat w 16 8

end Sys2Proof

namespace Sys2Proof.Machine

/-! ### The emission guarantee (R161) -/

/-- An emission joins the values of its own destination. -/
theorem emittedFor_append_self (trace : List Emission) (ch : Nat) (v : Level) :
    emittedFor (trace ++ [{ ch := ch, val := v }]) ch = emittedFor trace ch ++ [v] := by
  simp [emittedFor]

/-- An emission leaves the values of every other destination. -/
theorem emittedFor_append_other (trace : List Emission) {ch ch' : Nat} (v : Level) (h : ch' ≠ ch) :
    emittedFor (trace ++ [{ ch := ch, val := v }]) ch' = emittedFor trace ch' := by
  simp [emittedFor, h.symm]

section
variable {s t : State}

/-- The emission guarantee speaks of the configuration, the cache and the trace alone. -/
theorem emissionsOk_congr (h : s.EmissionsOk) (hp : t.params = s.params) (hl : t.lastSent = s.lastSent)
    (hm : t.emissions = s.emissions) : t.EmissionsOk where
  noRepeat ch := hm ▸ h.noRepeat ch
  cached ch hc := by
    rw [lastSentAt_congr hl, hm]
    exact h.cached ch (hp ▸ hc)
  inRange m hmem := hp ▸ h.inRange m (hm ▸ hmem)

/-- Emitting a value the cache does not hold keeps the guarantee: the cache holds the destination's last value, so the new
value differs from that one, and it becomes the last value in both. -/
theorem emissionsOk_emit {ch : Nat} {v : Level} (hinv : s.Inv) (h : s.EmissionsOk) (hc : ch < s.params.nCh)
    (hne : s.lastSentAt ch ≠ some v) : (s.emit ch v).EmissionsOk where
  noRepeat ch' := by
    rw [emit_emissions]
    by_cases heq : ch' = ch
    · subst heq
      have hlast : ∀ x ∈ (emittedFor s.emissions ch').getLast?, x ≠ v := by
        rintro x hx rfl
        exact hne ((h.cached ch' hc).trans hx)
      rw [emittedFor_append_self, List.isChain_append]
      exact ⟨h.noRepeat ch', .singleton v, by simpa using hlast⟩
    · rw [emittedFor_append_other _ v heq]
      exact h.noRepeat ch'
  cached ch' hc' := by
    rw [emit_emissions]
    by_cases heq : ch' = ch
    · subst heq
      rw [emittedFor_append_self, List.getLast?_concat]
      exact lastSentAt_emit_self s ch' v (hinv.cacheSize ▸ hc)
    · rw [emittedFor_append_other _ v heq, lastSentAt_emit_other s ch ch' v heq]
      exact h.cached ch' hc'
  inRange m hm := by
    rcases List.mem_append.mp hm with hold | hnew
    · exact h.inRange m hold
    · obtain rfl := List.mem_singleton.mp hnew
      exact hc

/-- An APPLY to a destination of the configuration keeps the guarantee: it emits only where the cache does not hold its
value. -/
theorem emissionsOk_applied {e ch v : Nat} (hinv : s.Inv) (h : s.EmissionsOk) (hc : ch < s.params.nCh) :
    (applied s e ch v).EmissionsOk := by
  by_cases hs : s.lastSentAt ch = some (applyValue v (s.unit e).level)
  · rw [applied_same s e ch v hs]
    exact emissionsOk_congr h rfl rfl rfl
  · rw [applied_changed s e ch v hs]
    exact emissionsOk_congr (emissionsOk_emit hinv h hc hs) rfl rfl rfl

/-- Every command keeps the emission guarantee: of all commands only an APPLY writes the cache or the trace. -/
theorem emissionsOk_of_performed {i : Instr} (hinv : s.Inv) (h : s.EmissionsOk) (hx : Performed i s t) :
    t.EmissionsOk := by
  cases hx with
  | output e ch v _ _ hc => exact emissionsOk_applied hinv h hc
  | all =>
    rw [eq_with_units (foldl_tick s s.params.nEnv).1]
    exact emissionsOk_congr h rfl rfl rfl
  | _ => exact emissionsOk_congr h rfl rfl rfl

end

/-- Settles O60: reset empties the trace and the cache together, a command keeps the guarantee, and every other access leaves
the configuration, the cache and the trace. -/
theorem stepsKeepTheEmissionGuarantee : Obligations.StepsKeepTheEmissionGuarantee := by
  intro s t hinv hok hstep
  cases stepped_of_step s t hstep with
  | reset => exact emissionsOk_congr (emissionsOk_resetWith s.params) rfl rfl rfl
  | command w env rest i t hp hd hx =>
    exact emissionsOk_of_performed (inv_accept hinv ..) (emissionsOk_congr hok rfl rfl rfl) (performed_of_exec i _ t hx)
  | _ => exact emissionsOk_congr hok rfl rfl rfl

/-! ### APPLY (R160) -/

section
variable (s : State) (e ch v : Nat)

/-- RESULT after an APPLY: the value, whether it differs from the cached one, and the destination (R28, R160). -/
theorem applied_result : (applied s e ch v).result =
    { value := applyValue v (s.unit e).level,
      changed := decide (s.lastSentAt ch ≠ some (applyValue v (s.unit e).level)), ch := BitVec.ofNat 8 ch } := rfl

/-- An APPLY leaves the cache entry of every other destination. -/
theorem applied_lastSentAt_other {ch' : Nat} (h : ch' ≠ ch) :
    (applied s e ch v).lastSentAt ch' = s.lastSentAt ch' := by
  by_cases hs : s.lastSentAt ch = some (applyValue v (s.unit e).level)
  · rw [applied_same s e ch v hs]
    rfl
  · rw [applied_changed s e ch v hs]
    exact lastSentAt_emit_other s ch ch' _ h

/-- An APPLY emits its value once where RESULT says that it changed, and nothing otherwise. -/
theorem applied_emissions : (applied s e ch v).emissions = s.emissions ++
    (if (applied s e ch v).result.changed then [{ ch := ch, val := (applied s e ch v).result.value }] else []) := by
  by_cases hs : s.lastSentAt ch = some (applyValue v (s.unit e).level)
  · rw [applied_same s e ch v hs]
    exact (List.append_nil _).symm
  · rw [applied_changed s e ch v hs]
    rfl

end

/-- Settles O42: F2 and F0 are the operands, an absent unit or destination is refused, and otherwise the state `applied` is
left. -/
theorem applyEmitsOnChange : Obligations.ApplyEmitsOnChange := by
  refine ⟨fun w hop => by rw [decodeWord_applyOut hop, f2Field_eq, f0Field_eq], fun s e ch v => ⟨?_, fun hinv he hc => ?_⟩⟩
  · rintro (he | hc)
    · exact exec_absent (.applyOut e ch v) s e rfl he
    · exact exec_einval (i := .applyOut e ch v) rfl fun he => exec_applyOut_bad he ch v hc
  · obtain ⟨-, -, -, -, -, hch, -⟩ := hinv.legal
    exact ⟨applied s e ch v, exec_applyOut he ch v hc, applyValue_toNat v _, Nat.mod_eq_of_lt (by omega),
      applied_cached s e ch v (hinv.cacheSize ▸ hc), fun _ => applied_lastSentAt_other s e ch v, rfl,
      applied_emissions s e ch v, applied_frame s e ch v⟩

/-- Settles O43: the first APPLY leaves its value in the cache, and an APPLY of the value the cache holds writes RESULT
only. -/
theorem repeatedValueEmitsOnce : Obligations.RepeatedValueEmitsOnce := by
  intro s t e e' ch v v' hinv he he' hc hfirst hvalue
  rw [exec_applyOut he ch v hc] at hfirst
  cases hfirst
  have hsame : applyValue v' ((applied s e ch v).unit e').level = applyValue v (s.unit e).level := by
    apply BitVec.eq_of_toNat_eq
    rwa [applied_unit, applyValue_toNat, applyValue_toNat]
  have hheld : (applied s e ch v).lastSentAt ch = some (applyValue v' ((applied s e ch v).unit e').level) := by
    rw [hsame]
    exact applied_cached s e ch v (hinv.cacheSize ▸ hc)
  refine ⟨applied (applied s e ch v) e' ch v', exec_applyOut (by rwa [applied_params]) ch v' (by rwa [applied_params]), ?_⟩
  rw [applied_same _ e' ch v' hheld, hsame]
  exact ⟨rfl, rfl, rfl⟩

end Sys2Proof.Machine
end

section
/-! PROOFS. The claims of 60_exceptions.md. What sets each error flag, with no other change (R171-R173); that a command
either is refused or sets no error flag (R175, R176); that every step ends in a next state (R176, R200); and that only the host and
reset clear a flag (R170). -/

namespace Sys2Proof.Machine

/-! ### Every step completes (R176, R200) -/

/-- Whatever a CMD write holds, a command or a reserved opcode, the block goes on to a next state. -/
theorem runCommand_completes (w : Word) (s : State) : ∃ t, runCommand w s = .next t := by
  cases hd : decodeWord w with
  | ok i =>
    obtain ⟨t, ht, -⟩ := exec_performed i s
    exact ⟨t, (runCommand_of_decode hd s).trans ht⟩
  | error x => exact ⟨s.setFlag .ecmd, by simp only [runCommand, hd, refuse_eq]⟩

/-- Every access ends in a next state: all but a CMD write do by their definition. -/
theorem perform_completes (a : Access) (s : State) : ∃ t, perform a s = .next t := by
  cases a with
  | read => exact ⟨_, rfl⟩
  | reset => exact ⟨_, rfl⟩
  | write index v =>
    change ∃ t, writeReg (Reg.at s.params index) v s = .next t
    cases Reg.at s.params index with
    | cmd => exact runCommand_completes v s
    | _ => exact ⟨_, rfl⟩

/-- Settles O14: a step with no access pending keeps the state, and any other performs one access. -/
theorem everyStepCompletes : Obligations.EveryStepCompletes := by
  intro s
  cases hp : s.port with
  | nil => exact ⟨s, by simp only [step, hp]⟩
  | cons ev rest =>
    obtain ⟨t, ht⟩ := perform_completes ev.access (s.accept ev rest)
    exact ⟨t, (step_of_port hp).trans ht⟩

/-! ### ECMD (R171) -/

/-- A reserved opcode written to CMD is refused with ECMD. -/
theorem runCommand_reserved {w : Word} (h : 13 ≤ opField w) (s : State) : runCommand w s = .next (s.setFlag .ecmd) := by
  simp only [runCommand, decodeWord_reserved h, refuse_eq]

/-- Settles O8: the step takes the CMD write from the port, and its word decodes to no command. -/
theorem reservedOpcodeSetsEcmdOnly : Obligations.ReservedOpcodeSetsEcmdOnly := by
  intro s w env rest hp hop
  rw [step_of_port hp, perform_write_cmd, runCommand_reserved hop]
  rfl

/-! ### EINVAL (R172) -/

/-- NOP and UPDATE_ALL end in a state with the flags as they were. -/
theorem exec_keeps_status {i : Instr} (hi : i = .nop ∨ i = .updateAll) (s : State) :
    ∃ t, exec i s = .next t ∧ t.status = s.status := by
  obtain ⟨t, ht, hx⟩ := exec_performed i s
  exact ⟨t, ht, performed_status hx hi⟩

/-- Settles O16: an absent unit is refused before any other check, so every refusal of an operand on a unit of the
configuration is one on every unit; NOP and UPDATE_ALL check nothing. -/
theorem einvalRefusals : Obligations.EinvalRefusals := by
  intro s refused
  refine ⟨fun e he => ?_, fun e => ?_, fun e => ?_, fun e => ?_, fun e k hk => ?_, fun e a b hab => ?_, fun e ch v hc => ?_,
    ?_, ?_⟩
  · have absent {i : Instr} (hi : unitOf i = some e) : exec i s = refused := exec_absent i s e hi he
    exact ⟨fun _ => absent rfl, fun _ => absent rfl, fun _ => absent rfl, fun _ => absent rfl, fun _ => absent rfl,
      fun _ _ => absent rfl, fun _ => absent rfl, absent rfl, absent rfl, absent rfl, fun _ _ => absent rfl⟩
  · exact exec_einval (i := .setCurve e none) rfl exec_setCurve_reserved
  · exact exec_einval (i := .setMethod e none) rfl exec_setMethod_reserved
  · exact exec_einval (i := .cfgBiq e none) rfl exec_cfgBiq_reserved
  · exact exec_einval (i := .setSrc e k) rfl fun he => exec_setSrc_bad he k hk
  · exact exec_einval (i := .setPair e a b) rfl fun he => exec_setPair_bad he a b (by omega)
  · exact exec_einval (i := .applyOut e ch v) rfl fun he => exec_applyOut_bad he ch v hc
  · obtain ⟨t, ht, hst⟩ := exec_keeps_status (.inl rfl) s
    exact ⟨t, ht, congrArg Status.einval hst⟩
  · obtain ⟨t, ht, hst⟩ := exec_keeps_status (.inr rfl) s
    exact ⟨t, ht, congrArg Status.einval hst⟩

/-! ### EARG (R173) -/

/-- The arguments of a design that R102 does not accept, in the words of R173. -/
theorem not_argsOk_iff (f fs q : F32) : ¬ ArgsOk f fs q ↔
    F32.isNaN f = true ∨ (F32.isFinite q = false ∨ F32.lt 0x00000000#32 q = false) ∨
      (F32.isFinite fs = false ∨ F32.lt 0x00000000#32 fs = false) := by
  simp only [ArgsOk, not_and_or, Bool.not_eq_true, Bool.not_eq_false]

/-- The biquad curves design a section (R124). -/
theorem exists_curveKind_of_biquad {c : Curve} (hc : c ∈ [Curve.lowpass, .highpass, .bandpass]) :
    ∃ k, curveKind c = some k := by
  cases c with
  | lowpass | highpass | bandpass => exact ⟨_, rfl⟩
  | linear | oppositeLinear | exponential | random => simp at hc

/-- Settles O17: each case of R173 fails the check of R102, of the staging registers or of the default design. -/
theorem eargRefusals : Obligations.EargRefusals := by
  intro s e he refused notFinitePositive
  refine ⟨fun hbad => ?_, fun hfs c hc => ?_⟩
  · have hargs : ¬ ArgsOk s.argF s.fs s.argQ := (not_argsOk_iff ..).mpr hbad
    exact ⟨fun k => (exec_cfgBiq he k).trans (designStaged_bad e k s hargs),
      (exec_cfgFilt he).trans (designStaged_bad e _ s hargs)⟩
  · obtain ⟨k, hk⟩ := exists_curveKind_of_biquad hc
    exact exec_setCurve_bad he c k hk ((not_argsOk_iff ..).mpr (.inr (.inr hfs)))

/-! ### All or nothing (R175, R176) -/

/-- What a command leaves of STATUS: an error flag is set by a refusal alone, which leaves the rest of the state, and beside
an effect only FCLAMP is set. -/
theorem performed_refused_or_status {i : Instr} {s t : State} (h : Performed i s t) :
    t = s.setFlag .einval ∨ t = s.setFlag .earg ∨ t.status = s.status ∨ t.status = s.status.set .fclamp := by
  cases h with
  | einval => exact .inl rfl
  | earg => exact .inr (.inl rfl)
  | clamped => exact .inr (.inr (.inr rfl))
  | nop | unit | processed => exact .inr (.inr (.inl rfl))
  | all hi => exact .inr (.inr (.inl (performed_status (.all hi) (.inr hi))))
  | output => exact .inr (.inr (.inl (applied_status ..)))

/-- Settles O18: every command ends as `Performed` says. -/
theorem commandsAreAllOrNothing : Obligations.CommandsAreAllOrNothing :=
  fun i s t h => performed_refused_or_status (performed_of_exec i s t h)

/-! ### Sticky flags (R170) -/

/-- Setting a flag clears none. -/
theorem status_get_set_of_get {st : Status} {f : Flag} (h : st.get f = true) (g : Flag) : (st.set g).get f = true := by
  rw [status_get_set, h, Bool.true_or]

/-- No command clears a flag. -/
theorem performed_keeps_flag {i : Instr} {s t : State} (hx : Performed i s t) {f : Flag} (h : s.status.get f = true) :
    t.status.get f = true := by
  rcases performed_refused_or_status hx with rfl | rfl | hst | hst
  · exact status_get_set_of_get h .einval
  · exact status_get_set_of_get h .earg
  · rw [hst, h]
  · rw [hst]
    exact status_get_set_of_get h .fclamp

/-- Settles O19: of a step's accesses a STATUS write clears the flags whose bits it has and reset clears all; a command, a
reserved opcode and every other access clear none. -/
theorem flagsAreSticky : Obligations.FlagsAreSticky := by
  intro s t f hstep hset hclear
  have cleared : t.status.get f ≠ true := Bool.eq_false_iff.mp hclear
  cases stepped_of_step s t hstep with
  | reset env rest hp => exact ⟨env, rest, .inl hp⟩
  | clear v env rest hp =>
    refine ⟨env, rest, .inr ⟨v, ?_, hp⟩⟩
    change (s.status.clear v).get f = false at hclear
    simpa [status_get_clear, hset] using hclear
  | command w env rest i t hp hd hx => exact absurd (performed_keeps_flag (performed_of_exec i _ t hx) hset) cleared
  | reserved => exact absurd (status_get_set_of_get hset .ecmd) cleared
  | idle | read | stage => exact absurd hset cleared

end Sys2Proof.Machine
end
